-- ==== Sys2Proof/Word.lean ====
section
/-! DEFINITION. The words of the CR16A: bytes, 16-bit words, 18-bit addresses, and the two operation widths
(spec/00_scope.md R3, R6, R8). -/

namespace Sys2Proof

/-- A byte: 8 bits (R3, R8). -/
abbrev Byte := BitVec 8

/-- A word: 16 bits, the width of a general register (R3, R8). -/
abbrev Word := BitVec 16

/-- An address: 18 bits, the width of the dedicated address registers (R3). -/
abbrev Addr := BitVec 18

/-- The operation width `w` of R6: the suffix B or W of a mnemonic. -/
inductive Width where
  | byte
  | word
deriving DecidableEq, Repr

/-- The operation width in bits (R6). -/
abbrev Width.bits : Width → Nat
  | .byte => 8
  | .word => 16

end Sys2Proof
end

