-- ==== Sys2Proof/Config.lean ====
section
/-! DEFINITION. What an implementation of the CR16A fixes and what the manual leaves open: the free values
(spec/00_scope.md R6, `unspecified(N)`) and the named parameters of spec/00_scope.md R4 (spec/92_eei_decisions.md). -/

namespace Sys2Proof.Config

/-- The free values. The k-th value drawn as `unspecified(N)` (R6) is the low N bits of `unspecified k`.
It has no body that Lean can see, so whatever is proved holds for every value. Log 5. -/
opaque unspecified : Nat → Word

/-- The free choice of a fetch among the present and the earlier values of a byte stored since the last
serializing operation (spec/20_memory.md R66). It has no body that Lean can see. Log 25. -/
opaque staleChoice : Nat → Nat

/-- The three interrupt requests (spec/60_exceptions.md R210). -/
inductive Source where
  | ise
  | nmi
  | int
deriving DecidableEq, Repr

/-- INT_PRIORITY: an order of the three interrupt requests, first named first served
(spec/60_exceptions.md R217, D7). Log 9. -/
inductive IntPriority where
  | iseNmiInt
  | iseIntNmi
  | nmiIseInt
  | nmiIntIse
  | intIseNmi
  | intNmiIse
deriving DecidableEq, Repr

/-- UNLISTED_ENCODING: what an encoding that is neither defined nor in Table A-2 does (spec/30_encoding.md R104, R108;
D8, D14). Logs 18 and 19. -/
inductive UnlistedEncoding where
  /-- The model gives it no meaning (the default). -/
  | refuse
  /-- It raises UND. -/
  | raiseUnd
  /-- It is decoded with the fixed fields ignored. -/
  | ignoreFields
deriving DecidableEq, Repr

/-- ADDR_WRAP: an effective address above 2^18 - 1 (spec/20_memory.md R60, D2). Log 15. -/
inductive AddrWrap where
  /-- The sum modulo 2^18 (the default). -/
  | modulo
  /-- The access is refused. -/
  | refuse
deriving DecidableEq, Repr

/-- PC_WRAP: the program past 0x1FFFE (spec/10_state.md R17, spec/20_memory.md R57, D4). The PC itself is always reduced
modulo 2^17. Log 14. -/
inductive PcWrap where
  /-- A 4-byte instruction at 0x1FFFE is refused (the default). -/
  | modulo
  /-- Its second word is fetched at 0, the address R57 names. -/
  | moduloSplit
deriving DecidableEq, Repr

/-- ISP_WRAP: ISP moved by 4 past an end of its range (spec/10_state.md R20, D11). Log 16. -/
inductive IspWrap where
  /-- Modulo 2^16 (the default). -/
  | modulo
  /-- The model gives it no meaning. -/
  | refuse
deriving DecidableEq, Repr

/-- WORD_AT_TOP: a word access at 0x3FFFF (spec/20_memory.md R55, R56, D3). Log 13. -/
inductive WordAtTop where
  /-- The model gives it no meaning (the default). -/
  | refuse
  /-- The second byte is the one at address 0, as the sum modulo 2^18 in R55 and R56 says. -/
  | wrap
deriving DecidableEq, Repr

/-- RESERVED_REGION_ACCESS: an access in 0xFC00..0xFFFF, by a load, a store, a fetch, or the hardware to the interrupt stack
or the dispatch table (spec/20_memory.md R52, spec/60_exceptions.md R237, D20, D22). Log 12. -/
inductive ReservedRegionAccess where
  /-- The model gives it no meaning (the default). -/
  | refuse
  /-- A device of the platform answers: a byte read is a free value, a byte written changes no memory. -/
  | device
  /-- The platform decodes memory there. -/
  | memory
deriving DecidableEq, Repr

/-- ICU_VECTOR_RANGE: a vector byte of the ICU outside 16..127 (spec/60_exceptions.md R221, D12). Log 11. -/
inductive IcuVectorRange where
  /-- The model gives it no meaning (the default). -/
  | refuse
  /-- The byte is used as it is as the index into the dispatch table. -/
  | asIs
deriving DecidableEq, Repr

/-- WAIT_WAKE: what ends the waiting state (spec/49_miscellaneous.md R203, D19). Log 22. -/
inductive WaitWake where
  /-- An accepted interrupt only (the default). -/
  | acceptedOnly
  /-- A masked maskable request too; execution then continues after the WAIT without an exception. -/
  | anyRequest
deriving DecidableEq, Repr

/-- STALE_FETCH: a fetch of a byte stored since the last serializing operation (spec/20_memory.md R66, D25). Log 25. -/
inductive StaleFetch where
  /-- The value before or after the store (the default). -/
  | oldOrNew
  /-- The fetch is refused. -/
  | refuse
deriving DecidableEq, Repr

/-- The named parameters of spec/00_scope.md R4, each with the values spec/92_eei_decisions.md gives it: a machine carries
its own, no step changes them, and a statement about every state holds for every value of them. -/
structure Params where
  /-- TRC_VECTOR: the dispatch-table entry of the trace trap (spec/60_exceptions.md R211, D5). Log 10. -/
  trcVector : Fin 128
  /-- INT_PRIORITY (spec/60_exceptions.md R217, D7). Log 9. -/
  intPriority : IntPriority
  /-- UNLISTED_ENCODING (D8, D14). Logs 18 and 19. -/
  unlistedEncoding : UnlistedEncoding
  /-- ADDR_WRAP (D2). Log 15. -/
  addrWrap : AddrWrap
  /-- PC_WRAP (D4). Log 14. -/
  pcWrap : PcWrap
  /-- ISP_WRAP (D11). Log 16. -/
  ispWrap : IspWrap
  /-- WORD_AT_TOP (D3). Log 13. -/
  wordAtTop : WordAtTop
  /-- RESERVED_REGION_ACCESS (D20, D22). Log 12. -/
  reservedRegionAccess : ReservedRegionAccess
  /-- ICU_VECTOR_RANGE (D12). Log 11. -/
  icuVectorRange : IcuVectorRange
  /-- WAIT_WAKE (D19). Log 22. -/
  waitWake : WaitWake
  /-- STALE_FETCH (D25). Log 25. -/
  staleFetch : StaleFetch
deriving DecidableEq, Repr

/-- The defaults of spec/00_scope.md R4; the parameter TRC_VECTOR = 9 is PRESUMED (log 10). -/
def defaultParams : Params :=
  { trcVector := 9
    intPriority := .iseNmiInt
    unlistedEncoding := .refuse
    addrWrap := .modulo
    pcWrap := .modulo
    ispWrap := .modulo
    wordAtTop := .refuse
    reservedRegionAccess := .refuse
    icuVectorRange := .refuse
    waitWake := .acceptedOnly
    staleFetch := .oldOrNew }

end Sys2Proof.Config
end

