-- ==== Sys2Proof/Syntax.lean ====
section
/-! DEFINITION. The instructions of the CR16A as data: one constructor of `Instr` for each mnemonic of
spec/opcode_table.json, its operand forms as the values of its operand types (spec/30_encoding.md R112). -/

namespace Sys2Proof

/-- A general register by its 4-bit code: 0 to 13 are R0 to R13, 14 is RA, 15 is SP (spec/10_state.md R10). -/
abbrev Reg := BitVec 4

/-- The register RA (spec/10_state.md R10). -/
abbrev Reg.ra : Reg := 14#4

/-- The register SP (spec/10_state.md R10). -/
abbrev Reg.sp : Reg := 15#4

/-- The first operand of a basic instruction (spec/30_encoding.md R84 to R86, R113). -/
inductive Src where
  /-- Register form (R84). -/
  | reg (rs : Reg)
  /-- Short immediate, sign-extended (R85); the pattern 10001 is not one. -/
  | short (imm : BitVec 5)
  /-- Medium immediate, the second instruction word (R86). -/
  | medium (imm : Word)
deriving DecidableEq, Repr

/-- The memory operand of a load or a store (spec/30_encoding.md R89 to R93). -/
inductive MemOp where
  /-- Relative, short displacement (R89); d4 and d0 are not both 1. -/
  | relShort (disp : BitVec 5) (base : Reg)
  /-- Relative, medium displacement (R90). -/
  | relMedium (disp : BitVec 18) (base : Reg)
  /-- Far-relative (R91); the pair register is not SP. -/
  | far (disp : BitVec 18) (pair : Reg)
  /-- Absolute (R92). -/
  | abs (addr : BitVec 18)
deriving DecidableEq, Repr

/-- The displacement of Bcond and BR (spec/30_encoding.md R95, R96); it is even. -/
inductive Disp where
  /-- Short form, 9 bits (R95). -/
  | short (d : BitVec 9)
  /-- Medium form, 17 bits (R96). -/
  | medium (d : BitVec 17)
deriving DecidableEq, Repr

/-- The condition codes (spec/10_state.md R30). -/
inductive Cond where
  | eq | ne | cs | cc | hi | ls | gt | le | fs | fc | lo | hs | lt | ge
deriving DecidableEq, Repr

/-- The processor registers LPR and SPR can name (spec/10_state.md R34). -/
inductive ProcReg where
  | psr
  | intbase
  | isp
deriving DecidableEq, Repr

/-- A word of one of the eight undefined patterns of Table A-2 with its free bits (spec/30_encoding.md R103):
`i` is bit 13, `f2` bits 8..5, `f1` bits 4..1, `b0` bit 0, `opLo` the free low bits of bits 12..9. -/
inductive UndPattern where
  /-- 00 0 1011 XXXX XXXX X: TBIT on a byte, immediate form. -/
  | row1 (f2 f1 : BitVec 4) (b0 : BitVec 1)
  /-- 00 X 1010 XXXX XXXX 1. -/
  | row2 (i : BitVec 1) (f2 f1 : BitVec 4)
  /-- 00 X 0010 XXXX XXXX X. -/
  | row3 (i : BitVec 1) (f2 f1 : BitVec 4) (b0 : BitVec 1)
  /-- 01 X 0010 XXXX XXXX 1. -/
  | row4 (i : BitVec 1) (f2 f1 : BitVec 4)
  /-- 01 1 0110 XXXX XXXX 0. -/
  | row5 (f2 f1 : BitVec 4)
  /-- 01 1 00XX XXXX XXXX 0. -/
  | row6 (opLo : BitVec 2) (f2 f1 : BitVec 4)
  /-- 01 1 101X XXXX XXXX 0. -/
  | row7 (opLo : BitVec 1) (f2 f1 : BitVec 4)
  /-- 01 0 1011 XXXX XXXX 1: TBIT on a byte, register form. -/
  | row8 (f2 f1 : BitVec 4)
deriving DecidableEq, Repr

/-- The instructions, one constructor for each mnemonic of spec/opcode_table.json. The source operand comes first and
the destination register last where the mnemonic has both. -/
inductive Instr where
  /-- NOP (R202). -/
  | nop
  /-- ADDB src, dest (R131). -/
  | addb (src : Src) (rd : Reg)
  /-- ADDW src, dest (R131). -/
  | addw (src : Src) (rd : Reg)
  /-- ADDUB src, dest (R132). -/
  | addub (src : Src) (rd : Reg)
  /-- ADDUW src, dest (R132). -/
  | adduw (src : Src) (rd : Reg)
  /-- MULB src, dest (R134). -/
  | mulb (src : Src) (rd : Reg)
  /-- MULW src, dest (R134). -/
  | mulw (src : Src) (rd : Reg)
  /-- ASHUB count, dest (R155). -/
  | ashub (count : Src) (rd : Reg)
  /-- ASHUW count, dest (R155). -/
  | ashuw (count : Src) (rd : Reg)
  /-- LSHB count, dest (R156). -/
  | lshb (count : Src) (rd : Reg)
  /-- LSHW count, dest (R156). -/
  | lshw (count : Src) (rd : Reg)
  /-- XORB src, dest (R147). -/
  | xorb (src : Src) (rd : Reg)
  /-- XORW src, dest (R147). -/
  | xorw (src : Src) (rd : Reg)
  /-- CMPB src, src2 (R140). -/
  | cmpb (src : Src) (rd : Reg)
  /-- CMPW src, src2 (R140). -/
  | cmpw (src : Src) (rd : Reg)
  /-- ANDB src, dest (R145). -/
  | andb (src : Src) (rd : Reg)
  /-- ANDW src, dest (R145). -/
  | andw (src : Src) (rd : Reg)
  /-- ADDCB src, dest (R133). -/
  | addcb (src : Src) (rd : Reg)
  /-- ADDCW src, dest (R133). -/
  | addcw (src : Src) (rd : Reg)
  /-- MOVB src, dest (R120). -/
  | movb (src : Src) (rd : Reg)
  /-- MOVW src, dest (R120). -/
  | movw (src : Src) (rd : Reg)
  /-- SUBCB src, dest (R136). -/
  | subcb (src : Src) (rd : Reg)
  /-- SUBCW src, dest (R136). -/
  | subcw (src : Src) (rd : Reg)
  /-- ORB src, dest (R146). -/
  | orb (src : Src) (rd : Reg)
  /-- ORW src, dest (R146). -/
  | orw (src : Src) (rd : Reg)
  /-- SUBB src, dest (R135). -/
  | subb (src : Src) (rd : Reg)
  /-- SUBW src, dest (R135). -/
  | subw (src : Src) (rd : Reg)
  /-- TBIT offset, src (R160). -/
  | tbit (offset : Src) (rs : Reg)
  /-- MOVXB src, dest (R121). -/
  | movxb (rs rd : Reg)
  /-- MOVZB src, dest (R122). -/
  | movzb (rs rd : Reg)
  /-- SEQ dest (R148). -/
  | seq (rd : Reg)
  /-- SNE dest (R148). -/
  | sne (rd : Reg)
  /-- SCS dest (R148). -/
  | scs (rd : Reg)
  /-- SCC dest (R148). -/
  | scc (rd : Reg)
  /-- SHI dest (R148). -/
  | shi (rd : Reg)
  /-- SLS dest (R148). -/
  | sls (rd : Reg)
  /-- SGT dest (R148). -/
  | sgt (rd : Reg)
  /-- SLE dest (R148). -/
  | sle (rd : Reg)
  /-- SFS dest (R148). -/
  | sfs (rd : Reg)
  /-- SFC dest (R148). -/
  | sfc (rd : Reg)
  /-- SLO dest (R148). -/
  | slo (rd : Reg)
  /-- SHS dest (R148). -/
  | shs (rd : Reg)
  /-- SLT dest (R148). -/
  | slt (rd : Reg)
  /-- SGE dest (R148). -/
  | sge (rd : Reg)
  /-- LPR src, dest (R165). -/
  | lpr (rs : Reg) (dest : ProcReg)
  /-- SPR src, dest (R166). -/
  | spr (src : ProcReg) (rd : Reg)
  /-- RETX (R178). -/
  | retx
  /-- EXCP vector (R174). -/
  | excp (vector : BitVec 4)
  /-- DI (R200). -/
  | di
  /-- EI (R201). -/
  | ei
  /-- WAIT (R203). -/
  | wait
  /-- BEQ dest (R170). -/
  | beq (d : Disp)
  /-- BNE dest (R170). -/
  | bne (d : Disp)
  /-- BCS dest (R170). -/
  | bcs (d : Disp)
  /-- BCC dest (R170). -/
  | bcc (d : Disp)
  /-- BHI dest (R170). -/
  | bhi (d : Disp)
  /-- BLS dest (R170). -/
  | bls (d : Disp)
  /-- BGT dest (R170). -/
  | bgt (d : Disp)
  /-- BLE dest (R170). -/
  | ble (d : Disp)
  /-- BFS dest (R170). -/
  | bfs (d : Disp)
  /-- BFC dest (R170). -/
  | bfc (d : Disp)
  /-- BLO dest (R170). -/
  | blo (d : Disp)
  /-- BHS dest (R170). -/
  | bhs (d : Disp)
  /-- BLT dest (R170). -/
  | blt (d : Disp)
  /-- BGE dest (R170). -/
  | bge (d : Disp)
  /-- BR dest (R172). -/
  | br (d : Disp)
  /-- BAL link, dest (R173). -/
  | bal (link : Reg) (d : BitVec 17)
  /-- JEQ dest (R175). -/
  | jeq (target : Reg)
  /-- JNE dest (R175). -/
  | jne (target : Reg)
  /-- JCS dest (R175). -/
  | jcs (target : Reg)
  /-- JCC dest (R175). -/
  | jcc (target : Reg)
  /-- JHI dest (R175). -/
  | jhi (target : Reg)
  /-- JLS dest (R175). -/
  | jls (target : Reg)
  /-- JGT dest (R175). -/
  | jgt (target : Reg)
  /-- JLE dest (R175). -/
  | jle (target : Reg)
  /-- JFS dest (R175). -/
  | jfs (target : Reg)
  /-- JFC dest (R175). -/
  | jfc (target : Reg)
  /-- JLO dest (R175). -/
  | jlo (target : Reg)
  /-- JHS dest (R175). -/
  | jhs (target : Reg)
  /-- JLT dest (R175). -/
  | jlt (target : Reg)
  /-- JGE dest (R175). -/
  | jge (target : Reg)
  /-- JUMP dest (R176). -/
  | jump (target : Reg)
  /-- JAL link, dest (R177). -/
  | jal (link target : Reg)
  /-- LOADB src, dest (R190). -/
  | loadb (m : MemOp) (rd : Reg)
  /-- LOADW src, dest (R190). -/
  | loadw (m : MemOp) (rd : Reg)
  /-- STORB src, dest (R191). -/
  | storb (rs : Reg) (m : MemOp)
  /-- STORW src, dest (R191). -/
  | storw (rs : Reg) (m : MemOp)
  /-- A word of Table A-2 (R103). -/
  | und (p : UndPattern)
deriving DecidableEq, Repr

end Sys2Proof
end

