-- ==== Sys2Proof/Decode.lean ====
section
/-! DEFINITION. Lengths, decoding and encoding (spec/30_encoding.md). An instruction word is read as the six fields of
R82: bits 15..14, bit 13 (`i`), bits 12..9 (`op`), bits 8..5 (`f2`), bits 4..1 (`f1`), bit 0 (`b0`). -/

namespace Sys2Proof

/-! ## Lengths (R100) -/

/-- The length in bytes of an instruction with a basic source operand (spec/30_encoding.md R113). -/
def Src.len : Src → Nat
  | .reg _ => 2
  | .short _ => 2
  | .medium _ => 4

/-- The length in bytes of a load or a store (spec/30_encoding.md R89 to R92). -/
def MemOp.len : MemOp → Nat
  | .relShort _ _ => 2
  | .relMedium _ _ => 4
  | .far _ _ => 4
  | .abs _ => 4

/-- The length in bytes of a Bcond or a BR (spec/30_encoding.md R95, R96). -/
def Disp.len : Disp → Nat
  | .short _ => 2
  | .medium _ => 4

/-- The length in bytes of an instruction (spec/30_encoding.md R100). -/
def Instr.len : Instr → Nat
  | .nop => 2
  | .addb x _ => x.len
  | .addw x _ => x.len
  | .addub x _ => x.len
  | .adduw x _ => x.len
  | .mulb x _ => x.len
  | .mulw x _ => x.len
  | .ashub x _ => x.len
  | .ashuw x _ => x.len
  | .lshb x _ => x.len
  | .lshw x _ => x.len
  | .xorb x _ => x.len
  | .xorw x _ => x.len
  | .cmpb x _ => x.len
  | .cmpw x _ => x.len
  | .andb x _ => x.len
  | .andw x _ => x.len
  | .addcb x _ => x.len
  | .addcw x _ => x.len
  | .movb x _ => x.len
  | .movw x _ => x.len
  | .subcb x _ => x.len
  | .subcw x _ => x.len
  | .orb x _ => x.len
  | .orw x _ => x.len
  | .subb x _ => x.len
  | .subw x _ => x.len
  | .tbit x _ => x.len
  | .movxb _ _ => 2
  | .movzb _ _ => 2
  | .seq _ => 2
  | .sne _ => 2
  | .scs _ => 2
  | .scc _ => 2
  | .shi _ => 2
  | .sls _ => 2
  | .sgt _ => 2
  | .sle _ => 2
  | .sfs _ => 2
  | .sfc _ => 2
  | .slo _ => 2
  | .shs _ => 2
  | .slt _ => 2
  | .sge _ => 2
  | .lpr _ _ => 2
  | .spr _ _ => 2
  | .retx => 2
  | .excp _ => 2
  | .di => 2
  | .ei => 2
  | .wait => 2
  | .beq d => d.len
  | .bne d => d.len
  | .bcs d => d.len
  | .bcc d => d.len
  | .bhi d => d.len
  | .bls d => d.len
  | .bgt d => d.len
  | .ble d => d.len
  | .bfs d => d.len
  | .bfc d => d.len
  | .blo d => d.len
  | .bhs d => d.len
  | .blt d => d.len
  | .bge d => d.len
  | .br d => d.len
  | .bal _ _ => 4
  | .jeq _ => 2
  | .jne _ => 2
  | .jcs _ => 2
  | .jcc _ => 2
  | .jhi _ => 2
  | .jls _ => 2
  | .jgt _ => 2
  | .jle _ => 2
  | .jfs _ => 2
  | .jfc _ => 2
  | .jlo _ => 2
  | .jhs _ => 2
  | .jlt _ => 2
  | .jge _ => 2
  | .jump _ => 2
  | .jal _ _ => 2
  | .loadb m _ => m.len
  | .loadw m _ => m.len
  | .storb _ m => m.len
  | .storw _ m => m.len
  | .und _ => 2

/-! ## The fields of the first word (R82) -/

/-- Bits 15..14 of an instruction word. -/
def topOf (w : Word) : BitVec 2 := w.extractLsb' 14 2

/-- Bit 13 of an instruction word, the length bit of most formats. -/
def iOf (w : Word) : BitVec 1 := w.extractLsb' 13 1

/-- Bits 12..9 of an instruction word. -/
def opOf (w : Word) : BitVec 4 := w.extractLsb' 9 4

/-- Bits 8..5 of an instruction word, operand 2. -/
def f2Of (w : Word) : BitVec 4 := w.extractLsb' 5 4

/-- Bits 4..1 of an instruction word, operand 1. -/
def f1Of (w : Word) : BitVec 4 := w.extractLsb' 1 4

/-- Bit 0 of an instruction word. -/
def b0Of (w : Word) : BitVec 1 := w.extractLsb' 0 1

/-- The word with the given fields. -/
def pack (top : BitVec 2) (i : BitVec 1) (op f2 f1 : BitVec 4) (b0 : BitVec 1) : Word :=
  top ++ i ++ op ++ f2 ++ f1 ++ b0

/-! ## The codes of the operands -/

/-- The 4-bit code of a condition (spec/10_state.md R30). -/
def Cond.code : Cond → BitVec 4
  | .eq => 0b0000#4
  | .ne => 0b0001#4
  | .cs => 0b0010#4
  | .cc => 0b0011#4
  | .hi => 0b0100#4
  | .ls => 0b0101#4
  | .gt => 0b0110#4
  | .le => 0b0111#4
  | .fs => 0b1000#4
  | .fc => 0b1001#4
  | .lo => 0b1010#4
  | .hs => 0b1011#4
  | .lt => 0b1100#4
  | .ge => 0b1101#4

/-- The condition of a 4-bit code; 1110 and 1111 are no conditions (spec/10_state.md R30). -/
def condOf (c : BitVec 4) : Option Cond :=
  match c with
  | 0b0000#4 => some .eq
  | 0b0001#4 => some .ne
  | 0b0010#4 => some .cs
  | 0b0011#4 => some .cc
  | 0b0100#4 => some .hi
  | 0b0101#4 => some .ls
  | 0b0110#4 => some .gt
  | 0b0111#4 => some .le
  | 0b1000#4 => some .fs
  | 0b1001#4 => some .fc
  | 0b1010#4 => some .lo
  | 0b1011#4 => some .hs
  | 0b1100#4 => some .lt
  | 0b1101#4 => some .ge
  | _ => none

/-- The code of a processor register (spec/10_state.md R34). -/
def ProcReg.code : ProcReg → BitVec 4
  | .psr => 0b0001#4
  | .intbase => 0b0011#4
  | .isp => 0b1011#4

/-- The processor register of a 4-bit code; no other code is assigned (spec/10_state.md R34). -/
def procRegOf (c : BitVec 4) : Option ProcReg :=
  match c with
  | 0b0001#4 => some .psr
  | 0b0011#4 => some .intbase
  | 0b1011#4 => some .isp
  | _ => none

/-! ## Decoding -/

/-- Why a sequence of bytes is no instruction. All but `truncated` are the unlisted encodings of R108. -/
inductive Reject where
  /-- A condition field of 1111, or of 1110 in Scond (R108, item 1). -/
  | unlistedCondition
  /-- A processor-register field other than 0001, 0011, 1011 (R108, item 2). -/
  | unlistedProcReg
  /-- Bits 15..14 = 00, op 1010, bit 0 = 0 and bits 3..1 other than 111 (R108, item 3). -/
  | unlistedLowNibble
  /-- RETX, EXCP, DI, EI, WAIT with other values in their fixed fields (R106; R108, item 4). -/
  | unlistedFixedField
  /-- A medium Bcond, BR or BAL with an odd displacement (R104; R108, item 5). -/
  | oddDisplacement
  /-- Fewer bytes than the instruction has. -/
  | truncated
deriving DecidableEq, Repr

/-- A basic instruction with operation width bit `i` (R83). The operation codes 0010, 1010 and 1011 with `i` = 0 never
reach this function (R100). -/
def basicInstr (i : BitVec 1) (op : BitVec 4) (src : Src) (rd : Reg) : Option Instr :=
  match i, op with
  | 0#1, 0b0000#4 => some (.addb src rd)
  | 1#1, 0b0000#4 => some (.addw src rd)
  | 0#1, 0b0001#4 => some (.addub src rd)
  | 1#1, 0b0001#4 => some (.adduw src rd)
  | 0#1, 0b0011#4 => some (.mulb src rd)
  | 1#1, 0b0011#4 => some (.mulw src rd)
  | 0#1, 0b0100#4 => some (.ashub src rd)
  | 1#1, 0b0100#4 => some (.ashuw src rd)
  | 0#1, 0b0101#4 => some (.lshb src rd)
  | 1#1, 0b0101#4 => some (.lshw src rd)
  | 0#1, 0b0110#4 => some (.xorb src rd)
  | 1#1, 0b0110#4 => some (.xorw src rd)
  | 0#1, 0b0111#4 => some (.cmpb src rd)
  | 1#1, 0b0111#4 => some (.cmpw src rd)
  | 0#1, 0b1000#4 => some (.andb src rd)
  | 1#1, 0b1000#4 => some (.andw src rd)
  | 0#1, 0b1001#4 => some (.addcb src rd)
  | 1#1, 0b1001#4 => some (.addcw src rd)
  | 1#1, 0b1011#4 => some (.tbit src rd)
  | 0#1, 0b1100#4 => some (.movb src rd)
  | 1#1, 0b1100#4 => some (.movw src rd)
  | 0#1, 0b1101#4 => some (.subcb src rd)
  | 1#1, 0b1101#4 => some (.subcw src rd)
  | 0#1, 0b1110#4 => some (.orb src rd)
  | 1#1, 0b1110#4 => some (.orw src rd)
  | 0#1, 0b1111#4 => some (.subb src rd)
  | 1#1, 0b1111#4 => some (.subw src rd)
  | _, _ => none

/-- The Bcond of a condition (R95, R96). -/
def branchOf (d : Disp) : Cond → Instr
  | .eq => .beq d
  | .ne => .bne d
  | .cs => .bcs d
  | .cc => .bcc d
  | .hi => .bhi d
  | .ls => .bls d
  | .gt => .bgt d
  | .le => .ble d
  | .fs => .bfs d
  | .fc => .bfc d
  | .lo => .blo d
  | .hs => .bhs d
  | .lt => .blt d
  | .ge => .bge d

/-- The Jcond of a condition (R98). -/
def jumpOf (target : Reg) : Cond → Instr
  | .eq => .jeq target
  | .ne => .jne target
  | .cs => .jcs target
  | .cc => .jcc target
  | .hi => .jhi target
  | .ls => .jls target
  | .gt => .jgt target
  | .le => .jle target
  | .fs => .jfs target
  | .fc => .jfc target
  | .lo => .jlo target
  | .hs => .jhs target
  | .lt => .jlt target
  | .ge => .jge target

/-- The Scond of a condition (R87). -/
def scondOf (rd : Reg) : Cond → Instr
  | .eq => .seq rd
  | .ne => .sne rd
  | .cs => .scs rd
  | .cc => .scc rd
  | .hi => .shi rd
  | .ls => .sls rd
  | .gt => .sgt rd
  | .le => .sle rd
  | .fs => .sfs rd
  | .fc => .sfc rd
  | .lo => .slo rd
  | .hs => .shs rd
  | .lt => .slt rd
  | .ge => .sge rd

/-- A Bcond or a BR: the condition field 1110 is BR, 1111 is unlisted (R95, R96, R108). -/
def branchInstr (cond : BitVec 4) (d : Disp) : Except Reject Instr :=
  if cond = 0b1110#4 then .ok (.br d)
  else match condOf cond with
    | some c => .ok (branchOf d c)
    | none => .error .unlistedCondition

/-- A Jcond or a JUMP: the condition field 1110 is JUMP, 1111 is unlisted (R98, R108). -/
def jumpInstr (cond : BitVec 4) (target : Reg) : Except Reject Instr :=
  if cond = 0b1110#4 then .ok (.jump target)
  else match condOf cond with
    | some c => .ok (jumpOf target c)
    | none => .error .unlistedCondition

/-- The memory operand of a load or a store whose second word is `w2` (R89 to R93). -/
def memOpOf (op f1 : BitVec 4) (b0 : BitVec 1) (w2 : Word) : MemOp :=
  if b0 = 1#1 ∧ op.extractLsb' 3 1 = 1#1 then
    if op.extractLsb' 2 1 = 0#1 then .relMedium (op.extractLsb' 0 2 ++ w2) f1
    else if f1 = 0b1111#4 then .abs (op.extractLsb' 0 2 ++ w2)
    else .far (op.extractLsb' 0 2 ++ w2) f1
  else .relShort (op ++ b0) f1

/-- Bits 15..14 = 00: the immediate formats, the medium branches and BAL (R85, R86, R96, R97, R100, R103). -/
def decode00 (i : BitVec 1) (op f2 f1 : BitVec 4) (b0 : BitVec 1) (w2 : Word) : Except Reject Instr :=
  if op = 0b1010#4 then
    if b0 = 1#1 then .ok (.und (.row2 i f2 f1))
    else if f1.extractLsb' 0 3 ≠ 0b111#3 then .error .unlistedLowNibble
    else if i = 0#1 ∧ f2 = 0b1111#4 then .error .unlistedCondition
    else if w2.getLsbD 0 then .error .oddDisplacement
    else if i = 0#1 then branchInstr f2 (.medium (f1.extractLsb' 3 1 ++ w2))
    else .ok (.bal f2 (f1.extractLsb' 3 1 ++ w2))
  else if op = 0b0010#4 then .ok (.und (.row3 i f2 f1 b0))
  else
    let imm := f1 ++ b0
    let src := if imm = 0b10001#5 then Src.medium w2 else Src.short imm
    match basicInstr i op src f2 with
    | some ins => .ok ins
    | none => .ok (.und (.row1 f2 f1 b0))

/-- Bits 15..14 = 01, bit 0 = 1: the register format and the jumps (R84, R98, R99, R100, R103). -/
def decode01Odd (i : BitVec 1) (op f2 f1 : BitVec 4) : Except Reject Instr :=
  if op = 0b1010#4 then
    if i = 0#1 then jumpInstr f2 f1 else .ok (.jal f2 f1)
  else if op = 0b0010#4 then .ok (.und (.row4 i f2 f1))
  else match basicInstr i op (.reg f1) f2 with
    | some ins => .ok ins
    | none => .ok (.und (.row8 f2 f1))

/-- The special format, bits 15..13 = 011 and bit 0 = 0 (R87, R100, R103, R106). -/
def decodeSpecial (op f2 f1 : BitVec 4) : Except Reject Instr :=
  match op with
  | 0b0100#4 => .ok (.movxb f1 f2)
  | 0b0101#4 => .ok (.movzb f1 f2)
  | 0b0110#4 => .ok (.und (.row5 f2 f1))
  | 0b0111#4 => match condOf f2 with
    | some c => .ok (scondOf f1 c)
    | none => .error .unlistedCondition
  | 0b1000#4 => match procRegOf f2 with
    | some p => .ok (.lpr f1 p)
    | none => .error .unlistedProcReg
  | 0b1001#4 => match procRegOf f2 with
    | some p => .ok (.spr p f1)
    | none => .error .unlistedProcReg
  | 0b1010#4 => .ok (.und (.row7 0#1 f2 f1))
  | 0b1011#4 => .ok (.und (.row7 1#1 f2 f1))
  | 0b1100#4 => if f2 = 0b1111#4 ∧ f1 = 0b1111#4 then .ok .retx else .error .unlistedFixedField
  | 0b1101#4 => if f2 = 0b1111#4 then .ok (.excp f1) else .error .unlistedFixedField
  | 0b1110#4 =>
    if f1 ≠ 0b1111#4 then .error .unlistedFixedField
    else if f2 = 0b1110#4 then .ok .di
    else if f2 = 0b1111#4 then .ok .ei
    else .error .unlistedFixedField
  | 0b1111#4 => if f2 = 0b1111#4 ∧ f1 = 0b1111#4 then .ok .wait else .error .unlistedFixedField
  | _ => .ok (.und (.row6 (op.extractLsb' 0 2) f2 f1))

/-- Bits 15..14 = 01, bit 0 = 0: the short branches and the special format (R87, R95, R100). -/
def decode01Even (i : BitVec 1) (op f2 f1 : BitVec 4) : Except Reject Instr :=
  if i = 0#1 then branchInstr f2 (.short (op ++ f1 ++ 0#1)) else decodeSpecial op f2 f1

/-- The classification of R100 over the fields of the first word; `w2` is the second word and is not looked at where the
instruction has one word only. -/
def decodeFields (top : BitVec 2) (i : BitVec 1) (op f2 f1 : BitVec 4) (b0 : BitVec 1) (w2 : Word) :
    Except Reject Instr :=
  match top with
  | 0b00#2 => decode00 i op f2 f1 b0 w2
  | 0b01#2 => if b0 = 1#1 then decode01Odd i op f2 f1 else decode01Even i op f2 f1
  | 0b10#2 =>
    if i = 0#1 then .ok (.loadb (memOpOf op f1 b0 w2) f2) else .ok (.loadw (memOpOf op f1 b0 w2) f2)
  | _ =>
    if i = 0#1 then .ok (.storb f2 (memOpOf op f1 b0 w2)) else .ok (.storw f2 (memOpOf op f1 b0 w2))

/-- Decoding of an instruction's words. The word 0x0200 is NOP's own row of the opcode table, which stands before
ADDUB's (R107). -/
def decodeWords (w1 w2 : Word) : Except Reject Instr :=
  if w1 = 0x0200#16 then .ok .nop
  else decodeFields (topOf w1) (iOf w1) (opOf w1) (f2Of w1) (f1Of w1) (b0Of w1) w2

/-- Whether the instruction that begins with the word `w1` has a second word (R100): the medium immediates, the medium
branches (with any condition, the unlisted 1111 too) and BAL, and the three long load and store formats. The undefined
patterns have one word only. -/
def isLong (w1 : Word) : Bool :=
  match topOf w1 with
  | 0b00#2 =>
    if opOf w1 = 0b1010#4 then
      b0Of w1 = 0#1 ∧ (f1Of w1).extractLsb' 0 3 = 0b111#3
    else if opOf w1 = 0b0010#4 ∨ (opOf w1 = 0b1011#4 ∧ iOf w1 = 0#1) then false
    else f1Of w1 ++ b0Of w1 = 0b10001#5
  | 0b01#2 => false
  | _ => b0Of w1 = 1#1 ∧ (opOf w1).extractLsb' 3 1 = 1#1

/-! ## Unlisted encodings with their fixed fields ignored (R108, D8) -/

/-- The first word whose fixed fields are those of R112, the other fields kept: the low nibble of the medium branches and of
BAL, the operand fields of RETX, EXCP, DI, EI and WAIT, where DI and EI differ in bit 5 only (R106). A condition or a
processor-register code is no fixed field. -/
def listedFirst (w : Word) : Word :=
  let top := topOf w
  let i := iOf w
  let op := opOf w
  let f2 := f2Of w
  let f1 := f1Of w
  if b0Of w = 1#1 then w
  else if top = 0b00#2 ∧ op = 0b1010#4 then pack top i op f2 (f1.extractLsb' 3 1 ++ 0b111#3) 0#1
  else if top = 0b01#2 ∧ i = 1#1 then
    match op with
    | 0b1100#4 => pack top i op 0b1111#4 0b1111#4 0#1
    | 0b1101#4 => pack top i op 0b1111#4 f1 0#1
    | 0b1110#4 => pack top i op (0b111#3 ++ f2.extractLsb' 0 1) 0b1111#4 0#1
    | 0b1111#4 => pack top i op 0b1111#4 0b1111#4 0#1
    | _ => w
  else w

/-- The second word whose displacement bit 0 is 0 where the first word is a medium branch or BAL (R104). -/
def listedSecond (w1 w2 : Word) : Word :=
  if topOf w1 = 0b00#2 ∧ opOf w1 = 0b1010#4 ∧ b0Of w1 = 0#1 then w2.extractLsb' 1 15 ++ 0#1 else w2

/-- The word whose low byte is `lo` and whose high byte is `hi` (spec/20_memory.md R57). -/
def wordOfBytes (lo hi : Byte) : Word := hi ++ lo

/-- The two bytes of a word, the low one first (spec/20_memory.md R57). -/
def bytesOfWord (w : Word) : List Byte := [w.extractLsb' 0 8, w.extractLsb' 8 8]

/-- Decoding of bytes: the instruction they begin with and the bytes after it (R81; spec/20_memory.md R57; log 17). -/
def decode : List Byte → Except Reject (Instr × List Byte)
  | a :: b :: rest =>
    let w1 := wordOfBytes a b
    if isLong w1 then
      match rest with
      | c :: d :: rest' => (decodeWords w1 (wordOfBytes c d)).map fun ins => (ins, rest')
      | _ => .error .truncated
    else (decodeWords w1 0#16).map fun ins => (ins, rest)
  | _ => .error .truncated

/-- The decoder on an instruction given as the opcode table numbers its bits: the first word is bits 15..0, the second
bits 31..16, and bits from `nbits` up are 0. -/
def decodeTableWord (nbits w : Nat) : Option Instr :=
  let v : BitVec 32 := BitVec.ofNat 32 (w % 2 ^ nbits)
  match decode (bytesOfWord (v.extractLsb' 0 16) ++ bytesOfWord (v.extractLsb' 16 16)) with
  | .ok (ins, _) => some ins
  | .error _ => none

/-! ## Encoding -/

/-- The register and immediate formats of a basic instruction (R84 to R86). -/
def encodeBasic (i : BitVec 1) (op : BitVec 4) (src : Src) (rd : Reg) : List Word :=
  match src with
  | .reg rs => [pack 0b01#2 i op rd rs 1#1]
  | .short imm => [pack 0b00#2 i op rd (imm.extractLsb' 1 4) (imm.extractLsb' 0 1)]
  | .medium imm => [pack 0b00#2 i op rd 0b1000#4 1#1, imm]

/-- The special format (R87). -/
def encodeSpecial (op f2 f1 : BitVec 4) : List Word := [pack 0b01#2 1#1 op f2 f1 0#1]

/-- The formats of Bcond and BR (R95, R96). -/
def encodeBranch (cond : BitVec 4) (d : Disp) : List Word :=
  match d with
  | .short d => [pack 0b01#2 0#1 (d.extractLsb' 5 4) cond (d.extractLsb' 1 4) (d.extractLsb' 0 1)]
  | .medium d => [pack 0b00#2 0#1 0b1010#4 cond (d.extractLsb' 16 1 ++ 0b111#3) 0#1, d.extractLsb' 0 16]

/-- The format of Jcond and JUMP (R98). -/
def encodeJump (cond : BitVec 4) (target : Reg) : List Word := [pack 0b01#2 0#1 0b1010#4 cond target 1#1]

/-- The load and store formats (R88 to R92). -/
def encodeMem (top : BitVec 2) (i : BitVec 1) (r : Reg) (m : MemOp) : List Word :=
  match m with
  | .relShort disp base => [pack top i (disp.extractLsb' 1 4) r base (disp.extractLsb' 0 1)]
  | .relMedium disp base => [pack top i (0b10#2 ++ disp.extractLsb' 16 2) r base 1#1, disp.extractLsb' 0 16]
  | .far disp pair => [pack top i (0b11#2 ++ disp.extractLsb' 16 2) r pair 1#1, disp.extractLsb' 0 16]
  | .abs addr => [pack top i (0b11#2 ++ addr.extractLsb' 16 2) r 0b1111#4 1#1, addr.extractLsb' 0 16]

/-- The undefined patterns of Table A-2 (R103). -/
def encodeUnd : UndPattern → Word
  | .row1 f2 f1 b0 => pack 0b00#2 0#1 0b1011#4 f2 f1 b0
  | .row2 i f2 f1 => pack 0b00#2 i 0b1010#4 f2 f1 1#1
  | .row3 i f2 f1 b0 => pack 0b00#2 i 0b0010#4 f2 f1 b0
  | .row4 i f2 f1 => pack 0b01#2 i 0b0010#4 f2 f1 1#1
  | .row5 f2 f1 => pack 0b01#2 1#1 0b0110#4 f2 f1 0#1
  | .row6 opLo f2 f1 => pack 0b01#2 1#1 (0b00#2 ++ opLo) f2 f1 0#1
  | .row7 opLo f2 f1 => pack 0b01#2 1#1 (0b101#3 ++ opLo) f2 f1 0#1
  | .row8 f2 f1 => pack 0b01#2 0#1 0b1011#4 f2 f1 1#1

/-- The instruction words of an instruction, first word first (R112). -/
def encodeWords : Instr → List Word
  | .nop => [0x0200#16]
  | .addb src rd => encodeBasic 0#1 0b0000#4 src rd
  | .addw src rd => encodeBasic 1#1 0b0000#4 src rd
  | .addub src rd => encodeBasic 0#1 0b0001#4 src rd
  | .adduw src rd => encodeBasic 1#1 0b0001#4 src rd
  | .mulb src rd => encodeBasic 0#1 0b0011#4 src rd
  | .mulw src rd => encodeBasic 1#1 0b0011#4 src rd
  | .ashub src rd => encodeBasic 0#1 0b0100#4 src rd
  | .ashuw src rd => encodeBasic 1#1 0b0100#4 src rd
  | .lshb src rd => encodeBasic 0#1 0b0101#4 src rd
  | .lshw src rd => encodeBasic 1#1 0b0101#4 src rd
  | .xorb src rd => encodeBasic 0#1 0b0110#4 src rd
  | .xorw src rd => encodeBasic 1#1 0b0110#4 src rd
  | .cmpb src rd => encodeBasic 0#1 0b0111#4 src rd
  | .cmpw src rd => encodeBasic 1#1 0b0111#4 src rd
  | .andb src rd => encodeBasic 0#1 0b1000#4 src rd
  | .andw src rd => encodeBasic 1#1 0b1000#4 src rd
  | .addcb src rd => encodeBasic 0#1 0b1001#4 src rd
  | .addcw src rd => encodeBasic 1#1 0b1001#4 src rd
  | .movb src rd => encodeBasic 0#1 0b1100#4 src rd
  | .movw src rd => encodeBasic 1#1 0b1100#4 src rd
  | .subcb src rd => encodeBasic 0#1 0b1101#4 src rd
  | .subcw src rd => encodeBasic 1#1 0b1101#4 src rd
  | .orb src rd => encodeBasic 0#1 0b1110#4 src rd
  | .orw src rd => encodeBasic 1#1 0b1110#4 src rd
  | .subb src rd => encodeBasic 0#1 0b1111#4 src rd
  | .subw src rd => encodeBasic 1#1 0b1111#4 src rd
  | .tbit offset rs => encodeBasic 1#1 0b1011#4 offset rs
  | .movxb rs rd => encodeSpecial 0b0100#4 rd rs
  | .movzb rs rd => encodeSpecial 0b0101#4 rd rs
  | .seq rd => encodeSpecial 0b0111#4 Cond.eq.code rd
  | .sne rd => encodeSpecial 0b0111#4 Cond.ne.code rd
  | .scs rd => encodeSpecial 0b0111#4 Cond.cs.code rd
  | .scc rd => encodeSpecial 0b0111#4 Cond.cc.code rd
  | .shi rd => encodeSpecial 0b0111#4 Cond.hi.code rd
  | .sls rd => encodeSpecial 0b0111#4 Cond.ls.code rd
  | .sgt rd => encodeSpecial 0b0111#4 Cond.gt.code rd
  | .sle rd => encodeSpecial 0b0111#4 Cond.le.code rd
  | .sfs rd => encodeSpecial 0b0111#4 Cond.fs.code rd
  | .sfc rd => encodeSpecial 0b0111#4 Cond.fc.code rd
  | .slo rd => encodeSpecial 0b0111#4 Cond.lo.code rd
  | .shs rd => encodeSpecial 0b0111#4 Cond.hs.code rd
  | .slt rd => encodeSpecial 0b0111#4 Cond.lt.code rd
  | .sge rd => encodeSpecial 0b0111#4 Cond.ge.code rd
  | .lpr rs dest => encodeSpecial 0b1000#4 dest.code rs
  | .spr src rd => encodeSpecial 0b1001#4 src.code rd
  | .retx => encodeSpecial 0b1100#4 0b1111#4 0b1111#4
  | .excp vector => encodeSpecial 0b1101#4 0b1111#4 vector
  | .di => encodeSpecial 0b1110#4 0b1110#4 0b1111#4
  | .ei => encodeSpecial 0b1110#4 0b1111#4 0b1111#4
  | .wait => encodeSpecial 0b1111#4 0b1111#4 0b1111#4
  | .beq d => encodeBranch Cond.eq.code d
  | .bne d => encodeBranch Cond.ne.code d
  | .bcs d => encodeBranch Cond.cs.code d
  | .bcc d => encodeBranch Cond.cc.code d
  | .bhi d => encodeBranch Cond.hi.code d
  | .bls d => encodeBranch Cond.ls.code d
  | .bgt d => encodeBranch Cond.gt.code d
  | .ble d => encodeBranch Cond.le.code d
  | .bfs d => encodeBranch Cond.fs.code d
  | .bfc d => encodeBranch Cond.fc.code d
  | .blo d => encodeBranch Cond.lo.code d
  | .bhs d => encodeBranch Cond.hs.code d
  | .blt d => encodeBranch Cond.lt.code d
  | .bge d => encodeBranch Cond.ge.code d
  | .br d => encodeBranch 0b1110#4 d
  | .bal link d => [pack 0b00#2 1#1 0b1010#4 link (d.extractLsb' 16 1 ++ 0b111#3) 0#1, d.extractLsb' 0 16]
  | .jeq target => encodeJump Cond.eq.code target
  | .jne target => encodeJump Cond.ne.code target
  | .jcs target => encodeJump Cond.cs.code target
  | .jcc target => encodeJump Cond.cc.code target
  | .jhi target => encodeJump Cond.hi.code target
  | .jls target => encodeJump Cond.ls.code target
  | .jgt target => encodeJump Cond.gt.code target
  | .jle target => encodeJump Cond.le.code target
  | .jfs target => encodeJump Cond.fs.code target
  | .jfc target => encodeJump Cond.fc.code target
  | .jlo target => encodeJump Cond.lo.code target
  | .jhs target => encodeJump Cond.hs.code target
  | .jlt target => encodeJump Cond.lt.code target
  | .jge target => encodeJump Cond.ge.code target
  | .jump target => encodeJump 0b1110#4 target
  | .jal link target => [pack 0b01#2 1#1 0b1010#4 link target 1#1]
  | .loadb m rd => encodeMem 0b10#2 0#1 rd m
  | .loadw m rd => encodeMem 0b10#2 1#1 rd m
  | .storb rs m => encodeMem 0b11#2 0#1 rs m
  | .storw rs m => encodeMem 0b11#2 1#1 rs m
  | .und p => [encodeUnd p]

/-- The bytes of an instruction as they lie in memory, lowest address first (R81; spec/20_memory.md R57). -/
def encode (ins : Instr) : List Byte := (encodeWords ins).flatMap bytesOfWord

end Sys2Proof
end

