-- ==== Sys2Proof/Machine/State.lean ====
section
/-! DEFINITION. The state of the CR16A as plain data (spec/10_state.md), the reasons a step can stop, and the state
after reset (spec/10_state.md R39, spec/70_reset_and_hazards.md R260). -/

namespace Sys2Proof.Machine

open Sys2Proof

/-- The processor status register: the nine named bits of R22. Bits 3, 4 and 8 are constant 0 and bits 15..12 are
reserved, so none of them is stored (R31). -/
structure Psr where
  /-- Carry, bit 0 (R23). -/
  c : Bool
  /-- Trace, bit 1 (R24). -/
  t : Bool
  /-- Low, bit 2 (R25). -/
  l : Bool
  /-- Flag, bit 5 (R26). -/
  f : Bool
  /-- Zero, bit 6 (R27). -/
  z : Bool
  /-- Negative, bit 7 (R27). -/
  n : Bool
  /-- Local maskable-interrupt enable, bit 9 (R28). -/
  e : Bool
  /-- Trace-trap pending, bit 10 (R29). -/
  p : Bool
  /-- Global maskable-interrupt enable, bit 11 (R28). -/
  i : Bool
deriving DecidableEq, Repr

/-- What the environment presents at one instruction boundary (spec/60_exceptions.md R216). -/
structure Boundary where
  /-- The reset signal. -/
  reset : Bool
  /-- The In-System-Emulator interrupt request. -/
  ise : Bool
  /-- The non-maskable interrupt request. -/
  nmi : Bool
  /-- The maskable interrupt request. -/
  int : Bool
  /-- The vector byte the ICU returns if the maskable request is acknowledged (R221). -/
  icu : Byte
deriving DecidableEq, Repr

/-- A boundary at which the environment requests nothing. -/
def Boundary.quiet : Boundary := { reset := false, ise := false, nmi := false, int := false, icu := 0#8 }

/-- Memory: the bytes that differ from what an unlisted address reads as, addresses strictly rising (`Memory.wf`). -/
abbrev Memory := List Host.Cell

/-- The state of the machine. -/
structure State where
  /-- The general registers R0 to R13, RA, SP by their code (R10). -/
  regs : Vector Word 16
  /-- The program counter, the byte address of the instruction being executed (R14). -/
  pc : Addr
  /-- The interrupt stack pointer (R20). -/
  isp : Addr
  /-- The address of the dispatch table (R21). -/
  intbase : Addr
  /-- The processor status register (R22). -/
  psr : Psr
  /-- The configuration register, all bits reserved (R33). Log 28. -/
  cfg : Word
  /-- Memory (R35). -/
  mem : Memory
  /-- The waiting-for-interrupt operating state (R36). -/
  waiting : Bool
  /-- Prefetch (R38): for each byte stored since the last serializing operation, its address and the value it had before
  that store, latest first. A fetch may still return one of them (spec/20_memory.md R66). Log 25. -/
  stale : List Host.Cell
  /-- Pending events (R37): what the environment presents at the coming instruction boundaries, next one first; after
  the last of them it requests nothing. The model's own field, log 8. -/
  inputs : List Boundary
  /-- The named parameters of this machine (spec/00_scope.md R4); no step changes them. The model's own field, log 35. -/
  params : Config.Params
  /-- How many free values have been drawn. The model's own field, log 5. -/
  draws : Nat
deriving DecidableEq, Repr

/-- The reasons to stop because an address lies outside what the spec says exists. -/
inductive Fault where
  /-- A word access at 0x3FFFF where WORD_AT_TOP is refuse: its second byte lies outside the address space
  (spec/20_memory.md R55, R56, D3: the model refuses the access). Raised by `checkWord`. Safe. Log 13. -/
  | wordAtTop
deriving DecidableEq, Repr

/-- The reasons to give no meaning. Each but the first is a parameter of spec/00_scope.md R4 at its value `refuse`. -/
inductive Refusal where
  /-- An instruction that has no meaning in this model yet; raised by `exec` only. Safe. -/
  | notModelled (mnemonic : String)
  /-- The words at the PC are an encoding that is neither defined nor listed as undefined, where UNLISTED_ENCODING gives it no
  meaning (spec/30_encoding.md R104, R108, D8, D14). Raised by `fetchInstr`. Safe. Logs 18 and 19. -/
  | rejected (why : Reject)
  /-- An access in the reserved range 0xFC00..0xFFFF (a load, a store, a fetch, or one of the hardware to the interrupt stack or
  the dispatch table) where RESERVED_REGION_ACCESS is refuse (spec/20_memory.md R52, spec/60_exceptions.md R237, D20,
  D22). Raised by `checkByte` and `checkWord`. Safe. Log 12. -/
  | reservedRegion
  /-- A load or a store whose effective address is above 2^18 - 1 where ADDR_WRAP is refuse (D2). Raised by `checkSum`. Safe.
  Log 15. -/
  | addressPastTop
  /-- A fetch of an instruction word beyond 0x1FFFF: the second word of a 4-byte instruction at 0x1FFFE
  (spec/20_memory.md R57, D4), where PC_WRAP is modulo. Raised by `fetch16`. Safe. Log 14. -/
  | fetchPastTop
  /-- ISP moved past an end of its range where ISP_WRAP is refuse (D11). Raised by `pushedIsp` and `poppedIsp`. Safe.
  Log 16. -/
  | ispPastEnd
  /-- A fetch of a byte stored since the last serializing operation where STALE_FETCH is refuse (spec/20_memory.md R66, D25).
  Raised by `fetchByte`. Safe. Log 25. -/
  | staleFetch
  /-- The ICU returned a vector byte outside 16..127 where ICU_VECTOR_RANGE is refuse (spec/60_exceptions.md R221, D12). Raised
  by `acknowledge`. Safe. Log 11. -/
  | icuVectorRange
deriving DecidableEq, Repr

/-- A reason to stop, as the operations of the machine hand it on. -/
inductive Stop where
  | fault (f : Fault)
  | refusal (r : Refusal)
deriving DecidableEq, Repr

/-- What a meaning answers. -/
abbrev Result := Host.Outcome State Fault Refusal

/-- The PSR after reset: all bits 0 but E (R39). -/
def Psr.reset : Psr :=
  { c := false, t := false, l := false, f := false, z := false, n := false, e := true, p := false, i := false }

/-- The machine right after reset at power-up (R39). PC, PSR, CFG and the operating state are the spec's; the general
registers, ISP and INTBASE are unpredictable there, and the values here are the model's choice (logs 1 and 2), as is
memory in which nothing is listed (log 3). -/
def State.reset : State :=
  { regs := Vector.replicate 16 0#16
    pc := 0x00000#18
    isp := 0x02000#18
    intbase := 0x00000#18
    psr := Psr.reset
    cfg := 0#16
    mem := []
    waiting := false
    stale := []
    inputs := []
    params := Config.defaultParams
    draws := 0 }

end Sys2Proof.Machine
end

