-- ==== Sys2Proof/Machine/Flags.lean ====
section
/-! DEFINITION. The PSR as a word, the condition codes, and the arithmetic that decides the flags (spec/10_state.md R30,
R31; spec/41_integer_arithmetic.md R130; spec/42_integer_comparison.md R140). -/

namespace Sys2Proof.Machine

open Sys2Proof

/-- Bits 7..0 of the PSR as a word; bits 3 and 4 are 0 (R31). -/
def Psr.lowByte (r : Psr) : Byte :=
  BitVec.ofBool r.n ++ BitVec.ofBool r.z ++ BitVec.ofBool r.f ++ 0#1 ++ 0#1 ++ BitVec.ofBool r.l ++ BitVec.ofBool r.t ++
    BitVec.ofBool r.c

/-- Bits 15..8 of the PSR as a word, with the given reserved bits 15..12; bit 8 is 0 (R31). -/
def Psr.highByte (r : Psr) (reserved : BitVec 4) : Byte :=
  reserved ++ BitVec.ofBool r.i ++ BitVec.ofBool r.p ++ BitVec.ofBool r.e ++ 0#1

/-- `PSRword` of R31: the PSR as software reads it, with the given reserved bits 15..12. -/
def Psr.word (r : Psr) (reserved : BitVec 4) : Word := r.highByte reserved ++ r.lowByte

/-- The PSR after a word is written to it; bits 3, 4, 8 and 15..12 are ignored (R31). -/
def Psr.ofWord (v : Word) : Psr :=
  { c := v.getLsbD 0, t := v.getLsbD 1, l := v.getLsbD 2, f := v.getLsbD 5, z := v.getLsbD 6, n := v.getLsbD 7,
    e := v.getLsbD 9, p := v.getLsbD 10, i := v.getLsbD 11 }

/-- `CondTrue` of R30. -/
def condTrue (r : Psr) : Cond → Bool
  | .eq => r.z
  | .ne => !r.z
  | .cs => r.c
  | .cc => !r.c
  | .hi => r.l
  | .ls => !r.l
  | .gt => r.n
  | .le => !r.n
  | .fs => r.f
  | .fc => !r.f
  | .lo => !r.l && !r.z
  | .hs => r.l || r.z
  | .lt => !r.n && !r.z
  | .ge => r.n || r.z

/-- A sum or a difference with its flags (R130). -/
structure Sum (w : Nat) where
  /-- The result cut to the operation width. -/
  value : BitVec w
  /-- Carry after an addition, borrow after a subtraction: PSR.C. -/
  carry : Bool
  /-- Signed overflow: PSR.F. -/
  overflow : Bool
deriving DecidableEq, Repr

/-- Whether an exact signed result is outside the range of `w` bits (R130). -/
def signedOut (w : Nat) (x : Int) : Bool := x < -(2 ^ (w - 1) : Int) || (2 ^ (w - 1) : Int) - 1 < x

/-- Addition with carry in (R130). -/
def addition {w : Nat} (a b : BitVec w) (cin : Bool) : Sum w :=
  let u := a.toNat + b.toNat + cin.toNat
  { value := BitVec.ofNat w u
    carry := 2 ^ w ≤ u
    overflow := signedOut w (a.toInt + b.toInt + (cin.toNat : Int)) }

/-- Subtraction `a - b` with borrow in (R130); the carry is the borrow itself (conflict C2, log 27). -/
def subtraction {w : Nat} (a b : BitVec w) (cin : Bool) : Sum w :=
  let u : Int := (a.toNat : Int) - (b.toNat : Int) - (cin.toNat : Int)
  { value := BitVec.ofInt w u
    carry := u < 0
    overflow := signedOut w (a.toInt - b.toInt - (cin.toNat : Int)) }

/-- The PSR after an addition or a subtraction: C and F, nothing else (spec/10_state.md R32). -/
def Psr.withSum {w : Nat} (r : Psr) (x : Sum w) : Psr := { r with c := x.carry, f := x.overflow }

/-- The PSR after a comparison of the first operand `s1` with the second `s2`: Z, N and L, nothing else (R140). -/
def Psr.withCompare {w : Nat} (r : Psr) (s1 s2 : BitVec w) : Psr :=
  { r with z := s1 = s2, n := s2.toInt < s1.toInt, l := s2.toNat < s1.toNat }

end Sys2Proof.Machine
end

