-- ==== Sys2Proof/Machine/Memory.lean ====
section
/-! DEFINITION. Memory as a list of cells in one canonical form: reading and writing one byte (spec/20_memory.md R50,
R55, R56). -/

namespace Sys2Proof.Machine

open Sys2Proof

/-- What an address that is not listed reads as. The spec gives memory no initial contents (spec/10_state.md R39);
DESIGN CHOICE, log 3. -/
def unlistedByte : Byte := 0#8

/-- The byte at an address (R55); below the first listed address nothing is listed. -/
def Memory.read : Memory → Nat → Byte
  | [], _ => unlistedByte
  | (b, v) :: m, a => if a = b then v else if a < b then unlistedByte else Memory.read m a

/-- Memory with the byte `v` at the address `a` (R56), in canonical form. -/
def Memory.write : Memory → Nat → Byte → Memory
  | [], a, v => if v = unlistedByte then [] else [(a, v)]
  | (b, w) :: m, a, v =>
    if a < b then
      if v = unlistedByte then (b, w) :: m else (a, v) :: (b, w) :: m
    else if a = b then
      if v = unlistedByte then m else (a, v) :: m
    else (b, w) :: Memory.write m a v

/-- Whether every listed address is above `lo`, below the end of the address space, and the addresses rise strictly, no
cell holding what an unlisted address reads as. -/
def Memory.wfAbove : Option Nat → Memory → Bool
  | _, [] => true
  | lo, (a, v) :: m =>
    (match lo with | none => true | some l => l < a) && (a < 2 ^ 18) && (v != unlistedByte) && Memory.wfAbove (some a) m

/-- The canonical form: addresses below 2^18 and strictly rising, no cell holding what an unlisted address reads as. -/
def Memory.wf (m : Memory) : Bool := Memory.wfAbove none m

end Sys2Proof.Machine
end

