-- ==== Sys2Proof/Machine/Ops.lean ====
section
/-! DEFINITION. The named operations over registers, memory and the program counter, and taking an exception and returning
from one (spec/00_scope.md R6, spec/20_memory.md, spec/60_exceptions.md R220, spec/47_jumps_linkage.md R178). -/

namespace Sys2Proof.Machine

open Sys2Proof

/-! ## Answers -/

/-- The outcome of a step from what the operations answer. -/
def finish : Except Stop State → Result
  | .ok s => .next s
  | .error (.fault f) => .fault f
  | .error (.refusal r) => .refused r

/-! ## General registers (spec/10_state.md R10 to R12) -/

/-- `x[r]` (R6). -/
def State.reg (s : State) (r : Reg) : Word := s.regs[r.toNat]

/-- `x[r] <- v` (R6). -/
def State.setReg (s : State) (r : Reg) (v : Word) : State := { s with regs := s.regs.set r.toNat v }

/-- `Low(r, w)` (R6): the operand a read of operation width `w` yields (spec/10_state.md R12). -/
def State.low (s : State) (r : Reg) (w : Width) : BitVec w.bits := (s.reg r).setWidth w.bits

/-- `WriteLow(r, w, v)` (R6): a byte write keeps the high byte (spec/10_state.md R12). -/
def State.writeLow (s : State) (r : Reg) : (w : Width) → BitVec w.bits → State
  | .byte, v => s.setReg r ((s.reg r).extractLsb' 8 8 ++ v)
  | .word, v => s.setReg r v

/-! ## Free values (spec/00_scope.md R6) -/

/-- The next free word, `unspecified(16)`; narrower ones are its low bits. -/
def State.unspecified (s : State) : Word := Config.unspecified s.draws

/-- The state after `k` free values have been drawn. -/
def State.drawn (s : State) (k : Nat) : State := { s with draws := s.draws + k }

/-! ## The PSR and its word (spec/10_state.md R31) -/

/-- The word that a read of the PSR yields; its bits 15..12 are unspecified (R31). A read draws one free value. -/
def State.psrWord (s : State) : Word := s.psr.word (s.unspecified.extractLsb' 0 4)

/-! ## Code addresses (spec/10_state.md R14, R15, R17) -/

/-- The code address whose bits 16..1 are `v`; bits 17 and 0 are 0 (R15). -/
def fromHalf (v : Word) : Addr := 0#1 ++ v ++ 0#1

/-- Bits 16..1 of a code address, its 16-bit image (R15). -/
def toHalf (a : Addr) : Word := a.extractLsb' 1 16

/-- `next_pc` (R17, log 14): the address of the next sequential instruction, reduced modulo 2^17. -/
def State.nextPc (s : State) (len : Nat) : Addr := BitVec.ofNat 18 ((s.pc.toNat + len) % 2 ^ 17)

/-- The state after an instruction of length `len` that does not write the PC (R17). -/
def State.advance (s : State) (len : Nat) : State := { s with pc := s.nextPc len }

/-! ## Dedicated address registers (spec/10_state.md R20, R21) -/

/-- The value ISP or INTBASE takes from 16 bits: bits 17, 16 and 0 are 0 (R20, R21). -/
def tableAddr (v : Word) : Addr := 0#2 ++ v.extractLsb' 1 15 ++ 0#1

/-- ISP moved by `k` modulo 2^16 (R20, log 16). -/
def movedIsp (isp : Addr) (k : Word) : Addr := 0#2 ++ (isp.extractLsb' 0 16 + k)

/-- ISP after a frame of 4 bytes is pushed (spec/60_exceptions.md R220), below 0 as ISP_WRAP says (log 16). -/
def pushedIsp (s : State) : Except Stop Addr :=
  if s.params.ispWrap = .refuse ∧ s.isp.toNat % 0x10000 < 4 then .error (.refusal .ispPastEnd)
  else .ok (movedIsp s.isp (-4#16))

/-- ISP after a frame of 4 bytes is popped (spec/47_jumps_linkage.md R178), past 0xFFFE as ISP_WRAP says (log 16). -/
def poppedIsp (s : State) : Except Stop Addr :=
  if s.params.ispWrap = .refuse ∧ 0xFFFC ≤ s.isp.toNat % 0x10000 then .error (.refusal .ispPastEnd)
  else .ok (movedIsp s.isp 4#16)

/-! ## Data memory (spec/20_memory.md R52, R55, R56) -/

/-- The word in memory at an address, little-endian at any address (R54, R55, R58). -/
def Memory.readWord (m : Memory) (a : Addr) : Word := m.read (a + 1).toNat ++ m.read a.toNat

/-- Memory with a word written at an address, little-endian at any address (R54, R56, R58). -/
def Memory.writeWord (m : Memory) (a : Addr) (v : Word) : Memory :=
  (m.write a.toNat (v.extractLsb' 0 8)).write (a + 1).toNat (v.extractLsb' 8 8)

/-- The reserved range 0xFC00..0xFFFF (R51, R52). -/
def isReserved (a : Addr) : Bool := 0xFC00 ≤ a.toNat && a.toNat ≤ 0xFFFF

/-- Whether an access to the byte at an address is given no meaning (R52, RESERVED_REGION_ACCESS, log 12). -/
def State.refuses (s : State) (a : Addr) : Bool :=
  decide (s.params.reservedRegionAccess = .refuse) && isReserved a

/-- Whether a device of the platform answers at an address (R52, RESERVED_REGION_ACCESS, log 12). -/
def State.onDevice (s : State) (a : Addr) : Bool :=
  decide (s.params.reservedRegionAccess = .device) && isReserved a

/-- The byte an access reads: the byte in memory, or from a device a free value (R55, log 12). -/
def State.readAt (s : State) (a : Addr) : Byte × State :=
  if s.onDevice a then (s.unspecified.extractLsb' 0 8, s.drawn 1) else (s.mem.read a.toNat, s)

/-- A store into memory notes the value the byte had, for fetches that are not ordered after the store (R66, log 25). -/
def State.noteStored (s : State) (a : Addr) : State := { s with stale := (a.toNat, s.mem.read a.toNat) :: s.stale }

/-- The state after an access writes a byte: to memory, or to a device, which changes no memory (R56, log 12). -/
def State.writeAt (s : State) (a : Addr) (v : Byte) : State :=
  if s.onDevice a then s else { s.noteStored a with mem := s.mem.write a.toNat v }

/-- The check of an access to the byte at an address (R52, log 12). -/
def checkByte (s : State) (a : Addr) : Except Stop Unit :=
  if s.refuses a then .error (.refusal .reservedRegion) else .ok ()

/-- The check of an access to the word at an address: where its second byte is (R55, R56, WORD_AT_TOP, log 13), and each of
its bytes (R52, log 12). -/
def checkWord (s : State) (a : Addr) : Except Stop Unit :=
  if s.params.wordAtTop = .refuse ∧ a = 0x3FFFF#18 then .error (.fault .wordAtTop)
  else if s.refuses a || s.refuses (a + 1) then .error (.refusal .reservedRegion)
  else .ok ()

/-- `MemRead(a, 1)` (R55). -/
def loadByte (s : State) (a : Addr) : Except Stop (Byte × State) := do
  checkByte s a
  return s.readAt a

/-- `MemRead(a, 2)` (R55), of a program or of the hardware (R61). -/
def loadWord (s : State) (a : Addr) : Except Stop (Word × State) := do
  checkWord s a
  let lo := s.readAt a
  let hi := lo.2.readAt (a + 1)
  return (hi.1 ++ lo.1, hi.2)

/-- `MemWrite(a, 1, v)` (R56). -/
def storeByte (s : State) (a : Addr) (v : Byte) : Except Stop State := do
  checkByte s a
  return s.writeAt a v

/-- `MemWrite(a, 2, hi :: lo)` (R56), of a program or of the hardware (R61). The two bytes are given apart: the low byte of a
PSR holds no reserved bit (spec/10_state.md R31). -/
def storeWord (s : State) (a : Addr) (lo hi : Byte) : Except Stop State := do
  checkWord s a
  return (s.writeAt a lo).writeAt (a + 1) hi

/-- A serializing operation: every earlier store is seen by every later fetch (R67). -/
def State.serialize (s : State) : State := { s with stale := [] }

/-! ## Instruction fetch (spec/20_memory.md R57, R66) -/

/-- The values the byte at `a` had before the stores made to it since the last serializing operation (R66). -/
def State.earlier (s : State) (a : Nat) : List Byte := (s.stale.filter fun c => c.1 = a).map Prod.snd

/-- The byte a fetch returns: the present value, or, where stores to the byte have not been serialized, the present or an
earlier value, freely chosen, unless STALE_FETCH gives it no meaning (R66, log 25). -/
def fetchByte (s : State) (a : Addr) : Except Stop (Byte × State) :=
  match s.earlier a.toNat with
  | [] => .ok (s.readAt a)
  | old :: olds =>
    match s.params.staleFetch with
    | .refuse => .error (.refusal .staleFetch)
    | .oldOrNew =>
      let values := s.mem.read a.toNat :: old :: olds
      .ok (values.getD (Config.staleChoice s.draws % values.length) old, s.drawn 1)

/-- `Fetch16(a)` (R57), little-endian; refused beyond 0x1FFFF (log 14). -/
def fetch16 (s : State) (a : Addr) : Except Stop (Word × State) :=
  if 0x20000 ≤ a.toNat then .error (.refusal .fetchPastTop)
  else do
    checkWord s a
    let lo ← fetchByte s a
    let hi ← fetchByte lo.2 (a + 1)
    return (wordOfBytes lo.1 hi.1, hi.2)

/-- The address of the second word of the instruction at the PC; past the top of the code space as PC_WRAP says (R57,
log 14). -/
def State.secondAddr (s : State) : Addr :=
  match s.params.pcWrap with
  | .modulo => s.pc + 2
  | .moduloSplit => s.nextPc 2

/-- The second word of an instruction, fetched where there is one (R81, R100). -/
def fetchSecond (w1 : Word) (s : State) : Except Stop (Word × State) :=
  if isLong w1 then fetch16 s s.secondAddr else .ok (0#16, s)

/-- The first word as it is decoded: where UNLISTED_ENCODING is ignoreFields, with its fixed fields as R112 lists them (R108,
log 18). -/
def State.firstWord (s : State) (w1 : Word) : Word :=
  match s.params.unlistedEncoding with
  | .ignoreFields => listedFirst w1
  | .refuse => w1
  | .raiseUnd => w1

/-- What two instruction words are under UNLISTED_ENCODING (R104, R108, logs 18 and 19): an instruction, or `none` where they
raise UND. -/
def decodeUnder (p : Config.UnlistedEncoding) (w1 w2 : Word) : Except Reject (Option Instr) :=
  match p with
  | .refuse => (decodeWords w1 w2).map some
  | .raiseUnd =>
    match decodeWords w1 w2 with
    | .ok i => .ok (some i)
    | .error _ => .ok none
  | .ignoreFields => (decodeWords w1 (listedSecond w1 w2)).map some

/-- The instruction at the PC: the first word, the second where there is one, and their decoding (R81; R218). `none` is an
unlisted encoding that raises UND. -/
def fetchInstr (s : State) : Except Stop (Option Instr × State) := do
  let first ← fetch16 s s.pc
  let w1 := s.firstWord first.1
  let second ← fetchSecond w1 first.2
  match decodeUnder s.params.unlistedEncoding w1 second.1 with
  | .ok i => return (i, second.2)
  | .error why => .error (.refusal (.rejected why))

/-! ## Exceptions (spec/60_exceptions.md) -/

/-- The nine exceptions (R210); a maskable interrupt comes with the byte the ICU returns (R221). -/
inductive Exc where
  | nmi
  | svc
  | dvz
  | flg
  | bpt
  | trc
  | und
  | ise
  | int (icu : Byte)
deriving DecidableEq, Repr

/-- Whether an exception is an interrupt, not a trap (R210). -/
def Exc.isInterrupt : Exc → Bool
  | .nmi => true
  | .ise => true
  | .int _ => true
  | .svc => false
  | .dvz => false
  | .flg => false
  | .bpt => false
  | .trc => false
  | .und => false

/-- The exception number, the index into the dispatch table (R211, R221). -/
def vectorOf (params : Config.Params) : Exc → Nat
  | .nmi => 1
  | .svc => 5
  | .dvz => 6
  | .flg => 7
  | .bpt => 8
  | .trc => params.trcVector.val
  | .und => 10
  | .ise => 15
  | .int icu => icu.toNat

/-- Whether the vector of an exception has a meaning: a byte of the ICU outside 16..127 as ICU_VECTOR_RANGE says (R221,
log 11). -/
def vectorStated (params : Config.Params) : Exc → Bool
  | .int icu => (16 ≤ icu.toNat && icu.toNat ≤ 127) || decide (params.icuVectorRange = .asIs)
  | _ => true

/-- The PSR that an exception pushes: a TRC trap clears P before the push (R220, R231, log 23); every other exception
pushes it as it is (log 24). -/
def Psr.pushed (r : Psr) : Exc → Psr
  | .trc => { r with p := false }
  | _ => r

/-- The PSR after an exception entry: T and P cleared, and I for an interrupt (R220, R222). -/
def Psr.entered (r : Psr) (e : Exc) : Psr := { r with t := false, p := false, i := r.i && !e.isInterrupt }

/-- The acknowledge sequence of R220 at the PC: the frame is pushed on the interrupt stack (return address at the lower
address, PSR above it), T, P and for an interrupt I are cleared, and the PC comes from the dispatch table. Its accesses
are ordinary word accesses, so one in the reserved range has the meaning of RESERVED_REGION_ACCESS and the sequence is
whole or has none (R237, log 12). It serializes (spec/20_memory.md R67). -/
def enterException (e : Exc) (s : State) : Except Stop State := do
  let isp ← pushedIsp s
  let home := toHalf s.pc
  let saved := s.psr.pushed e
  let s1 ← storeWord (s.drawn 1) isp (home.extractLsb' 0 8) (home.extractLsb' 8 8)
  let s2 ← storeWord s1 (isp + 2) saved.lowByte (saved.highByte (s.unspecified.extractLsb' 0 4))
  let entry ← loadWord s2 (s.intbase + BitVec.ofNat 18 (2 * vectorOf s.params e))
  return { entry.2 with isp := isp, psr := s.psr.entered e, pc := fromHalf entry.1 }.serialize

/-- The exception taken at an instruction boundary; a vector byte without a meaning is refused (R221, log 11). -/
def acknowledge (e : Exc) (s : State) : Except Stop State :=
  if vectorStated s.params e then enterException e s else .error (.refusal .icuVectorRange)

/-- The return from an exception (spec/47_jumps_linkage.md R178): the PC and the PSR are popped from the interrupt stack by
ordinary word accesses (log 12). It serializes (spec/20_memory.md R67). -/
def returnFromException (s : State) : Except Stop State := do
  let home ← loadWord s s.isp
  let status ← loadWord home.2 (s.isp + 2)
  let isp ← poppedIsp s
  return { status.2 with isp := isp, psr := Psr.ofWord status.1, pc := fromHalf home.1 }.serialize

/-! ## Reset (spec/70_reset_and_hazards.md R260) -/

/-- A reset of a running core (R260): R0 and R1 capture the PC and the PSR, PC, PSR and CFG take their reset values, and
every other register is unspecified; ISP and INTBASE keep their constant bits 0 (log 32). Memory is left as it is
(log 4). -/
def resetSequence (s : State) : State :=
  { s with
    regs := Vector.ofFn fun r : Fin 16 =>
      if r = 0 then toHalf s.pc
      else if r = 1 then s.psrWord
      else Config.unspecified (s.draws + r.val)
    pc := 0#18
    isp := tableAddr (Config.unspecified (s.draws + 16))
    intbase := tableAddr (Config.unspecified (s.draws + 17))
    psr := Psr.reset
    cfg := 0#16
    waiting := false
    draws := s.draws + 18 }

end Sys2Proof.Machine
end

