-- ==== Sys2Proof/Machine/Operands.lean ====
section
/-! DEFINITION. What the operand forms deliver: basic source operands, effective addresses, branch targets
(spec/30_encoding.md R113, spec/48_load_store.md R192 to R195, spec/47_jumps_linkage.md R171). -/

namespace Sys2Proof.Machine

open Sys2Proof

/-- `SrcVal(w)` of R113: the first operand of a basic instruction as a value of operation width `w`. -/
def State.srcVal (s : State) (w : Width) : Src → BitVec w.bits
  | .reg rs => s.low rs w
  | .short imm => (imm.signExtend 16).setWidth w.bits
  | .medium imm => imm.setWidth w.bits

/-- The sum of base and displacement of a load or a store, exact (R192 to R195). -/
def State.effectiveSum (s : State) : MemOp → Nat
  | .relShort disp base => (s.reg base).toNat + disp.toNat
  | .relMedium disp base => (s.reg base).toNat + disp.toNat
  | .far disp pair => ((s.reg (pair + 1)).extractLsb' 0 2 ++ s.reg pair).toNat + disp.toNat
  | .abs addr => addr.toNat

/-- The effective address of a load or a store: the sum modulo 2^18 (spec/20_memory.md R60, log 15). -/
def State.effectiveAddr (s : State) (m : MemOp) : Addr := BitVec.ofNat 18 (s.effectiveSum m)

/-- The check of the sum that makes an effective address: above 2^18 - 1 as ADDR_WRAP says (spec/20_memory.md R60, log 15). -/
def checkSum (s : State) (m : MemOp) : Except Stop Unit :=
  if s.params.addrWrap = .refuse ∧ 2 ^ 18 ≤ s.effectiveSum m then .error (.refusal .addressPastTop) else .ok ()

/-- A branch displacement sign-extended to 18 bits (spec/30_encoding.md R94, R101). -/
def dispValue : Disp → Addr
  | .short d => d.signExtend 18
  | .medium d => d.signExtend 18

/-- The target of a PC-relative branch: the sum modulo 2^18 with bits 17 and 0 cleared (R171). -/
def State.branchTarget (s : State) (disp : Addr) : Addr := fromHalf (toHalf (s.pc + disp))

end Sys2Proof.Machine
end

