-- ==== Sys2Proof/Machine/Arith.lean ====
section
/-! DEFINITION. Integer arithmetic (spec/41_integer_arithmetic.md R130 to R136). -/

namespace Sys2Proof.Machine

open Sys2Proof

/-- A sum or a difference to the destination operand with C and F (R131, R133, R135, R136). -/
def State.writeSum (s : State) (rd : Reg) (w : Width) (x : Sum w.bits) (len : Nat) : State :=
  ({ s.writeLow rd w x.value with psr := s.psr.withSum x }).advance len

/-- ADDi and ADDCi: the destination plus the source plus the carry in (R131, R133). -/
def addOp (w : Width) (cin : Bool) (src : Src) (rd : Reg) (s : State) : State :=
  s.writeSum rd w (addition (s.low rd w) (s.srcVal w src) cin) src.len

/-- SUBi and SUBCi: the destination minus the source minus the borrow in (R135, R136). -/
def subOp (w : Width) (cin : Bool) (src : Src) (rd : Reg) (s : State) : State :=
  s.writeSum rd w (subtraction (s.low rd w) (s.srcVal w src) cin) src.len

/-- ADDUi: the sum without flags (R132). -/
def adduOp (w : Width) (src : Src) (rd : Reg) (s : State) : State :=
  (s.writeLow rd w (addition (s.low rd w) (s.srcVal w src) false).value).advance src.len

/-- MULi: the low bits of the signed product, no flags (R134). -/
def mulOp (w : Width) (src : Src) (rd : Reg) (s : State) : State :=
  (s.writeLow rd w (BitVec.ofInt w.bits ((s.low rd w).toInt * (s.srcVal w src).toInt))).advance src.len

/-- ADDB (R131). -/
def execAddb (src : Src) (rd : Reg) (s : State) : Result := .next (addOp .byte false src rd s)

/-- ADDW (R131). -/
def execAddw (src : Src) (rd : Reg) (s : State) : Result := .next (addOp .word false src rd s)

/-- ADDUB (R132). -/
def execAddub (src : Src) (rd : Reg) (s : State) : Result := .next (adduOp .byte src rd s)

/-- ADDUW (R132). -/
def execAdduw (src : Src) (rd : Reg) (s : State) : Result := .next (adduOp .word src rd s)

/-- ADDCB (R133). -/
def execAddcb (src : Src) (rd : Reg) (s : State) : Result := .next (addOp .byte s.psr.c src rd s)

/-- ADDCW (R133). -/
def execAddcw (src : Src) (rd : Reg) (s : State) : Result := .next (addOp .word s.psr.c src rd s)

/-- MULB (R134). -/
def execMulb (src : Src) (rd : Reg) (s : State) : Result := .next (mulOp .byte src rd s)

/-- MULW (R134). An interrupt that suspends it is the interrupt taken before it (R233, log 29). -/
def execMulw (src : Src) (rd : Reg) (s : State) : Result := .next (mulOp .word src rd s)

/-- SUBB (R135). -/
def execSubb (src : Src) (rd : Reg) (s : State) : Result := .next (subOp .byte false src rd s)

/-- SUBW (R135). -/
def execSubw (src : Src) (rd : Reg) (s : State) : Result := .next (subOp .word false src rd s)

/-- SUBCB (R136). -/
def execSubcb (src : Src) (rd : Reg) (s : State) : Result := .next (subOp .byte s.psr.c src rd s)

/-- SUBCW (R136). -/
def execSubcw (src : Src) (rd : Reg) (s : State) : Result := .next (subOp .word s.psr.c src rd s)

end Sys2Proof.Machine
end

