-- ==== Sys2Proof/Machine/Bits.lean ====
section
/-! DEFINITION. Bits (spec/45_bits.md R160). -/

namespace Sys2Proof.Machine

open Sys2Proof

/-- TBIT: bit `offset` of the tested register to F. An offset above 15 leaves F unspecified and changes nothing else
(R160, log 6). -/
def execTbit (offset : Src) (rs : Reg) (s : State) : Result :=
  let off := (s.srcVal .word offset).toNat
  if off ≤ 15 then
    .next (({ s with psr := { s.psr with f := (s.reg rs).getLsbD off } }).advance offset.len)
  else
    .next ((({ s with psr := { s.psr with f := s.unspecified.getLsbD 0 } }).drawn 1).advance offset.len)

end Sys2Proof.Machine
end

