-- ==== Sys2Proof/Machine/Compare.lean ====
section
/-! DEFINITION. Integer comparison (spec/42_integer_comparison.md R140). -/

namespace Sys2Proof.Machine

open Sys2Proof

/-- CMPi: Z, N and L from the first operand relative to the second (R140). -/
def compareOp (w : Width) (src : Src) (rd : Reg) (s : State) : State :=
  ({ s with psr := s.psr.withCompare (s.srcVal w src) (s.low rd w) }).advance src.len

/-- CMPB (R140). -/
def execCmpb (src : Src) (rd : Reg) (s : State) : Result := .next (compareOp .byte src rd s)

/-- CMPW (R140). -/
def execCmpw (src : Src) (rd : Reg) (s : State) : Result := .next (compareOp .word src rd s)

end Sys2Proof.Machine
end

