-- ==== Sys2Proof/Machine/Jumps.lean ====
section
/-! DEFINITION. Jumps and linkage (spec/47_jumps_linkage.md R170 to R178). -/

namespace Sys2Proof.Machine

open Sys2Proof

/-- Bcond: to the target if the condition holds, else to the next instruction (R170). -/
def branchOp (c : Cond) (d : Disp) (s : State) : State :=
  if condTrue s.psr c then { s with pc := s.branchTarget (dispValue d) } else s.advance d.len

/-- Jcond: to the address in the register if the condition holds, else to the next instruction (R175). -/
def jumpOp (c : Cond) (target : Reg) (s : State) : State :=
  if condTrue s.psr c then { s with pc := fromHalf (s.reg target) } else s.advance 2

/-- BEQ (R170). -/
def execBeq (d : Disp) (s : State) : Result := .next (branchOp .eq d s)

/-- BNE (R170). -/
def execBne (d : Disp) (s : State) : Result := .next (branchOp .ne d s)

/-- BCS (R170). -/
def execBcs (d : Disp) (s : State) : Result := .next (branchOp .cs d s)

/-- BCC (R170). -/
def execBcc (d : Disp) (s : State) : Result := .next (branchOp .cc d s)

/-- BHI (R170). -/
def execBhi (d : Disp) (s : State) : Result := .next (branchOp .hi d s)

/-- BLS (R170). -/
def execBls (d : Disp) (s : State) : Result := .next (branchOp .ls d s)

/-- BGT (R170). -/
def execBgt (d : Disp) (s : State) : Result := .next (branchOp .gt d s)

/-- BLE (R170). -/
def execBle (d : Disp) (s : State) : Result := .next (branchOp .le d s)

/-- BFS (R170). -/
def execBfs (d : Disp) (s : State) : Result := .next (branchOp .fs d s)

/-- BFC (R170). -/
def execBfc (d : Disp) (s : State) : Result := .next (branchOp .fc d s)

/-- BLO (R170). -/
def execBlo (d : Disp) (s : State) : Result := .next (branchOp .lo d s)

/-- BHS (R170). -/
def execBhs (d : Disp) (s : State) : Result := .next (branchOp .hs d s)

/-- BLT (R170). -/
def execBlt (d : Disp) (s : State) : Result := .next (branchOp .lt d s)

/-- BGE (R170). -/
def execBge (d : Disp) (s : State) : Result := .next (branchOp .ge d s)

/-- BR (R172). -/
def execBr (d : Disp) (s : State) : Result := .next { s with pc := s.branchTarget (dispValue d) }

/-- BAL: the link register takes bits 16..1 of the next instruction's address (R173). -/
def execBal (link : Reg) (d : BitVec 17) (s : State) : Result :=
  .next { s.setReg link (toHalf (s.nextPc 4)) with pc := s.branchTarget (d.signExtend 18) }

/-- JEQ (R175). -/
def execJeq (target : Reg) (s : State) : Result := .next (jumpOp .eq target s)

/-- JNE (R175). -/
def execJne (target : Reg) (s : State) : Result := .next (jumpOp .ne target s)

/-- JCS (R175). -/
def execJcs (target : Reg) (s : State) : Result := .next (jumpOp .cs target s)

/-- JCC (R175). -/
def execJcc (target : Reg) (s : State) : Result := .next (jumpOp .cc target s)

/-- JHI (R175). -/
def execJhi (target : Reg) (s : State) : Result := .next (jumpOp .hi target s)

/-- JLS (R175). -/
def execJls (target : Reg) (s : State) : Result := .next (jumpOp .ls target s)

/-- JGT (R175). -/
def execJgt (target : Reg) (s : State) : Result := .next (jumpOp .gt target s)

/-- JLE (R175). -/
def execJle (target : Reg) (s : State) : Result := .next (jumpOp .le target s)

/-- JFS (R175). -/
def execJfs (target : Reg) (s : State) : Result := .next (jumpOp .fs target s)

/-- JFC (R175). -/
def execJfc (target : Reg) (s : State) : Result := .next (jumpOp .fc target s)

/-- JLO (R175). -/
def execJlo (target : Reg) (s : State) : Result := .next (jumpOp .lo target s)

/-- JHS (R175). -/
def execJhs (target : Reg) (s : State) : Result := .next (jumpOp .hs target s)

/-- JLT (R175). -/
def execJlt (target : Reg) (s : State) : Result := .next (jumpOp .lt target s)

/-- JGE (R175). -/
def execJge (target : Reg) (s : State) : Result := .next (jumpOp .ge target s)

/-- JUMP (R176). -/
def execJump (target : Reg) (s : State) : Result := .next { s with pc := fromHalf (s.reg target) }

/-- JAL: the target is read before the link register is written (R177, log 20). -/
def execJal (link target : Reg) (s : State) : Result :=
  .next { s.setReg link (toHalf (s.nextPc 2)) with pc := fromHalf (s.reg target) }

/-- The trap an EXCP vector selects; a reserved vector raises UND (R174; spec/30_encoding.md R102, R105). -/
def trapOf (vector : BitVec 4) : Exc :=
  match vector with
  | 5#4 => .svc
  | 6#4 => .dvz
  | 7#4 => .flg
  | 8#4 => .bpt
  | _ => .und

/-- EXCP: the trap, whose saved PC is the address of the EXCP (R174). -/
def execExcp (vector : BitVec 4) (s : State) : Result := finish (enterException (trapOf vector) s)

/-- RETX (R178). -/
def execRetx (s : State) : Result := finish (returnFromException s)

end Sys2Proof.Machine
end

