-- ==== Sys2Proof/Machine/LoadStore.lean ====
section
/-! DEFINITION. Loads and stores (spec/48_load_store.md R190, R191). -/

namespace Sys2Proof.Machine

open Sys2Proof

/-- LOADB: the byte to the low byte of the register, the high byte kept (R190). -/
def execLoadb (m : MemOp) (rd : Reg) (s : State) : Result :=
  finish do
    checkSum s m
    let v ← loadByte s (s.effectiveAddr m)
    return (v.2.writeLow rd .byte v.1).advance m.len

/-- LOADW (R190). -/
def execLoadw (m : MemOp) (rd : Reg) (s : State) : Result :=
  finish do
    checkSum s m
    let v ← loadWord s (s.effectiveAddr m)
    return (v.2.writeLow rd .word v.1).advance m.len

/-- STORB: the low byte of the register (R191). -/
def execStorb (rs : Reg) (m : MemOp) (s : State) : Result :=
  finish do
    checkSum s m
    let t ← storeByte s (s.effectiveAddr m) (s.low rs .byte)
    return t.advance m.len

/-- STORW (R191). -/
def execStorw (rs : Reg) (m : MemOp) (s : State) : Result :=
  finish do
    checkSum s m
    let t ← storeWord s (s.effectiveAddr m) ((s.reg rs).extractLsb' 0 8) ((s.reg rs).extractLsb' 8 8)
    return t.advance m.len

end Sys2Proof.Machine
end

