-- ==== Sys2Proof/Machine/Logic.lean ====
section
/-! DEFINITION. Logical and boolean instructions (spec/43_logical_boolean.md R145 to R148). -/

namespace Sys2Proof.Machine

open Sys2Proof

/-- ANDi, ORi, XORi: a bitwise operation on the destination and the source operand, no flags (R145 to R147). -/
def logicOp (w : Width) (f : BitVec w.bits → BitVec w.bits → BitVec w.bits) (src : Src) (rd : Reg) (s : State) : State :=
  (s.writeLow rd w (f (s.low rd w) (s.srcVal w src))).advance src.len

/-- Scond: the word 1 if the condition holds, else 0 (R148). -/
def saveCond (c : Cond) (rd : Reg) (s : State) : State :=
  (s.setReg rd (if condTrue s.psr c then 1#16 else 0#16)).advance 2

/-- ANDB (R145). -/
def execAndb (src : Src) (rd : Reg) (s : State) : Result := .next (logicOp .byte (fun a b => a &&& b) src rd s)

/-- ANDW (R145). -/
def execAndw (src : Src) (rd : Reg) (s : State) : Result := .next (logicOp .word (fun a b => a &&& b) src rd s)

/-- ORB (R146). -/
def execOrb (src : Src) (rd : Reg) (s : State) : Result := .next (logicOp .byte (fun a b => a ||| b) src rd s)

/-- ORW (R146). -/
def execOrw (src : Src) (rd : Reg) (s : State) : Result := .next (logicOp .word (fun a b => a ||| b) src rd s)

/-- XORB (R147). -/
def execXorb (src : Src) (rd : Reg) (s : State) : Result := .next (logicOp .byte (fun a b => a ^^^ b) src rd s)

/-- XORW (R147). -/
def execXorw (src : Src) (rd : Reg) (s : State) : Result := .next (logicOp .word (fun a b => a ^^^ b) src rd s)

/-- SEQ (R148). -/
def execSeq (rd : Reg) (s : State) : Result := .next (saveCond .eq rd s)

/-- SNE (R148). -/
def execSne (rd : Reg) (s : State) : Result := .next (saveCond .ne rd s)

/-- SCS (R148). -/
def execScs (rd : Reg) (s : State) : Result := .next (saveCond .cs rd s)

/-- SCC (R148). -/
def execScc (rd : Reg) (s : State) : Result := .next (saveCond .cc rd s)

/-- SHI (R148). -/
def execShi (rd : Reg) (s : State) : Result := .next (saveCond .hi rd s)

/-- SLS (R148). -/
def execSls (rd : Reg) (s : State) : Result := .next (saveCond .ls rd s)

/-- SGT (R148). -/
def execSgt (rd : Reg) (s : State) : Result := .next (saveCond .gt rd s)

/-- SLE (R148). -/
def execSle (rd : Reg) (s : State) : Result := .next (saveCond .le rd s)

/-- SFS (R148). -/
def execSfs (rd : Reg) (s : State) : Result := .next (saveCond .fs rd s)

/-- SFC (R148). -/
def execSfc (rd : Reg) (s : State) : Result := .next (saveCond .fc rd s)

/-- SLO (R148). -/
def execSlo (rd : Reg) (s : State) : Result := .next (saveCond .lo rd s)

/-- SHS (R148). -/
def execShs (rd : Reg) (s : State) : Result := .next (saveCond .hs rd s)

/-- SLT (R148). -/
def execSlt (rd : Reg) (s : State) : Result := .next (saveCond .lt rd s)

/-- SGE (R148). -/
def execSge (rd : Reg) (s : State) : Result := .next (saveCond .ge rd s)

end Sys2Proof.Machine
end

