-- ==== Sys2Proof/Machine/Misc.lean ====
section
/-! DEFINITION. Miscellaneous instructions and the undefined op codes (spec/49_miscellaneous.md R200 to R203,
spec/60_exceptions.md R213). -/

namespace Sys2Proof.Machine

open Sys2Proof

/-- DI: E cleared (R200). -/
def execDi (s : State) : Result := .next (({ s with psr := { s.psr with e := false } }).advance 2)

/-- EI: E set (R201). -/
def execEi (s : State) : Result := .next (({ s with psr := { s.psr with e := true } }).advance 2)

/-- NOP: only the PC advances (R202). -/
def execNop (s : State) : Result := .next (s.advance 2)

/-- WAIT: the PC advances and the core waits for an accepted interrupt (R203). -/
def execWait (s : State) : Result := .next (({ s with waiting := true }).advance 2)

/-- A word of Table A-2: the UND trap, with no data reference of its own (R103, R213). -/
def execUnd (_p : UndPattern) (s : State) : Result := finish (enterException .und s)

end Sys2Proof.Machine
end

