-- ==== Sys2Proof/Machine/Moves.lean ====
section
/-! DEFINITION. Moves (spec/40_moves.md R120 to R122). -/

namespace Sys2Proof.Machine

open Sys2Proof

/-- MOVi: the source operand to the destination operand (R120). -/
def moveOp (w : Width) (src : Src) (rd : Reg) (s : State) : State :=
  (s.writeLow rd w (s.srcVal w src)).advance src.len

/-- MOVB (R120). -/
def execMovb (src : Src) (rd : Reg) (s : State) : Result := .next (moveOp .byte src rd s)

/-- MOVW (R120). -/
def execMovw (src : Src) (rd : Reg) (s : State) : Result := .next (moveOp .word src rd s)

/-- MOVXB: the low byte of the source sign-extended to the whole destination (R121). -/
def execMovxb (rs rd : Reg) (s : State) : Result :=
  .next ((s.setReg rd ((s.low rs .byte).signExtend 16)).advance 2)

/-- MOVZB: the low byte of the source zero-extended to the whole destination (R122). -/
def execMovzb (rs rd : Reg) (s : State) : Result :=
  .next ((s.setReg rd ((s.low rs .byte).setWidth 16)).advance 2)

end Sys2Proof.Machine
end

