-- ==== Sys2Proof/Machine/ProcRegs.lean ====
section
/-! DEFINITION. Processor register manipulation (spec/46_processor_register.md R165, R166). -/

namespace Sys2Proof.Machine

open Sys2Proof

/-- The processor register `dest` written with 16 bits (R165). -/
def State.loadProc (s : State) (dest : ProcReg) (v : Word) : State :=
  match dest with
  | .psr => { s with psr := Psr.ofWord v }
  | .intbase => { s with intbase := tableAddr v }
  | .isp => { s with isp := tableAddr v }

/-- LPR (R165); it serializes (spec/20_memory.md R67). -/
def execLpr (rs : Reg) (dest : ProcReg) (s : State) : Result :=
  .next ((s.loadProc dest (s.reg rs)).serialize.advance 2)

/-- SPR (R166). The four reserved bits of a stored PSR are unspecified (R31). -/
def execSpr (src : ProcReg) (rd : Reg) (s : State) : Result :=
  match src with
  | .psr => .next (((s.setReg rd s.psrWord).drawn 1).advance 2)
  | .intbase => .next ((s.setReg rd (s.intbase.extractLsb' 0 16)).advance 2)
  | .isp => .next ((s.setReg rd (s.isp.extractLsb' 0 16)).advance 2)

end Sys2Proof.Machine
end

