-- ==== Sys2Proof/Machine/Shifts.lean ====
section
/-! DEFINITION. Shifts (spec/44_shifts.md R155, R156). -/

namespace Sys2Proof.Machine

open Sys2Proof

/-- The largest shift distance of an operation width (R155, R156). -/
def shiftLimit : Width → Int
  | .byte => 7
  | .word => 15

/-- A shift by the signed byte `c`: left by `c` with zero fill, or right by `-c` with the given right shift (R155, R156). -/
def shifted {w : Nat} (right : BitVec w → Nat → BitVec w) (a : BitVec w) (c : Int) : BitVec w :=
  if 0 ≤ c then a <<< c.toNat else right a (-c).toNat

/-- ASHUi and LSHi: the count is the low byte of the source operand, read as signed. A count out of range leaves the
destination operand unspecified and changes nothing else (R155, R156, log 6). -/
def shiftOp (w : Width) (right : BitVec w.bits → Nat → BitVec w.bits) (count : Src) (rd : Reg) (s : State) : State :=
  let c := (s.srcVal .byte count).toInt
  if c < -shiftLimit w ∨ shiftLimit w < c then
    ((s.writeLow rd w (s.unspecified.setWidth w.bits)).drawn 1).advance count.len
  else (s.writeLow rd w (shifted right (s.low rd w) c)).advance count.len

/-- ASHUB (R155). -/
def execAshub (count : Src) (rd : Reg) (s : State) : Result := .next (shiftOp .byte BitVec.sshiftRight count rd s)

/-- ASHUW (R155). -/
def execAshuw (count : Src) (rd : Reg) (s : State) : Result := .next (shiftOp .word BitVec.sshiftRight count rd s)

/-- LSHB (R156). -/
def execLshb (count : Src) (rd : Reg) (s : State) : Result := .next (shiftOp .byte BitVec.ushiftRight count rd s)

/-- LSHW (R156). -/
def execLshw (count : Src) (rd : Reg) (s : State) : Result := .next (shiftOp .word BitVec.ushiftRight count rd s)

end Sys2Proof.Machine
end

