-- ==== Sys2Proof/Machine/Dispatch.lean ====
section
/-! DEFINITION. The dispatch: one arm for each constructor of Instr, each one direct call of its meaning. -/

namespace Sys2Proof.Machine

open Sys2Proof

def exec (i : Instr) (s : State) : Host.Outcome State Fault Refusal :=
  match i with
  | .nop => Sys2Proof.Machine.execNop s
  | .addb src rd => Sys2Proof.Machine.execAddb src rd s
  | .addw src rd => Sys2Proof.Machine.execAddw src rd s
  | .addub src rd => Sys2Proof.Machine.execAddub src rd s
  | .adduw src rd => Sys2Proof.Machine.execAdduw src rd s
  | .mulb src rd => Sys2Proof.Machine.execMulb src rd s
  | .mulw src rd => Sys2Proof.Machine.execMulw src rd s
  | .ashub count rd => Sys2Proof.Machine.execAshub count rd s
  | .ashuw count rd => Sys2Proof.Machine.execAshuw count rd s
  | .lshb count rd => Sys2Proof.Machine.execLshb count rd s
  | .lshw count rd => Sys2Proof.Machine.execLshw count rd s
  | .xorb src rd => Sys2Proof.Machine.execXorb src rd s
  | .xorw src rd => Sys2Proof.Machine.execXorw src rd s
  | .cmpb src rd => Sys2Proof.Machine.execCmpb src rd s
  | .cmpw src rd => Sys2Proof.Machine.execCmpw src rd s
  | .andb src rd => Sys2Proof.Machine.execAndb src rd s
  | .andw src rd => Sys2Proof.Machine.execAndw src rd s
  | .addcb src rd => Sys2Proof.Machine.execAddcb src rd s
  | .addcw src rd => Sys2Proof.Machine.execAddcw src rd s
  | .movb src rd => Sys2Proof.Machine.execMovb src rd s
  | .movw src rd => Sys2Proof.Machine.execMovw src rd s
  | .subcb src rd => Sys2Proof.Machine.execSubcb src rd s
  | .subcw src rd => Sys2Proof.Machine.execSubcw src rd s
  | .orb src rd => Sys2Proof.Machine.execOrb src rd s
  | .orw src rd => Sys2Proof.Machine.execOrw src rd s
  | .subb src rd => Sys2Proof.Machine.execSubb src rd s
  | .subw src rd => Sys2Proof.Machine.execSubw src rd s
  | .tbit offset rs => Sys2Proof.Machine.execTbit offset rs s
  | .movxb rs rd => Sys2Proof.Machine.execMovxb rs rd s
  | .movzb rs rd => Sys2Proof.Machine.execMovzb rs rd s
  | .seq rd => Sys2Proof.Machine.execSeq rd s
  | .sne rd => Sys2Proof.Machine.execSne rd s
  | .scs rd => Sys2Proof.Machine.execScs rd s
  | .scc rd => Sys2Proof.Machine.execScc rd s
  | .shi rd => Sys2Proof.Machine.execShi rd s
  | .sls rd => Sys2Proof.Machine.execSls rd s
  | .sgt rd => Sys2Proof.Machine.execSgt rd s
  | .sle rd => Sys2Proof.Machine.execSle rd s
  | .sfs rd => Sys2Proof.Machine.execSfs rd s
  | .sfc rd => Sys2Proof.Machine.execSfc rd s
  | .slo rd => Sys2Proof.Machine.execSlo rd s
  | .shs rd => Sys2Proof.Machine.execShs rd s
  | .slt rd => Sys2Proof.Machine.execSlt rd s
  | .sge rd => Sys2Proof.Machine.execSge rd s
  | .lpr rs dest => Sys2Proof.Machine.execLpr rs dest s
  | .spr src rd => Sys2Proof.Machine.execSpr src rd s
  | .retx => Sys2Proof.Machine.execRetx s
  | .excp vector => Sys2Proof.Machine.execExcp vector s
  | .di => Sys2Proof.Machine.execDi s
  | .ei => Sys2Proof.Machine.execEi s
  | .wait => Sys2Proof.Machine.execWait s
  | .beq d => Sys2Proof.Machine.execBeq d s
  | .bne d => Sys2Proof.Machine.execBne d s
  | .bcs d => Sys2Proof.Machine.execBcs d s
  | .bcc d => Sys2Proof.Machine.execBcc d s
  | .bhi d => Sys2Proof.Machine.execBhi d s
  | .bls d => Sys2Proof.Machine.execBls d s
  | .bgt d => Sys2Proof.Machine.execBgt d s
  | .ble d => Sys2Proof.Machine.execBle d s
  | .bfs d => Sys2Proof.Machine.execBfs d s
  | .bfc d => Sys2Proof.Machine.execBfc d s
  | .blo d => Sys2Proof.Machine.execBlo d s
  | .bhs d => Sys2Proof.Machine.execBhs d s
  | .blt d => Sys2Proof.Machine.execBlt d s
  | .bge d => Sys2Proof.Machine.execBge d s
  | .br d => Sys2Proof.Machine.execBr d s
  | .bal link d => Sys2Proof.Machine.execBal link d s
  | .jeq target => Sys2Proof.Machine.execJeq target s
  | .jne target => Sys2Proof.Machine.execJne target s
  | .jcs target => Sys2Proof.Machine.execJcs target s
  | .jcc target => Sys2Proof.Machine.execJcc target s
  | .jhi target => Sys2Proof.Machine.execJhi target s
  | .jls target => Sys2Proof.Machine.execJls target s
  | .jgt target => Sys2Proof.Machine.execJgt target s
  | .jle target => Sys2Proof.Machine.execJle target s
  | .jfs target => Sys2Proof.Machine.execJfs target s
  | .jfc target => Sys2Proof.Machine.execJfc target s
  | .jlo target => Sys2Proof.Machine.execJlo target s
  | .jhs target => Sys2Proof.Machine.execJhs target s
  | .jlt target => Sys2Proof.Machine.execJlt target s
  | .jge target => Sys2Proof.Machine.execJge target s
  | .jump target => Sys2Proof.Machine.execJump target s
  | .jal link target => Sys2Proof.Machine.execJal link target s
  | .loadb m rd => Sys2Proof.Machine.execLoadb m rd s
  | .loadw m rd => Sys2Proof.Machine.execLoadw m rd s
  | .storb rs m => Sys2Proof.Machine.execStorb rs m s
  | .storw rs m => Sys2Proof.Machine.execStorw rs m s
  | .und p => Sys2Proof.Machine.execUnd p s

end Sys2Proof.Machine
end

