-- ==== Sys2Proof/Machine/Cycle.lean ====
section
/-! DEFINITION. The instruction cycle (spec/60_exceptions.md R218) and placing an instruction where it is fetched. -/

namespace Sys2Proof.Machine

open Sys2Proof

/-- What the environment presents at this instruction boundary; nothing once its list is used up (R216, log 8). -/
def State.boundary (s : State) : Boundary := s.inputs.headD Boundary.quiet

/-- The state whose next boundary is the one after this. -/
def State.nextBoundary (s : State) : State := { s with inputs := s.inputs.tail }

/-- The requests in the order INT_PRIORITY gives them (R217). -/
def priorityOrder : Config.IntPriority → List Config.Source
  | .iseNmiInt => [.ise, .nmi, .int]
  | .iseIntNmi => [.ise, .int, .nmi]
  | .nmiIseInt => [.nmi, .ise, .int]
  | .nmiIntIse => [.nmi, .int, .ise]
  | .intIseNmi => [.int, .ise, .nmi]
  | .intNmiIse => [.int, .nmi, .ise]

/-- Whether a request stands and is accepted: ISE and NMI are never masked (R215), a maskable request is accepted when I and
E are 1 (R214). -/
def accepts (b : Boundary) (r : Psr) : Config.Source → Bool
  | .ise => b.ise
  | .nmi => b.nmi
  | .int => b.int && r.i && r.e

/-- The exception of an accepted request. -/
def excOf (b : Boundary) : Config.Source → Exc
  | .ise => .ise
  | .nmi => .nmi
  | .int => .int b.icu

/-- The interrupt accepted at a boundary: the first one in INT_PRIORITY order (R217, R218). -/
def acceptedInterrupt (b : Boundary) (s : State) : Option Exc :=
  ((priorityOrder s.params.intPriority).find? (accepts b s.psr)).map (excOf b)

/-- The instruction at the PC: P <- T first (R230), then fetch, decode and execute, or the UND trap of an unlisted encoding that
raises it (R218; spec/30_encoding.md R108). -/
def runInstr (s : State) : Result :=
  match fetchInstr { s with psr := { s.psr with p := s.psr.t } } with
  | .ok (some i, t) => exec i t
  | .ok (none, t) => finish (enterException .und t)
  | .error e => finish (.error e)

/-- Whether the waiting state ends without an accepted interrupt: by a masked maskable request where WAIT_WAKE says so
(spec/49_miscellaneous.md R203, log 22). -/
def wakes (b : Boundary) (s : State) : Bool := b.int && decide (s.params.waitWake = .anyRequest)

/-- One step (R218): reset, else an accepted interrupt, else idling while waiting, else the trace trap, else one
instruction. -/
def cycle (s : State) : Result :=
  let b := s.boundary
  let s := s.nextBoundary
  if b.reset then .next (resetSequence s)
  else
    match acceptedInterrupt b s with
    | some e => finish (acknowledge e { s with waiting := false })
    | none =>
      if s.waiting && !wakes b s then .next s
      else if s.psr.p then finish (acknowledge .trc { s with waiting := false })
      else runInstr { s with waiting := false }

/-- The bytes `bs` written to memory from the address `a` on, as a loader would, seen by every later fetch. -/
def placeBytes (s : State) (a : Addr) : List Byte → State
  | [] => s
  | b :: bs =>
    placeBytes { s with mem := s.mem.write a.toNat b, stale := s.stale.filter fun c => c.1 ≠ a.toNat } (a + 1) bs

/-- A state whose very next step fetches and runs the instruction placed at the PC: the core is not waiting, no trace trap
is pending and the coming boundary is quiet. -/
def State.readyToRun (s : State) : State :=
  { s with waiting := false, psr := { s.psr with p := false }, inputs := Boundary.quiet :: s.inputs }

end Sys2Proof.Machine
end

