-- ==== Sys2Proof/Machine/Step.lean ====
section
/-! DEFINITION. The step of the machine, and an instruction stored where the next step fetches it. -/

namespace Sys2Proof.Machine

open Sys2Proof

/-- One step of the machine (spec/60_exceptions.md R218). -/
def step (s : State) : Host.Outcome State Fault Refusal := cycle s

/-- `s` with the instruction whose bits are `w` (numbered as the opcode table numbers them, bits from `nbits` up 0) stored
at the PC, up to the longest instruction of 4 bytes, and ready to be run by the next step (log 30). -/
def State.withFetchWord (s : State) (nbits w : Nat) : State :=
  let v : BitVec 32 := BitVec.ofNat 32 (w % 2 ^ nbits)
  placeBytes s.readyToRun s.pc (bytesOfWord (v.extractLsb' 0 16) ++ bytesOfWord (v.extractLsb' 16 16))

end Sys2Proof.Machine
end

