-- ==== Sys2Proof/Safety.lean ====
section
/-! DEFINITION. What the claims count as a legal state and as a safe run. -/

namespace Sys2Proof

/-- The general register an instruction writes: its destination or link register (spec/30_encoding.md R112). CMPi and TBIT only
read the register in the destination position. -/
def Instr.destination : Instr → Option Reg
  | .nop => none
  | .addb _ rd => some rd
  | .addw _ rd => some rd
  | .addub _ rd => some rd
  | .adduw _ rd => some rd
  | .mulb _ rd => some rd
  | .mulw _ rd => some rd
  | .ashub _ rd => some rd
  | .ashuw _ rd => some rd
  | .lshb _ rd => some rd
  | .lshw _ rd => some rd
  | .xorb _ rd => some rd
  | .xorw _ rd => some rd
  | .cmpb _ _ => none
  | .cmpw _ _ => none
  | .andb _ rd => some rd
  | .andw _ rd => some rd
  | .addcb _ rd => some rd
  | .addcw _ rd => some rd
  | .movb _ rd => some rd
  | .movw _ rd => some rd
  | .subcb _ rd => some rd
  | .subcw _ rd => some rd
  | .orb _ rd => some rd
  | .orw _ rd => some rd
  | .subb _ rd => some rd
  | .subw _ rd => some rd
  | .tbit _ _ => none
  | .movxb _ rd => some rd
  | .movzb _ rd => some rd
  | .seq rd => some rd
  | .sne rd => some rd
  | .scs rd => some rd
  | .scc rd => some rd
  | .shi rd => some rd
  | .sls rd => some rd
  | .sgt rd => some rd
  | .sle rd => some rd
  | .sfs rd => some rd
  | .sfc rd => some rd
  | .slo rd => some rd
  | .shs rd => some rd
  | .slt rd => some rd
  | .sge rd => some rd
  | .lpr _ _ => none
  | .spr _ rd => some rd
  | .retx => none
  | .excp _ => none
  | .di => none
  | .ei => none
  | .wait => none
  | .beq _ => none
  | .bne _ => none
  | .bcs _ => none
  | .bcc _ => none
  | .bhi _ => none
  | .bls _ => none
  | .bgt _ => none
  | .ble _ => none
  | .bfs _ => none
  | .bfc _ => none
  | .blo _ => none
  | .bhs _ => none
  | .blt _ => none
  | .bge _ => none
  | .br _ => none
  | .bal link _ => some link
  | .jeq _ => none
  | .jne _ => none
  | .jcs _ => none
  | .jcc _ => none
  | .jhi _ => none
  | .jls _ => none
  | .jgt _ => none
  | .jle _ => none
  | .jfs _ => none
  | .jfc _ => none
  | .jlo _ => none
  | .jhs _ => none
  | .jlt _ => none
  | .jge _ => none
  | .jump _ => none
  | .jal link _ => some link
  | .loadb _ rd => some rd
  | .loadw _ rd => some rd
  | .storb _ _ => none
  | .storw _ _ => none
  | .und _ => none

end Sys2Proof

namespace Sys2Proof.Machine

open Sys2Proof

/-- The PC is a code address: bits 17 and 0 are 0 (spec/10_state.md R14). -/
abbrev State.pcLegal (s : State) : Prop := s.pc.getLsbD 17 = false ∧ s.pc.getLsbD 0 = false

/-- An interrupt-stack or dispatch-table address: bits 17, 16 and 0 are 0 (spec/10_state.md R20, R21). -/
abbrev tableLegal (a : Addr) : Prop := a.getLsbD 17 = false ∧ a.getLsbD 16 = false ∧ a.getLsbD 0 = false

/-- The invariant of the machine: the constant bits of PC, ISP and INTBASE are 0 (R14, R20, R21), CFG holds 0 (R33, R39) and
memory has its canonical form. -/
abbrev State.Inv (s : State) : Prop :=
  s.pcLegal ∧ tableLegal s.isp ∧ tableLegal s.intbase ∧ s.cfg = 0#16 ∧ s.mem.wf = true

/-- The core is at a boundary at which it begins an instruction: no reset, no accepted interrupt, not waiting, no trace trap
pending (spec/60_exceptions.md R218). -/
abbrev State.runsInstr (s : State) : Prop :=
  s.boundary.reset = false ∧ acceptedInterrupt s.boundary s = none ∧ s.waiting = false ∧ s.psr.p = false

/-- The state in which the instruction at the PC executes: the boundary is used up and P is a copy of T
(spec/60_exceptions.md R218, R230). -/
def State.started (s : State) : State :=
  { s with inputs := s.inputs.tail, psr := { s.psr with p := s.psr.t } }

/-- `s` after an instruction of length `len` that writes nothing but the PC (spec/10_state.md R17, log 14). -/
def State.past (s : State) (len : Nat) : State :=
  { s with pc := BitVec.ofNat 18 ((s.pc.toNat + len) % 0x20000) }

/-- `s` after an instruction of length `len` whose one effect is that register `r` holds `v`. -/
def State.result (s : State) (r : Reg) (v : Word) (len : Nat) : State :=
  { s with regs := s.regs.set r.toNat v, pc := BitVec.ofNat 18 ((s.pc.toNat + len) % 0x20000) }

/-- A register's low byte (spec/10_state.md R12). -/
def lowByte (w : Word) : Byte := w.extractLsb' 0 8

/-- A register whose low byte is replaced and whose high byte is kept (spec/10_state.md R12). -/
def byteInto (old : Word) (v : Byte) : Word := old.extractLsb' 8 8 ++ v

/-- An address with bits 17 and 0 cleared to 0, as every write of the PC leaves it (spec/47_jumps_linkage.md R170). -/
def codeAddr (a : Addr) : Addr := a &&& 0x1FFFE#18

/-- The code address kept in 16 bits: bits 17 and 0 are 0 (spec/10_state.md R15). -/
def codeOfWord (v : Word) : Addr := v.setWidth 18 <<< 1

/-- The 16 bits a code address is kept in: its bits 16..1 (spec/10_state.md R15). -/
def wordOfCode (a : Addr) : Word := (a >>> 1).setWidth 16

/-- A word of memory as its two bytes, the low one at the address (spec/20_memory.md R54, R55). -/
def wordAt (m : Memory) (a : Nat) : Word := m.read (a + 1) ++ m.read a

/-- The `n` bytes from `a` on lie in memory: outside the reserved range, or the platform decodes memory there
(spec/20_memory.md R52, D20, log 12). -/
abbrev inMemory (s : State) (a n : Nat) : Prop :=
  a + n ≤ 0xFC00 ∨ 0x10000 ≤ a ∨ s.params.reservedRegionAccess = .memory

/-- An access to the `n` bytes from `a` on has a meaning: they lie outside the reserved range, or RESERVED_REGION_ACCESS gives
it one (spec/20_memory.md R52, D20, log 12). -/
abbrev permitted (s : State) (a n : Nat) : Prop :=
  a + n ≤ 0xFC00 ∨ 0x10000 ≤ a ∨ s.params.reservedRegionAccess ≠ .refuse

/-- The sum that makes the effective address has a meaning (spec/20_memory.md R60, D2, log 15). -/
abbrev sumPermitted (s : State) (m : MemOp) : Prop := s.params.addrWrap = .modulo ∨ s.effectiveSum m < 2 ^ 18

/-- The operand of `n` bytes of a load or a store lies in memory, all of it inside the address space (spec/20_memory.md R52,
R55, R60). -/
abbrev accessible (s : State) (m : MemOp) (n : Nat) : Prop :=
  sumPermitted s m ∧ inMemory s (s.effectiveAddr m).toNat n ∧ (s.effectiveAddr m).toNat + n ≤ 0x40000

/-- The instruction byte number `k` from the PC on, in the code space of 2^17 bytes (spec/20_memory.md R57). -/
def codeByte (s : State) (k : Nat) : Nat := (s.pc.toNat + k) % 0x20000

/-- A fetch of the first `n` instruction bytes sees memory as it is: they lie in memory, and no earlier value is noted for any of
them (spec/20_memory.md R52, R66). -/
abbrev fetchesMemory (s : State) (n : Nat) : Prop :=
  ∀ k, k < n → inMemory s (codeByte s k) 1 ∧ s.earlier (codeByte s k) = []

/-- The lowest address of the frame an exception pushes: ISP - 4 modulo 2^16 (spec/60_exceptions.md R220, D11, log 16). -/
def frameAddr (s : State) : Nat := (s.isp.toNat + 0xFFFC) % 0x10000

/-- The address of entry `n` of the dispatch table (spec/60_exceptions.md R211). -/
def entryAddr (s : State) (n : Nat) : Addr := s.intbase + BitVec.ofNat 18 (2 * n)

/-- ISP - 4 has a meaning (D11, log 16). -/
abbrev pushPermitted (s : State) : Prop := s.params.ispWrap = .modulo ∨ 4 ≤ s.isp.toNat % 0x10000

/-- ISP + 4 has a meaning (D11, log 16). -/
abbrev popPermitted (s : State) : Prop := s.params.ispWrap = .modulo ∨ s.isp.toNat % 0x10000 < 0xFFFC

/-- The word at `a` has both its bytes (spec/20_memory.md R55, D3, log 13); at an even address it always has. -/
abbrev wordPermitted (s : State) (a : Addr) : Prop := a ≠ 0x3FFFF#18 ∨ s.params.wordAtTop = .wrap

/-- The frame and the table entry of exception number `n` lie in memory (spec/60_exceptions.md R237). -/
abbrev entersInMemory (s : State) (n : Nat) : Prop :=
  pushPermitted s ∧ inMemory s (frameAddr s) 4 ∧ inMemory s (entryAddr s n).toNat 2 ∧ wordPermitted s (entryAddr s n)

/-- The accesses of the acknowledge sequence of exception number `n` have a meaning (spec/60_exceptions.md R237). -/
abbrev entryPermitted (s : State) (n : Nat) : Prop :=
  pushPermitted s ∧ permitted s (frameAddr s) 4 ∧ permitted s (entryAddr s n).toNat 2 ∧ wordPermitted s (entryAddr s n)

/-- The frame or the table entry of exception number `n` touches the reserved range (spec/20_memory.md R52). -/
abbrev entryReserved (s : State) (n : Nat) : Prop :=
  0xFC00 < frameAddr s + 4 ∨ (0xFC00 < (entryAddr s n).toNat + 2 ∧ (entryAddr s n).toNat < 0x10000)

/-- The named bits of a PSR word (spec/10_state.md R22, R31). -/
def psrOfWord (v : Word) : Psr :=
  { c := v.getLsbD 0, t := v.getLsbD 1, l := v.getLsbD 2, f := v.getLsbD 5, z := v.getLsbD 6, n := v.getLsbD 7,
    e := v.getLsbD 9, p := v.getLsbD 10, i := v.getLsbD 11 }

/-- A word that shows the PSR `r`: its named bits are `r`'s, its constant bits 3, 4 and 8 are 0, and its reserved bits 15..12
are any (spec/10_state.md R31). -/
abbrev showsPsr (v : Word) (r : Psr) : Prop :=
  psrOfWord v = r ∧ v.getLsbD 3 = false ∧ v.getLsbD 4 = false ∧ v.getLsbD 8 = false

/-- `t` is `s` after the acknowledge sequence of the exception number `n` in memory (spec/60_exceptions.md R220): ISP is down by 4
modulo 2^16 (log 16), the frame of R223 holds the return address and the PSR `saved`, every other byte of memory is as
it was, T and P are cleared and I becomes `keepI`, the PC comes from the dispatch table (R211, R224), no store is left
unserialized, one free value is drawn, and everything else is as it was. -/
def entered (s t : State) (saved : Psr) (keepI : Bool) (n : Nat) : Prop :=
  t.isp = BitVec.ofNat 18 (frameAddr s) ∧
  wordAt t.mem t.isp.toNat = wordOfCode s.pc ∧
  showsPsr (wordAt t.mem (t.isp.toNat + 2)) saved ∧
  (∀ x, x < t.isp.toNat ∨ t.isp.toNat + 4 ≤ x → t.mem.read x = s.mem.read x) ∧
  t.psr = { s.psr with t := false, p := false, i := keepI } ∧
  t.pc = codeOfWord (t.mem.readWord (entryAddr s n)) ∧
  t = { s with isp := t.isp, mem := t.mem, psr := t.psr, pc := t.pc, stale := [], draws := s.draws + 1 }

/-- A run of `k` steps that meets no fault and no refusal. -/
def Safe : Nat → State → Prop
  | 0, _ => True
  | k + 1, s => ∃ t, step s = .next t ∧ Safe k t

end Sys2Proof.Machine
end

