-- ==== Sys2Proof/WellFormed.lean ====
section
/-! DEFINITION. Which instruction terms an encoding can hold (spec/30_encoding.md R85, R89, R91, R94 to R97, R107). -/

namespace Sys2Proof

/-- A short immediate is any 5-bit pattern but 10001, the escape to the medium format (R85). -/
def Src.wf : Src → Bool
  | .reg _ => true
  | .short imm => imm != 0b10001#5
  | .medium _ => true

/-- A short displacement has not both d4 and d0 set (R89), and the far pair register is not SP (R91). -/
def MemOp.wf : MemOp → Bool
  | .relShort disp _ => !(disp.getLsbD 4 && disp.getLsbD 0)
  | .relMedium _ _ => true
  | .far _ pair => pair != Reg.sp
  | .abs _ => true

/-- Branch displacements are even (R94 to R96). -/
def Disp.wf : Disp → Bool
  | .short d => !d.getLsbD 0
  | .medium d => !d.getLsbD 0

/-- The terms that an encoding can hold. ADDUB of the short immediate 0 to R0 is excluded: its word is NOP's own row of
the opcode table (R107). -/
def Instr.wf : Instr → Bool
  | .nop => true
  | .addub src rd => src.wf && !(src == .short 0 && rd == 0)
  | .addb x _ => x.wf
  | .addw x _ => x.wf
  | .adduw x _ => x.wf
  | .mulb x _ => x.wf
  | .mulw x _ => x.wf
  | .ashub x _ => x.wf
  | .ashuw x _ => x.wf
  | .lshb x _ => x.wf
  | .lshw x _ => x.wf
  | .xorb x _ => x.wf
  | .xorw x _ => x.wf
  | .cmpb x _ => x.wf
  | .cmpw x _ => x.wf
  | .andb x _ => x.wf
  | .andw x _ => x.wf
  | .addcb x _ => x.wf
  | .addcw x _ => x.wf
  | .movb x _ => x.wf
  | .movw x _ => x.wf
  | .subcb x _ => x.wf
  | .subcw x _ => x.wf
  | .orb x _ => x.wf
  | .orw x _ => x.wf
  | .subb x _ => x.wf
  | .subw x _ => x.wf
  | .tbit x _ => x.wf
  | .movxb _ _ => true
  | .movzb _ _ => true
  | .seq _ => true
  | .sne _ => true
  | .scs _ => true
  | .scc _ => true
  | .shi _ => true
  | .sls _ => true
  | .sgt _ => true
  | .sle _ => true
  | .sfs _ => true
  | .sfc _ => true
  | .slo _ => true
  | .shs _ => true
  | .slt _ => true
  | .sge _ => true
  | .lpr _ _ => true
  | .spr _ _ => true
  | .retx => true
  | .excp _ => true
  | .di => true
  | .ei => true
  | .wait => true
  | .beq d => d.wf
  | .bne d => d.wf
  | .bcs d => d.wf
  | .bcc d => d.wf
  | .bhi d => d.wf
  | .bls d => d.wf
  | .bgt d => d.wf
  | .ble d => d.wf
  | .bfs d => d.wf
  | .bfc d => d.wf
  | .blo d => d.wf
  | .bhs d => d.wf
  | .blt d => d.wf
  | .bge d => d.wf
  | .br d => d.wf
  | .bal _ d => !d.getLsbD 0
  | .jeq _ => true
  | .jne _ => true
  | .jcs _ => true
  | .jcc _ => true
  | .jhi _ => true
  | .jls _ => true
  | .jgt _ => true
  | .jle _ => true
  | .jfs _ => true
  | .jfc _ => true
  | .jlo _ => true
  | .jhs _ => true
  | .jlt _ => true
  | .jge _ => true
  | .jump _ => true
  | .jal _ _ => true
  | .loadb m _ => m.wf
  | .loadw m _ => m.wf
  | .storb _ m => m.wf
  | .storw _ m => m.wf
  | .und _ => true

end Sys2Proof
end

