-- ==== Sys2Proof/Certificates/Slice0/Obligations.lean ====
section
/-! DEFINITION. The statements about the CR16A, for the provers. -/

open Sys2Proof Sys2Proof.Machine

/-- For every state, source operand and registers, exec of MOVB answers the state in which the low byte of the
destination is the byte source operand and its high byte is kept, exec of MOVW the one in which the destination is
the word source operand, exec of MOVXB the one in which the destination word has the signed value of the low byte of
the source register and exec of MOVZB the one in which it has its unsigned value; the PC goes to the next
instruction and everything else is unchanged. The PC's reduction modulo 2^17 is the spec's decision D4 (log 14).
Rests on 40_moves.md rule R120, 40_moves.md rule R121, 40_moves.md rule R122, 10_state.md rule R12, 10_state.md rule
R17. -/
def Obligations.MoveResults : Prop :=
  ∀ (s : State) (src : Src) (rs rd : Reg),
    exec (.movb src rd) s = .next (s.result rd (byteInto (s.reg rd) (s.srcVal .byte src)) src.len) ∧
    exec (.movw src rd) s = .next (s.result rd (s.srcVal .word src) src.len) ∧
    exec (.movxb rs rd) s = .next (s.result rd (BitVec.ofInt 16 (lowByte (s.reg rs)).toInt) 2) ∧
    exec (.movzb rs rd) s = .next (s.result rd (BitVec.ofNat 16 (lowByte (s.reg rs)).toNat) 2)

/-- For every state: a register source delivers the register or its low byte; a short immediate delivers its signed
value in either width; a medium immediate delivers its word or the low byte of it. The instruction has 2 bytes in
the first two forms and 4 in the third. Rests on 30_encoding.md rule R113, 30_encoding.md rule R84, 30_encoding.md
rule R85, 30_encoding.md rule R86. -/
def Obligations.SourceOperandValues : Prop :=
  ∀ (s : State) (rs : Reg) (imm5 : BitVec 5) (imm16 : Word),
    (s.srcVal .word (.reg rs) = s.reg rs ∧ s.srcVal .byte (.reg rs) = lowByte (s.reg rs)) ∧
    ((s.srcVal .word (.short imm5)).toInt = imm5.toInt ∧ (s.srcVal .byte (.short imm5)).toInt = imm5.toInt) ∧
    (s.srcVal .word (.medium imm16) = imm16 ∧ s.srcVal .byte (.medium imm16) = lowByte imm16) ∧
    (Src.reg rs).len = 2 ∧ (Src.short imm5).len = 2 ∧ (Src.medium imm16).len = 4

/-- For every state, source operand and register, exec of ADDB and ADDW answers the state in which the destination
operand is the sum, C is the unsigned carry, F the signed overflow, the PC is at the next instruction and everything
else is unchanged. The PC's reduction modulo 2^17 is the spec's decision D4 (log 14). Rests on
41_integer_arithmetic.md rule R131, 41_integer_arithmetic.md rule R130, 10_state.md rule R12, 10_state.md rule R17. -/
def Obligations.AddResults : Prop :=
  ∀ (s : State) (src : Src) (rd : Reg),
    (let a := lowByte (s.reg rd)
     let b : Byte := s.srcVal .byte src
     exec (.addb src rd) s = .next
      { s.result rd (byteInto (s.reg rd) (a + b)) src.len with
        psr := { s.psr with c := decide (256 ≤ a.toNat + b.toNat), f := decide (a.toInt + b.toInt < -128 ∨ 127 < a.toInt + b.toInt) } }) ∧
    (let a := s.reg rd
     let b : Word := s.srcVal .word src
     exec (.addw src rd) s = .next
      { s.result rd (a + b) src.len with
        psr := { s.psr with c := decide (65536 ≤ a.toNat + b.toNat), f := decide (a.toInt + b.toInt < -32768 ∨ 32767 < a.toInt + b.toInt) } })

/-- For every state, source operand and register, exec of ADDUB and ADDUW answers the state in which the destination
operand is the sum, exec of MULB and MULW the one in which it is the product cut to the operation width; the PC is
at the next instruction and everything else, every flag included, is unchanged. The PC's reduction modulo 2^17 is
the spec's decision D4 (log 14). Rests on 41_integer_arithmetic.md rule R132, 41_integer_arithmetic.md rule R134,
10_state.md rule R12, 10_state.md rule R17. -/
def Obligations.FlaglessSumAndProductResults : Prop :=
  ∀ (s : State) (src : Src) (rd : Reg),
    exec (.addub src rd) s = .next
      (s.result rd (byteInto (s.reg rd) (lowByte (s.reg rd) + (s.srcVal .byte src : Byte))) src.len) ∧
    exec (.adduw src rd) s = .next (s.result rd (s.reg rd + (s.srcVal .word src : Word)) src.len) ∧
    exec (.mulb src rd) s = .next
      (s.result rd (byteInto (s.reg rd) (lowByte (s.reg rd) * (s.srcVal .byte src : Byte))) src.len) ∧
    exec (.mulw src rd) s = .next (s.result rd (s.reg rd * (s.srcVal .word src : Word)) src.len)

/-- For every state, source operand and register, exec of ADDCB and ADDCW answers the state in which the destination
operand is the sum of both operands and the old C, C is the unsigned carry and F the signed overflow of that sum,
the PC is at the next instruction and everything else is unchanged. The PC's reduction modulo 2^17 is the spec's
decision D4 (log 14). Rests on 41_integer_arithmetic.md rule R133, 41_integer_arithmetic.md rule R130, 10_state.md
rule R12, 10_state.md rule R17. -/
def Obligations.AddCarryResults : Prop :=
  ∀ (s : State) (src : Src) (rd : Reg),
    (let a := lowByte (s.reg rd)
     let b : Byte := s.srcVal .byte src
     exec (.addcb src rd) s = .next
      { s.result rd (byteInto (s.reg rd) (a + b + BitVec.ofNat 8 s.psr.c.toNat)) src.len with
        psr := { s.psr with c := decide (256 ≤ a.toNat + b.toNat + s.psr.c.toNat), f := decide (a.toInt + b.toInt + (s.psr.c.toNat : Int) < -128 ∨ 127 < a.toInt + b.toInt + (s.psr.c.toNat : Int)) } }) ∧
    (let a := s.reg rd
     let b : Word := s.srcVal .word src
     exec (.addcw src rd) s = .next
      { s.result rd (a + b + BitVec.ofNat 16 s.psr.c.toNat) src.len with
        psr := { s.psr with c := decide (65536 ≤ a.toNat + b.toNat + s.psr.c.toNat), f := decide (a.toInt + b.toInt + (s.psr.c.toNat : Int) < -32768 ∨ 32767 < a.toInt + b.toInt + (s.psr.c.toNat : Int)) } })

/-- For every state, source operand and register, exec of SUBB and SUBW answers the state in which the destination
operand is destination minus source, C is 1 exactly when a borrow occurs, F is the signed overflow, the PC is at the
next instruction and everything else is unchanged. C as the borrow is the resolution of conflict C2 (log 27). The
PC's reduction modulo 2^17 is the spec's decision D4 (log 14). Rests on 41_integer_arithmetic.md rule R135,
41_integer_arithmetic.md rule R130, 90_conflicts.md C2, 10_state.md rule R12, 10_state.md rule R17. -/
def Obligations.SubtractResults : Prop :=
  ∀ (s : State) (src : Src) (rd : Reg),
    (let a := lowByte (s.reg rd)
     let b : Byte := s.srcVal .byte src
     exec (.subb src rd) s = .next
      { s.result rd (byteInto (s.reg rd) (a - b)) src.len with
        psr := { s.psr with c := decide (a.toNat < b.toNat), f := decide (a.toInt - b.toInt < -128 ∨ 127 < a.toInt - b.toInt) } }) ∧
    (let a := s.reg rd
     let b : Word := s.srcVal .word src
     exec (.subw src rd) s = .next
      { s.result rd (a - b) src.len with
        psr := { s.psr with c := decide (a.toNat < b.toNat), f := decide (a.toInt - b.toInt < -32768 ∨ 32767 < a.toInt - b.toInt) } })

/-- For every state, source operand and register, exec of SUBCB and SUBCW answers the state in which the destination
operand is destination minus source minus the old C, C is 1 exactly when a borrow occurs, F is the signed overflow,
the PC is at the next instruction and everything else is unchanged. The PC's reduction modulo 2^17 is the spec's
decision D4 (log 14). Rests on 41_integer_arithmetic.md rule R136, 41_integer_arithmetic.md rule R130, 10_state.md
rule R12, 10_state.md rule R17. -/
def Obligations.SubtractCarryResults : Prop :=
  ∀ (s : State) (src : Src) (rd : Reg),
    (let a := lowByte (s.reg rd)
     let b : Byte := s.srcVal .byte src
     exec (.subcb src rd) s = .next
      { s.result rd (byteInto (s.reg rd) (a - b - BitVec.ofNat 8 s.psr.c.toNat)) src.len with
        psr := { s.psr with c := decide (a.toNat < b.toNat + s.psr.c.toNat), f := decide (a.toInt - b.toInt - (s.psr.c.toNat : Int) < -128 ∨ 127 < a.toInt - b.toInt - (s.psr.c.toNat : Int)) } }) ∧
    (let a := s.reg rd
     let b : Word := s.srcVal .word src
     exec (.subcw src rd) s = .next
      { s.result rd (a - b - BitVec.ofNat 16 s.psr.c.toNat) src.len with
        psr := { s.psr with c := decide (a.toNat < b.toNat + s.psr.c.toNat), f := decide (a.toInt - b.toInt - (s.psr.c.toNat : Int) < -32768 ∨ 32767 < a.toInt - b.toInt - (s.psr.c.toNat : Int)) } })

/-- For every state and registers where ra is neither rb nor rd: ADDW of rc into ra followed by ADDCW of rd into rb
leaves in rb:ra the 32-bit sum of rb:ra and rd:rc, and C is the carry out of that sum; SUBW of rc from ra followed
by SUBCW of rd from rb leaves in rb:ra the 32-bit difference of rb:ra and rd:rc, and C is 1 exactly when it needs a
borrow. C as the borrow is the resolution of conflict C2 (log 27). Rests on 41_integer_arithmetic.md rule R136,
41_integer_arithmetic.md rule R135, 41_integer_arithmetic.md rule R131, 41_integer_arithmetic.md rule R133. -/
def Obligations.MultiWordAdditionAndSubtraction : Prop :=
  ∀ (s : State) (ra rb rc rd : Reg), ra ≠ rb → ra ≠ rd →
    (∃ t u, exec (.addw (.reg rc) ra) s = .next t ∧ exec (.addcw (.reg rd) rb) t = .next u ∧
      (u.reg rb ++ u.reg ra : BitVec 32) = (s.reg rb ++ s.reg ra) + (s.reg rd ++ s.reg rc) ∧
      u.psr.c = decide (2 ^ 32 ≤ (s.reg rb ++ s.reg ra : BitVec 32).toNat + (s.reg rd ++ s.reg rc : BitVec 32).toNat)) ∧
    (∃ t u, exec (.subw (.reg rc) ra) s = .next t ∧ exec (.subcw (.reg rd) rb) t = .next u ∧
      (u.reg rb ++ u.reg ra : BitVec 32) = (s.reg rb ++ s.reg ra) - (s.reg rd ++ s.reg rc) ∧
      u.psr.c = decide ((s.reg rb ++ s.reg ra : BitVec 32).toNat < (s.reg rd ++ s.reg rc : BitVec 32).toNat))

/-- For every state, source operand and register, exec of CMPB and CMPW answers the state in which Z says the operands
are equal, N that the first is the greater as signed numbers, L that it is the greater as unsigned numbers, the PC
is at the next instruction and everything else is unchanged. The PC's reduction modulo 2^17 is the spec's decision
D4 (log 14). Rests on 42_integer_comparison.md rule R140, 10_state.md rule R17. -/
def Obligations.CompareFlags : Prop :=
  ∀ (s : State) (src : Src) (rd : Reg),
    (let s1 : Byte := s.srcVal .byte src
     let s2 := lowByte (s.reg rd)
     exec (.cmpb src rd) s = .next
      { s.past src.len with
        psr := { s.psr with z := decide (s1 = s2), n := decide (s2.toInt < s1.toInt), l := decide (s2.toNat < s1.toNat) } }) ∧
    (let s1 : Word := s.srcVal .word src
     let s2 := s.reg rd
     exec (.cmpw src rd) s = .next
      { s.past src.len with
        psr := { s.psr with z := decide (s1 = s2), n := decide (s2.toInt < s1.toInt), l := decide (s2.toNat < s1.toNat) } })

/-- For every state, source operand and register, exec of each of the six answers the state in which the destination
operand is the bitwise AND, OR or XOR of both operands, the PC is at the next instruction and everything else is
unchanged. The PC's reduction modulo 2^17 is the spec's decision D4 (log 14). Rests on 43_logical_boolean.md rule
R145, 43_logical_boolean.md rule R146, 43_logical_boolean.md rule R147, 10_state.md rule R12, 10_state.md rule R17. -/
def Obligations.LogicResults : Prop :=
  ∀ (s : State) (src : Src) (rd : Reg),
    exec (.andb src rd) s = .next
      (s.result rd (byteInto (s.reg rd) (lowByte (s.reg rd) &&& (s.srcVal .byte src : Byte))) src.len) ∧
    exec (.andw src rd) s = .next (s.result rd (s.reg rd &&& (s.srcVal .word src : Word)) src.len) ∧
    exec (.orb src rd) s = .next
      (s.result rd (byteInto (s.reg rd) (lowByte (s.reg rd) ||| (s.srcVal .byte src : Byte))) src.len) ∧
    exec (.orw src rd) s = .next (s.result rd (s.reg rd ||| (s.srcVal .word src : Word)) src.len) ∧
    exec (.xorb src rd) s = .next
      (s.result rd (byteInto (s.reg rd) (lowByte (s.reg rd) ^^^ (s.srcVal .byte src : Byte))) src.len) ∧
    exec (.xorw src rd) s = .next (s.result rd (s.reg rd ^^^ (s.srcVal .word src : Word)) src.len)

/-- For every state and register, exec of each Scond answers the state in which the destination is 1 if the flags its
condition names stand as the condition table says and else 0, the PC is at the next instruction and everything else
is unchanged. The PC's reduction modulo 2^17 is the spec's decision D4 (log 14). Rests on 43_logical_boolean.md rule
R148, 10_state.md rule R30, 10_state.md rule R17. -/
def Obligations.SaveConditionResults : Prop :=
  ∀ (s : State) (rd : Reg),
    let bool := fun (b : Bool) => (Host.Outcome.next (s.result rd (if b then 1 else 0) 2) : Result)
    exec (.seq rd) s = bool (s.psr.z) ∧
    exec (.sne rd) s = bool (!s.psr.z) ∧
    exec (.scs rd) s = bool (s.psr.c) ∧
    exec (.scc rd) s = bool (!s.psr.c) ∧
    exec (.shi rd) s = bool (s.psr.l) ∧
    exec (.sls rd) s = bool (!s.psr.l) ∧
    exec (.sgt rd) s = bool (s.psr.n) ∧
    exec (.sle rd) s = bool (!s.psr.n) ∧
    exec (.sfs rd) s = bool (s.psr.f) ∧
    exec (.sfc rd) s = bool (!s.psr.f) ∧
    exec (.slo rd) s = bool (!s.psr.l && !s.psr.z) ∧
    exec (.shs rd) s = bool (s.psr.l || s.psr.z) ∧
    exec (.slt rd) s = bool (!s.psr.n && !s.psr.z) ∧
    exec (.sge rd) s = bool (s.psr.n || s.psr.z)

/-- The fourteen 4-bit codes 0000 to 1101 are the conditions EQ to GE in the table order, 1110 and 1111 are no
condition, and each condition is true exactly when the flags stand as the table says. Rests on R30. -/
def Obligations.ConditionTable : Prop :=
  ∀ s : State,
    (condOf 0b0000#4 = some .eq ∧ condTrue s.psr .eq = (s.psr.z)) ∧
    (condOf 0b0001#4 = some .ne ∧ condTrue s.psr .ne = (!s.psr.z)) ∧
    (condOf 0b0010#4 = some .cs ∧ condTrue s.psr .cs = (s.psr.c)) ∧
    (condOf 0b0011#4 = some .cc ∧ condTrue s.psr .cc = (!s.psr.c)) ∧
    (condOf 0b0100#4 = some .hi ∧ condTrue s.psr .hi = (s.psr.l)) ∧
    (condOf 0b0101#4 = some .ls ∧ condTrue s.psr .ls = (!s.psr.l)) ∧
    (condOf 0b0110#4 = some .gt ∧ condTrue s.psr .gt = (s.psr.n)) ∧
    (condOf 0b0111#4 = some .le ∧ condTrue s.psr .le = (!s.psr.n)) ∧
    (condOf 0b1000#4 = some .fs ∧ condTrue s.psr .fs = (s.psr.f)) ∧
    (condOf 0b1001#4 = some .fc ∧ condTrue s.psr .fc = (!s.psr.f)) ∧
    (condOf 0b1010#4 = some .lo ∧ condTrue s.psr .lo = (!s.psr.l && !s.psr.z)) ∧
    (condOf 0b1011#4 = some .hs ∧ condTrue s.psr .hs = (s.psr.l || s.psr.z)) ∧
    (condOf 0b1100#4 = some .lt ∧ condTrue s.psr .lt = (!s.psr.n && !s.psr.z)) ∧
    (condOf 0b1101#4 = some .ge ∧ condTrue s.psr .ge = (s.psr.n || s.psr.z)) ∧
    condOf 0b1110#4 = none ∧ condOf 0b1111#4 = none

/-- For every state, count operand and register: if the signed low byte of the count is within -7 to 7 (byte) or -15 to
15 (word), exec answers the state in which the destination operand is the old one times 2^count cut to the width
(count not negative) or its signed value divided by 2^(-count) rounded toward minus infinity (count negative), the
PC is at the next instruction and everything else is unchanged. The PC's reduction modulo 2^17 is the spec's
decision D4 (log 14). Rests on 44_shifts.md rule R155, 10_state.md rule R12, 10_state.md rule R17. -/
def Obligations.ArithmeticShiftResults : Prop :=
  ∀ (s : State) (count : Src) (rd : Reg),
    let c := (s.srcVal .byte count).toInt
    (-7 ≤ c → c ≤ 7 → ∃ v : Byte,
      exec (.ashub count rd) s = .next (s.result rd (byteInto (s.reg rd) v) count.len) ∧
      (0 ≤ c → v.toNat = (lowByte (s.reg rd)).toNat * 2 ^ c.toNat % 256) ∧
      (c < 0 → v.toInt = Int.fdiv (lowByte (s.reg rd)).toInt (2 ^ (-c).toNat))) ∧
    (-15 ≤ c → c ≤ 15 → ∃ v : Word,
      exec (.ashuw count rd) s = .next (s.result rd v count.len) ∧
      (0 ≤ c → v.toNat = (s.reg rd).toNat * 2 ^ c.toNat % 65536) ∧
      (c < 0 → v.toInt = Int.fdiv (s.reg rd).toInt (2 ^ (-c).toNat)))

/-- For every state, count operand and register: if the signed low byte of the count is within -7 to 7 (byte) or -15 to
15 (word), exec answers the state in which the destination operand is the old one times 2^count cut to the width
(count not negative) or its unsigned value divided by 2^(-count) rounded down (count negative), the PC is at the
next instruction and everything else is unchanged. The PC's reduction modulo 2^17 is the spec's decision D4 (log
14). Rests on 44_shifts.md rule R156, 10_state.md rule R12, 10_state.md rule R17. -/
def Obligations.LogicalShiftResults : Prop :=
  ∀ (s : State) (count : Src) (rd : Reg),
    let c := (s.srcVal .byte count).toInt
    (-7 ≤ c → c ≤ 7 → ∃ v : Byte,
      exec (.lshb count rd) s = .next (s.result rd (byteInto (s.reg rd) v) count.len) ∧
      (0 ≤ c → v.toNat = (lowByte (s.reg rd)).toNat * 2 ^ c.toNat % 256) ∧
      (c < 0 → v.toNat = (lowByte (s.reg rd)).toNat / 2 ^ (-c).toNat)) ∧
    (-15 ≤ c → c ≤ 15 → ∃ v : Word,
      exec (.lshw count rd) s = .next (s.result rd v count.len) ∧
      (0 ≤ c → v.toNat = (s.reg rd).toNat * 2 ^ c.toNat % 65536) ∧
      (c < 0 → v.toNat = (s.reg rd).toNat / 2 ^ (-c).toNat))

/-- For every state, count operand and register: if the signed low byte of the count is outside -7 to 7 (byte) or -15 to
15 (word), exec of the two shifts of that width answers a next state in which the low byte (byte forms) or the word
of the destination is some value, one free value is drawn, the PC is at the next instruction and everything else is
unchanged. That only the result is open is the decision D21 (log 6). The PC's reduction modulo 2^17 is the spec's
decision D4 (log 14). Rests on 44_shifts.md rule R155, 44_shifts.md rule R156, 92_eei_decisions.md D21, 10_state.md
rule R17, 92_eei_decisions.md D4. -/
def Obligations.ShiftOutOfRangeFrame : Prop :=
  ∀ (s : State) (count : Src) (rd : Reg),
    let c := (s.srcVal .byte count).toInt
    (c < -7 ∨ 7 < c →
      (∃ v : Byte, exec (.ashub count rd) s =
        .next { s.result rd (byteInto (s.reg rd) v) count.len with draws := s.draws + 1 }) ∧
      (∃ v : Byte, exec (.lshb count rd) s =
        .next { s.result rd (byteInto (s.reg rd) v) count.len with draws := s.draws + 1 })) ∧
    (c < -15 ∨ 15 < c →
      (∃ v : Word, exec (.ashuw count rd) s = .next { s.result rd v count.len with draws := s.draws + 1 }) ∧
      (∃ v : Word, exec (.lshw count rd) s = .next { s.result rd v count.len with draws := s.draws + 1 }))

/-- For every state, offset operand and register, exec of TBIT answers the state in which F is the bit of the register
at the offset if the offset is at most 15, and is some value (one free value is drawn) if it is above 15; the PC is
at the next instruction and everything else is unchanged. That only F is open is the decision D21 (log 6). The PC's
reduction modulo 2^17 is the spec's decision D4 (log 14). Rests on 45_bits.md rule R160, 92_eei_decisions.md D21,
10_state.md rule R17. -/
def Obligations.TestBitFlag : Prop :=
  ∀ (s : State) (offset : Src) (rs : Reg),
    let off := (s.srcVal .word offset).toNat
    (off ≤ 15 → exec (.tbit offset rs) s = .next
      { s.past offset.len with psr := { s.psr with f := (s.reg rs).toNat / 2 ^ off % 2 == 1 } }) ∧
    (15 < off → ∃ b : Bool, exec (.tbit offset rs) s = .next
      { s.past offset.len with psr := { s.psr with f := b }, draws := s.draws + 1 })

/-- For every state and register, exec of LPR answers the state in which the PSR has the nine named bits of the register
(the other bits are ignored, decision D9, log 7), or INTBASE or ISP has bits 15 to 1 of the register and bits 17, 16
and 0 zero; no store is left unserialized, the PC is at the next instruction and everything else is unchanged. The
PC's reduction modulo 2^17 is the spec's decision D4 (log 14). Rests on 46_processor_register.md rule R165,
20_memory.md rule R67, 92_eei_decisions.md D9. -/
def Obligations.LoadProcessorRegister : Prop :=
  ∀ (s : State) (rs : Reg),
    exec (.lpr rs .psr) s = .next { s.past 2 with psr := psrOfWord (s.reg rs), stale := [] } ∧
    exec (.lpr rs .intbase) s = .next { s.past 2 with intbase := (s.reg rs &&& 0xFFFE#16).setWidth 18, stale := [] } ∧
    exec (.lpr rs .isp) s = .next { s.past 2 with isp := (s.reg rs &&& 0xFFFE#16).setWidth 18, stale := [] }

/-- For every state and register, exec of SPR answers a next state in which the register holds a word that shows the PSR
(its four reserved bits are open, one free value is drawn), or bits 15 to 0 of INTBASE or ISP (conflict C1); the PC
is at the next instruction and everything else is unchanged. The PC's reduction modulo 2^17 is the spec's decision
D4 (log 14). Rests on 46_processor_register.md rule R166, 90_conflicts.md C1, 10_state.md rule R31. -/
def Obligations.StoreProcessorRegister : Prop :=
  ∀ (s : State) (rd : Reg),
    (∃ v : Word, showsPsr v s.psr ∧ exec (.spr .psr rd) s = .next { s.result rd v 2 with draws := s.draws + 1 }) ∧
    exec (.spr .intbase rd) s = .next (s.result rd (s.intbase.setWidth 16) 2) ∧
    exec (.spr .isp rd) s = .next (s.result rd (s.isp.setWidth 16) 2)

/-- For every state that meets the invariant, every processor register and every general register: SPR then LPR with
them both answer next states, after which PSR, INTBASE and ISP are what they were before. Rests on
46_processor_register.md rule R166, 46_processor_register.md rule R165. -/
def Obligations.StoreThenLoadProcessorRegister : Prop :=
  ∀ (s : State) (p : ProcReg) (r : Reg), s.Inv →
    ∃ t u, exec (.spr p r) s = .next t ∧ exec (.lpr r p) t = .next u ∧
      u.psr = s.psr ∧ u.intbase = s.intbase ∧ u.isp = s.isp

/-- For every state and displacement, exec of each Bcond answers the state whose PC is the PC plus the sign-extended
displacement with bits 17 and 0 cleared if the condition holds, and the next instruction if not; everything else is
unchanged. The PC's reduction modulo 2^17 is the spec's decision D4 (log 14). Rests on 47_jumps_linkage.md rule
R170, 47_jumps_linkage.md rule R171, 10_state.md rule R30, 10_state.md rule R17. -/
def Obligations.ConditionalBranchResults : Prop :=
  ∀ (s : State) (d : Disp),
    let go := fun (b : Bool) =>
      (Host.Outcome.next (if b then { s with pc := codeAddr (s.pc + dispValue d) } else s.past d.len) : Result)
    exec (.beq d) s = go (s.psr.z) ∧
    exec (.bne d) s = go (!s.psr.z) ∧
    exec (.bcs d) s = go (s.psr.c) ∧
    exec (.bcc d) s = go (!s.psr.c) ∧
    exec (.bhi d) s = go (s.psr.l) ∧
    exec (.bls d) s = go (!s.psr.l) ∧
    exec (.bgt d) s = go (s.psr.n) ∧
    exec (.ble d) s = go (!s.psr.n) ∧
    exec (.bfs d) s = go (s.psr.f) ∧
    exec (.bfc d) s = go (!s.psr.f) ∧
    exec (.blo d) s = go (!s.psr.l && !s.psr.z) ∧
    exec (.bhs d) s = go (s.psr.l || s.psr.z) ∧
    exec (.blt d) s = go (!s.psr.n && !s.psr.z) ∧
    exec (.bge d) s = go (s.psr.n || s.psr.z)

/-- For every state, displacement and register, exec of BR answers the state whose PC is the PC plus the sign-extended
displacement with bits 17 and 0 cleared, and exec of BAL the one in which moreover the link register holds bits 16
to 1 of the next instruction address; everything else is unchanged. The PC's reduction modulo 2^17 is the spec's
decision D4 (log 14). Rests on 47_jumps_linkage.md rule R172, 47_jumps_linkage.md rule R173, 47_jumps_linkage.md
rule R171. -/
def Obligations.BranchAndLinkResults : Prop :=
  ∀ (s : State) (d : Disp) (link : Reg) (d17 : BitVec 17),
    exec (.br d) s = .next { s with pc := codeAddr (s.pc + dispValue d) } ∧
    exec (.bal link d17) s = .next
      { s.result link (wordOfCode (s.past 4).pc) 4 with pc := codeAddr (s.pc + d17.signExtend 18) }

/-- For every state whose PC has bits 17 and 0 zero and every even displacement, the target of a PC-relative branch,
short or medium, is the PC plus the signed displacement modulo 2^17. Rests on 47_jumps_linkage.md rule R171,
30_encoding.md rule R94, 30_encoding.md rule R101. -/
def Obligations.BranchTargetIsModular : Prop :=
  ∀ (s : State) (d : Disp), s.pcLegal → d.wf = true →
    ((s.branchTarget (dispValue d)).toNat : Int) =
      ((s.pc.toNat : Int) + (match d with | .short x => x.toInt | .medium x => x.toInt)) % 2 ^ 17

/-- For every state and register, exec of each Jcond answers the state whose PC has bits 16 to 1 from the register and
bits 17 and 0 zero if the condition holds, and the next instruction if not; everything else is unchanged. The PC's
reduction modulo 2^17 is the spec's decision D4 (log 14). Rests on 47_jumps_linkage.md rule R175, 10_state.md rule
R15, 10_state.md rule R30, 10_state.md rule R17. -/
def Obligations.ConditionalJumpResults : Prop :=
  ∀ (s : State) (r : Reg),
    let go := fun (b : Bool) =>
      (Host.Outcome.next (if b then { s with pc := codeOfWord (s.reg r) } else s.past 2) : Result)
    exec (.jeq r) s = go (s.psr.z) ∧
    exec (.jne r) s = go (!s.psr.z) ∧
    exec (.jcs r) s = go (s.psr.c) ∧
    exec (.jcc r) s = go (!s.psr.c) ∧
    exec (.jhi r) s = go (s.psr.l) ∧
    exec (.jls r) s = go (!s.psr.l) ∧
    exec (.jgt r) s = go (s.psr.n) ∧
    exec (.jle r) s = go (!s.psr.n) ∧
    exec (.jfs r) s = go (s.psr.f) ∧
    exec (.jfc r) s = go (!s.psr.f) ∧
    exec (.jlo r) s = go (!s.psr.l && !s.psr.z) ∧
    exec (.jhs r) s = go (s.psr.l || s.psr.z) ∧
    exec (.jlt r) s = go (!s.psr.n && !s.psr.z) ∧
    exec (.jge r) s = go (s.psr.n || s.psr.z)

/-- For every state and registers, exec of JUMP answers the state whose PC is twice the target register, and exec of JAL
the one in which moreover the link register holds bits 16 to 1 of the next instruction address, the target being the
old value even if both are one register (decision D15, log 20); everything else is unchanged. The PC's reduction
modulo 2^17 is the spec's decision D4 (log 14). Rests on 47_jumps_linkage.md rule R176, 47_jumps_linkage.md rule
R177, 92_eei_decisions.md D15. -/
def Obligations.JumpAndLinkResults : Prop :=
  ∀ (s : State) (r link : Reg),
    exec (.jump r) s = .next { s with pc := codeOfWord (s.reg r) } ∧
    exec (.jal link r) s = .next { s.result link (wordOfCode (s.past 2).pc) 2 with pc := codeOfWord (s.reg r) }

/-- For every state: a relative address is the zero-extended base register plus the displacement, a far-relative one,
whose pair register is any but SP, the 18-bit base made of the register and the two low bits of the next register
(SP after RA, decision D17, log 21) plus the displacement, all modulo 2^18 (decision D2, log 15), and an absolute
one is the field itself. The short form has 2 bytes, the others 4. Rests on 48_load_store.md rule R192,
48_load_store.md rule R193, 48_load_store.md rule R194, 48_load_store.md rule R195, 30_encoding.md rule R91,
92_eei_decisions.md D2, 92_eei_decisions.md D17. -/
def Obligations.EffectiveAddresses : Prop :=
  ∀ (s : State) (b : Reg) (d5 : BitVec 5) (d18 : BitVec 18),
    (s.effectiveAddr (.relShort d5 b)).toNat = (s.reg b).toNat + d5.toNat ∧
    (s.effectiveAddr (.relMedium d18 b)).toNat = ((s.reg b).toNat + d18.toNat) % 2 ^ 18 ∧
    (b ≠ Reg.sp → (s.effectiveAddr (.far d18 b)).toNat =
      ((s.reg (b + 1)).toNat % 4 * 65536 + (s.reg b).toNat + d18.toNat) % 2 ^ 18) ∧
    s.effectiveAddr (.abs d18) = d18 ∧
    (MemOp.relShort d5 b).len = 2 ∧ (MemOp.relMedium d18 b).len = 4 ∧ (MemOp.far d18 b).len = 4 ∧ (MemOp.abs d18).len = 4

/-- For every state, memory operand and register whose operand lies in memory (outside the reserved range or where the
platform decodes memory there, decision D20, log 12; inside the address space): exec of LOADB answers the state in
which the low byte of the register is the byte there and the high byte is kept, exec of LOADW the one in which the
register is the little-endian word there at any alignment; where WORD_AT_TOP is wrap, LOADW at 0x3FFFF takes its
high byte from address 0 (decision D3, log 13). Where a device answers in the reserved range (log 12), the byte, or
a word with a byte there, is some value and only free values are drawn besides. The PC is at the next instruction
and everything else is unchanged. PC modulo 2^17 is D4 (log 14). Rests on 48_load_store.md rule R190, 20_memory.md
rule R55, 20_memory.md rule R58, 10_state.md rule R12, 92_eei_decisions.md D3, 92_eei_decisions.md D20. -/
def Obligations.LoadResults : Prop :=
  ∀ (s : State) (m : MemOp) (rd : Reg),
    let a := s.effectiveAddr m
    (accessible s m 1 →
      exec (.loadb m rd) s = .next (s.result rd (byteInto (s.reg rd) (s.mem.read a.toNat)) m.len)) ∧
    (accessible s m 2 → exec (.loadw m rd) s = .next (s.result rd (wordAt s.mem a.toNat) m.len)) ∧
    (sumPermitted s m → a.toNat = 0x3FFFF → s.params.wordAtTop = .wrap →
      exec (.loadw m rd) s = .next (s.result rd (s.mem.read 0 ++ s.mem.read 0x3FFFF) m.len)) ∧
    (sumPermitted s m → s.params.reservedRegionAccess = .device →
      (0xFC00 ≤ a.toNat → a.toNat ≤ 0xFFFF → ∃ v : Byte,
        exec (.loadb m rd) s = .next { s.result rd (byteInto (s.reg rd) v) m.len with draws := s.draws + 1 }) ∧
      (0xFBFF ≤ a.toNat → a.toNat ≤ 0xFFFF → ∃ (v : Word) (k : Nat),
        exec (.loadw m rd) s = .next { s.result rd v m.len with draws := s.draws + k }))

/-- For every state with canonical memory, memory operand and register whose operand lies in memory (log 12): exec of
STORB answers a next state in which the byte at the effective address is the low byte of the register, exec of STORW
one in which the byte there is the low byte and the byte above it the high byte (at 0x3FFFF, where WORD_AT_TOP is
wrap, the byte at 0: decision D3, log 13); every other byte of memory reads as before, and the earlier values of the
bytes stored are noted for unserialized fetches (the decision D25 in the form of the model, log 25). Where a device
answers in the reserved range (decision D20, log 12), a byte stored there changes no memory. The PC is at the next
instruction and everything else is unchanged. PC modulo 2^17 is D4 (log 14). Rests on 48_load_store.md rule R191,
20_memory.md rule R56, 20_memory.md rule R58, 20_memory.md rule R66, 92_eei_decisions.md D25, 92_eei_decisions.md
D3, 92_eei_decisions.md D20. -/
def Obligations.StoreResults : Prop :=
  ∀ (s : State) (m : MemOp) (rs : Reg), s.mem.wf = true →
    let a := s.effectiveAddr m
    let hi : Byte := (s.reg rs).extractLsb' 8 8
    (accessible s m 1 → ∃ t, exec (.storb rs m) s = .next t ∧
      (∀ x, t.mem.read x = if x = a.toNat then lowByte (s.reg rs) else s.mem.read x) ∧
      t = { s.past m.len with mem := t.mem, stale := (a.toNat, s.mem.read a.toNat) :: s.stale }) ∧
    (accessible s m 2 → ∃ t, exec (.storw rs m) s = .next t ∧
      t.mem.read a.toNat = lowByte (s.reg rs) ∧ t.mem.read (a.toNat + 1) = hi ∧
      (∀ x, x < a.toNat ∨ a.toNat + 1 < x → t.mem.read x = s.mem.read x) ∧
      t = { s.past m.len with
        mem := t.mem
        stale := (a.toNat + 1, s.mem.read (a.toNat + 1)) :: (a.toNat, s.mem.read a.toNat) :: s.stale }) ∧
    (sumPermitted s m → a.toNat = 0x3FFFF → s.params.wordAtTop = .wrap → ∃ t, exec (.storw rs m) s = .next t ∧
      t.mem.read 0x3FFFF = lowByte (s.reg rs) ∧ t.mem.read 0 = hi ∧
      (∀ x, x ≠ 0 → x ≠ 0x3FFFF → t.mem.read x = s.mem.read x) ∧
      t = { s.past m.len with mem := t.mem, stale := (0, s.mem.read 0) :: (0x3FFFF, s.mem.read 0x3FFFF) :: s.stale }) ∧
    (sumPermitted s m → s.params.reservedRegionAccess = .device →
      (0xFC00 ≤ a.toNat → a.toNat ≤ 0xFFFF → exec (.storb rs m) s = .next (s.past m.len)) ∧
      (0xFBFF ≤ a.toNat → a.toNat ≤ 0xFFFF → ∃ t, exec (.storw rs m) s = .next t ∧
        (∀ x, t.mem.read x = if x = 0xFBFF ∧ a.toNat = 0xFBFF then lowByte (s.reg rs)
          else if x = 0x10000 ∧ a.toNat = 0xFFFF then hi else s.mem.read x) ∧
        t = { s.past m.len with mem := t.mem, stale := t.stale }))

/-- For every state, memory operand and register: a load or a store is refused where ADDR_WRAP is refuse and the sum of
base and displacement is 2^18 or more (decision D2, log 15); else a word access at 0x3FFFF faults where WORD_AT_TOP
is refuse (decision D3, log 13); else one with a byte in 0xFC00 to 0xFFFF is refused where RESERVED_REGION_ACCESS is
refuse (decision D20, log 12); and everywhere else it answers a next state. Rests on 20_memory.md rule R52,
20_memory.md rule R55, 20_memory.md rule R56, 20_memory.md rule R60, 92_eei_decisions.md D20, 92_eei_decisions.md
D3, 92_eei_decisions.md D2. -/
def Obligations.LoadStoreStops : Prop :=
  ∀ (s : State) (m : MemOp) (r : Reg),
    let a := s.effectiveAddr m
    (∀ i, i = .loadb m r ∨ i = .storb r m →
      (¬ sumPermitted s m → exec i s = .refused .addressPastTop) ∧
      (sumPermitted s m → ¬ permitted s a.toNat 1 → exec i s = .refused .reservedRegion) ∧
      (sumPermitted s m → permitted s a.toNat 1 → ∃ t, exec i s = .next t)) ∧
    (∀ i, i = .loadw m r ∨ i = .storw r m →
      (¬ sumPermitted s m → exec i s = .refused .addressPastTop) ∧
      (sumPermitted s m → ¬ wordPermitted s a → exec i s = .fault .wordAtTop) ∧
      (sumPermitted s m → wordPermitted s a → ¬ permitted s a.toNat 2 → exec i s = .refused .reservedRegion) ∧
      (sumPermitted s m → wordPermitted s a → permitted s a.toNat 2 → ∃ t, exec i s = .next t))

/-- For every state with canonical memory, memory operand whose word lies in memory and registers: STORW then LOADW of
the same operand answer next states, after which the loaded register holds what the stored register held. That no
device and no other bus master supplies another value is the choice of log 31. Rests on 20_memory.md rule R54,
20_memory.md rule R65, 20_memory.md rule R58. -/
def Obligations.StoreThenLoadReturnsWord : Prop :=
  ∀ (s : State) (m : MemOp) (rs rd : Reg), s.mem.wf = true → accessible s m 2 →
    ∃ t u, exec (.storw rs m) s = .next t ∧ exec (.loadw m rd) t = .next u ∧ u.reg rd = s.reg rs

/-- For every state, exec of DI answers the state with E cleared, EI with E set, NOP with nothing changed, WAIT with the
core waiting, each with the PC at the next instruction and everything else unchanged. The PC's reduction modulo 2^17
is the spec's decision D4 (log 14). Rests on 49_miscellaneous.md rule R200, 49_miscellaneous.md rule R201,
49_miscellaneous.md rule R202, 49_miscellaneous.md rule R203, 10_state.md rule R17. -/
def Obligations.MiscellaneousResults : Prop :=
  ∀ s : State,
    exec .di s = .next { s.past 2 with psr := { s.psr with e := false } } ∧
    exec .ei s = .next { s.past 2 with psr := { s.psr with e := true } } ∧
    exec .nop s = .next (s.past 2) ∧
    exec .wait s = .next { s.past 2 with waiting := true }

/-- For every state with canonical memory, exec of EXCP with vector 5, 6, 7, 8 or 10 answers the state after the
acknowledge sequence with that exception number, exec of EXCP with any other vector and of every undefined op code
the one with number 10; the PSR pushed is the present one (its P is the copy of T, decision D24, log 24; its
reserved bits are open, decision D9, log 7), I is kept, the return address is the address of the instruction, and
every byte of memory outside the 4-byte frame is unchanged. ISP modulo 2^16 is the decision D11 (log 16). Frame and
table entry lie outside the reserved range, or the platform decodes memory there (decisions D20 and D22, log 12).
Rests on 47_jumps_linkage.md rule R174, 60_exceptions.md rule R220, 60_exceptions.md rule R211, 60_exceptions.md
rule R223, 60_exceptions.md rule R213, 92_eei_decisions.md D11, 92_eei_decisions.md D24, 92_eei_decisions.md D9,
92_eei_decisions.md D20, 92_eei_decisions.md D22. -/
def Obligations.TrapInstructionEntry : Prop :=
  ∀ s : State, s.mem.wf = true →
    (∀ v : BitVec 4, (v = 5 ∨ v = 6 ∨ v = 7 ∨ v = 8 ∨ v = 10) → entersInMemory s v.toNat →
      ∃ t, exec (.excp v) s = .next t ∧ entered s t s.psr s.psr.i v.toNat) ∧
    (entersInMemory s 10 →
      (∀ v : BitVec 4, ¬ (v = 5 ∨ v = 6 ∨ v = 7 ∨ v = 8 ∨ v = 10) →
        ∃ t, exec (.excp v) s = .next t ∧ entered s t s.psr s.psr.i 10) ∧
      (∀ p : UndPattern, ∃ t, exec (.und p) s = .next t ∧ entered s t s.psr s.psr.i 10))

/-- For every state with canonical memory and every vector other than 5, 6, 7, 8 and 10: exec of EXCP with it answers
the same as EXCP UND (vector 10), and that is a next state whose topmost frame word is bits 16 to 1 of the address
of the EXCP and whose PC is entry 10 of the dispatch table. Frame and table entry lie outside the reserved range, or
the platform decodes memory there (decisions D20 and D22, log 12). Rests on 30_encoding.md rule R105,
47_jumps_linkage.md rule R174, 60_exceptions.md rule R220, 92_eei_decisions.md D20, 92_eei_decisions.md D22. -/
def Obligations.ReservedVectorRaisesUnd : Prop :=
  ∀ (s : State) (v : BitVec 4), ¬ (v = 5 ∨ v = 6 ∨ v = 7 ∨ v = 8 ∨ v = 10) →
    exec (.excp v) s = exec (.excp 10) s ∧
    (s.mem.wf = true → entersInMemory s 10 → ∃ t, exec (.excp v) s = .next t ∧
      wordAt t.mem t.isp.toNat = wordOfCode s.pc ∧ t.pc = codeOfWord (t.mem.readWord (entryAddr s 10)))

/-- For every state whose ISP has bits 17, 16 and 0 zero and whose topmost frame lies outside the reserved range or
where the platform decodes memory there (decision D20, log 12), exec of RETX answers the state whose PC has bits 16
to 1 from the word at ISP, whose PSR has the nine named bits of the word at ISP + 2 (decision D9, log 7), and whose
ISP is up by 4 modulo 2^16 (decision D11, log 16); no store is left unserialized, memory and everything else are
unchanged. Rests on 47_jumps_linkage.md rule R178, 60_exceptions.md rule R225, 20_memory.md rule R67,
92_eei_decisions.md D11, 92_eei_decisions.md D9, 92_eei_decisions.md D20. -/
def Obligations.ReturnFromExceptionResult : Prop :=
  ∀ s : State, tableLegal s.isp → inMemory s s.isp.toNat 4 → popPermitted s →
    exec .retx s = .next
      { s with
        pc := codeOfWord (wordAt s.mem s.isp.toNat)
        psr := psrOfWord (wordAt s.mem (s.isp.toNat + 2))
        isp := BitVec.ofNat 18 ((s.isp.toNat + 4) % 0x10000)
        stale := [] }

/-- For every state that meets the invariant and every exception, the acknowledge sequence leads to a state in which
RETX answers a next state with the PC, ISP, INTBASE and general registers of before and the PSR of before, except
that after a trace trap P is 0 (decision D6, log 23), also across the wrap of ISP modulo 2^16 (decision D11, log
16). Frame and table entry lie outside the reserved range, or the platform decodes memory there (decisions D20 and
D22, log 12). Rests on 60_exceptions.md rule R225, 60_exceptions.md rule R223, 47_jumps_linkage.md rule R178,
60_exceptions.md rule R231, 92_eei_decisions.md D6, 92_eei_decisions.md D11, 92_eei_decisions.md D20. -/
def Obligations.EntryThenReturnRestores : Prop :=
  ∀ (s : State) (e : Exc), s.Inv → entersInMemory s (vectorOf s.params e) →
    ∃ u t, enterException e s = .ok u ∧ exec .retx u = .next t ∧
      t.pc = s.pc ∧ t.isp = s.isp ∧ t.intbase = s.intbase ∧ t.regs = s.regs ∧
      t.psr = if e = .trc then { s.psr with p := false } else s.psr

/-- For every state at a boundary at which an instruction begins (no reset, no accepted interrupt, not waiting, no
pending trace trap) whose PC is legal: if the four bytes at the PC decode to an instruction (low byte of a word
first, decision D1, log 17), whose bytes lie in memory, have no earlier value noted for them, and end inside the
code space or wrap where PC_WRAP has the second word fetched at 0 (decision D4, log 14), the step is exec of that
instruction in the state whose boundary is used up and whose P is a copy of T. Stores to other bytes need not be
serialized. Rests on 60_exceptions.md rule R218, 60_exceptions.md rule R230, 20_memory.md rule R57, 30_encoding.md
rule R81, 92_eei_decisions.md D1, 92_eei_decisions.md D4. -/
def Obligations.StepRunsDecodedInstruction : Prop :=
  ∀ (s : State) (i : Instr) (rest : List Byte),
    s.runsInstr → s.pcLegal → fetchesMemory s i.len →
    (s.pc.toNat + i.len ≤ 0x20000 ∨ s.params.pcWrap = .moduloSplit) →
    decode [s.mem.read (codeByte s 0), s.mem.read (codeByte s 1), s.mem.read (codeByte s 2), s.mem.read (codeByte s 3)] =
      .ok (i, rest) →
    step s = exec i s.started

/-- For every state with canonical memory at a boundary at which an instruction begins, whose PC is legal and whose two
bytes at the PC are fetched as they stand in memory: if the word they make (low byte first, decision D1, log 17)
matches one of the eight match and mask pairs of Table A-2, the step answers the state after the acknowledge
sequence with exception number 10 in the state whose boundary is used up and whose P is a copy of T, which is the P
pushed (decision D24, log 24); the return address in the frame is the address of the word, no register and no byte
of memory outside the frame changes, whatever follows the word (no second word is fetched, log 34). ISP modulo 2^16
is the decision D11 (log 16). Frame and table entry lie outside the reserved range, or the platform decodes memory
there (decisions D20 and D22, log 12). Rests on 30_encoding.md rule R103, 60_exceptions.md rule R213,
60_exceptions.md rule R220, 92_eei_decisions.md D1, 92_eei_decisions.md D11, 92_eei_decisions.md D24,
92_eei_decisions.md D20, 92_eei_decisions.md D22. -/
def Obligations.UndefinedWordTraps : Prop :=
  ∀ s : State, s.mem.wf = true → s.runsInstr → s.pcLegal → fetchesMemory s 2 → entersInMemory s.started 10 →
    (let w := wordAt s.mem s.pc.toNat
     w &&& 0xFE00 = 0x1600 ∨ w &&& 0xDE01 = 0x1401 ∨ w &&& 0xDE00 = 0x0400 ∨ w &&& 0xDE01 = 0x4401 ∨
     w &&& 0xFE01 = 0x6C00 ∨ w &&& 0xF801 = 0x6000 ∨ w &&& 0xFC01 = 0x7400 ∨ w &&& 0xFE01 = 0x5601) →
    ∃ t, step s = .next t ∧ entered s.started t s.started.psr s.psr.i 10

/-- For every state at whose boundary the maskable request alone stands, it is the accepted interrupt if PSR.I and PSR.E
are 1, and no interrupt is accepted if either is 0. Rests on R214. -/
def Obligations.MaskableAcceptedExactlyWhenEnabled : Prop :=
  ∀ s : State, s.boundary.int = true → s.boundary.ise = false → s.boundary.nmi = false →
    acceptedInterrupt s.boundary s =
      if s.psr.i = true ∧ s.psr.e = true then some (.int s.boundary.icu) else none

/-- For every state at whose boundary NMI or ISE stands, an interrupt is accepted; if NMI alone stands it is NMI, if ISE
alone stands it is ISE; and changing the PSR in any way changes none of this. Rests on R215. -/
def Obligations.NonMaskableAlwaysAccepted : Prop :=
  ∀ (s : State) (r : Psr),
    (s.boundary.nmi = true ∨ s.boundary.ise = true → (acceptedInterrupt s.boundary { s with psr := r }).isSome = true) ∧
    (s.boundary.nmi = true → s.boundary.ise = false → s.boundary.int = false →
      acceptedInterrupt s.boundary { s with psr := r } = some .nmi) ∧
    (s.boundary.ise = true → s.boundary.nmi = false → s.boundary.int = false →
      acceptedInterrupt s.boundary { s with psr := r } = some .ise)

/-- For every state and each of the six orders: the interrupt accepted at the boundary is the first in that order among
a standing ISE request, a standing NMI request and a standing maskable request with I and E 1, and there is none if
none of them stands. The order is a parameter of the model (decision D7, log 9). Rests on 60_exceptions.md rule
R217, 60_exceptions.md rule R218, 92_eei_decisions.md D7. -/
def Obligations.InterruptPriority : Prop :=
  ∀ s : State,
    let E : Bool × Exc := (s.boundary.ise, .ise)
    let N : Bool × Exc := (s.boundary.nmi, .nmi)
    let M : Bool × Exc := (s.boundary.int && s.psr.i && s.psr.e, .int s.boundary.icu)
    let first := fun (x y z : Bool × Exc) =>
      if x.1 then some x.2 else if y.1 then some y.2 else if z.1 then some z.2 else none
    acceptedInterrupt s.boundary s =
      match s.params.intPriority with
      | .iseNmiInt => first E N M
      | .iseIntNmi => first E M N
      | .nmiIseInt => first N E M
      | .nmiIntIse => first N M E
      | .intIseNmi => first M E N
      | .intNmiIse => first M N E

/-- For every state and no reset: an accepted NMI has the exception number 1, an ISE 15, and a maskable request the
vector byte of the ICU; such a byte outside 16 to 127 is refused, or used as it is, as ICU_VECTOR_RANGE says
(decision D12, log 11). With canonical memory, where frame and table entry lie in memory, the step answers the state
after the acknowledge sequence with that number; the core is then not waiting, I is 0 and P is pushed as it was. ISP
modulo 2^16 is the decision D11 (log 16). Where RESERVED_REGION_ACCESS is refuse and frame or entry touches the
reserved range, the step is refused and there is no partial sequence (decisions D20 and D22, log 12). Rests on
60_exceptions.md rule R218, 60_exceptions.md rule R220, 60_exceptions.md rule R221, 60_exceptions.md rule R222,
60_exceptions.md rule R237, 92_eei_decisions.md D11, 92_eei_decisions.md D12, 92_eei_decisions.md D20,
92_eei_decisions.md D22. -/
def Obligations.InterruptEntry : Prop :=
  ∀ s : State, s.boundary.reset = false →
    let s' : State := { s with inputs := s.inputs.tail, waiting := false }
    let takes := fun (n : Nat) =>
      (s.mem.wf = true → entersInMemory s n → ∃ t, step s = .next t ∧ entered s' t s.psr false n) ∧
      (s.params.reservedRegionAccess = .refuse → s.params.ispWrap = .modulo → tableLegal s.intbase → entryReserved s n →
        step s = .refused .reservedRegion)
    (acceptedInterrupt s.boundary s = some .nmi → takes 1) ∧
    (acceptedInterrupt s.boundary s = some .ise → takes 15) ∧
    (∀ v : Byte, acceptedInterrupt s.boundary s = some (.int v) →
      ((16 ≤ v.toNat ∧ v.toNat ≤ 127) ∨ s.params.icuVectorRange = .asIs → takes v.toNat) ∧
      (v.toNat < 16 ∨ 127 < v.toNat → s.params.icuVectorRange = .refuse → step s = .refused .icuVectorRange))

/-- For every state that is not waiting, at whose boundary no reset stands and no interrupt is accepted, and in which P
is 1: with canonical memory, where frame and table entry lie in memory, the step answers the state after the
acknowledge sequence with the exception number TRC_VECTOR; the PSR pushed has P = 0 (decision D6, log 23) and I is
kept. ISP modulo 2^16 is the decision D11 (log 16). Where RESERVED_REGION_ACCESS is refuse and frame or entry
touches the reserved range, the step is refused (decisions D20 and D22, log 12). TRC_VECTOR is a parameter (decision
D5, log 10) and the statement holds for each of its values. Rests on 60_exceptions.md rule R231, 60_exceptions.md
rule R218, 60_exceptions.md rule R237, 92_eei_decisions.md D6, 92_eei_decisions.md D5, 92_eei_decisions.md D11,
92_eei_decisions.md D20, 92_eei_decisions.md D22. -/
def Obligations.TraceTrapEntry : Prop :=
  ∀ s : State, s.boundary.reset = false → acceptedInterrupt s.boundary s = none → s.waiting = false → s.psr.p = true →
    let n := s.params.trcVector.val
    (s.mem.wf = true → entersInMemory s n → ∃ t, step s = .next t ∧
      entered { s with inputs := s.inputs.tail } t { s.psr with p := false } s.psr.i n) ∧
    (s.params.reservedRegionAccess = .refuse → s.params.ispWrap = .modulo → tableLegal s.intbase → entryReserved s n →
      step s = .refused .reservedRegion)

/-- For every waiting state at whose boundary no reset stands and no interrupt is accepted: where no maskable request
stands or WAIT_WAKE is acceptedOnly, the step answers the same state with the boundary used up, so a masked maskable
request does not end the wait (decision D19, log 22); where one stands and WAIT_WAKE is anyRequest, the step is that
of the same state not waiting. Rests on 49_miscellaneous.md rule R203, 60_exceptions.md rule R218,
92_eei_decisions.md D19. -/
def Obligations.WaitingIdles : Prop :=
  ∀ s : State, s.waiting = true → s.boundary.reset = false → acceptedInterrupt s.boundary s = none →
    (s.boundary.int = false ∨ s.params.waitWake = .acceptedOnly → step s = .next { s with inputs := s.inputs.tail }) ∧
    (s.boundary.int = true → s.params.waitWake = .anyRequest → step s = step { s with waiting := false })

/-- For every step that answers a next state: if the core was waiting and no longer is, a reset stood or an interrupt
was accepted at the boundary, or WAIT_WAKE is anyRequest and a maskable request stood (that an accepted interrupt is
what ends the wait is the decision D19, log 22); if it was not waiting and now is, the step ran an instruction whose
fetched words decode to WAIT. Rests on 49_miscellaneous.md rule R203, 10_state.md rule R36, 92_eei_decisions.md D19. -/
def Obligations.WaitingEndsOnlyByInterruptOrReset : Prop :=
  ∀ s t : State, step s = .next t →
    (s.waiting = true → t.waiting = false →
      s.boundary.reset = true ∨ (acceptedInterrupt s.boundary s).isSome = true ∨
        (s.params.waitWake = .anyRequest ∧ s.boundary.int = true)) ∧
    (s.waiting = false → t.waiting = true → ∃ u, fetchInstr s.started = .ok (some .wait, u))

/-- For every state at whose boundary the reset signal stands, the step answers a next state in which R0 holds bits 16
to 1 of the old PC, R1 a word that shows the old PSR, the PC and CFG are 0, the PSR is all 0 but E, the core is not
waiting, ISP and INTBASE have their constant bits 0, and memory is unchanged. The other registers hold free values;
unchanged memory is the choice of log 4. Rests on 70_reset_and_hazards.md rule R260, 10_state.md rule R39,
92_eei_decisions.md D18. -/
def Obligations.ResetSequenceResult : Prop :=
  ∀ s : State, s.boundary.reset = true →
    ∃ t, step s = .next t ∧
      t.reg 0 = wordOfCode s.pc ∧ showsPsr (t.reg 1) s.psr ∧ t.pc = 0 ∧ t.cfg = 0 ∧ t.waiting = false ∧
      t.psr = { c := false, t := false, l := false, f := false, z := false, n := false, e := true, p := false, i := false } ∧
      tableLegal t.isp ∧ tableLegal t.intbase ∧ t.mem = s.mem

/-- After reset the PC is 0, the PSR is all 0 but E, CFG is 0, the core is not waiting, no interrupt request or trace
trap is pending, the constant bits of PC, ISP and INTBASE are 0 and memory has its canonical form; the parameters
have the defaults of R4 (TRC_VECTOR 9 is PRESUMED, log 10). The values of ISP and INTBASE at reset are the choice of
the model (log 2). Rests on 10_state.md rule R39, 10_state.md rule R19, 10_state.md rule R14, 10_state.md rule R20,
10_state.md rule R21, 00_scope.md rule R4. -/
def Obligations.ResetValuesAndInvariant : Prop :=
  State.reset.pc = 0 ∧
  State.reset.psr = { c := false, t := false, l := false, f := false, z := false, n := false, e := true, p := false, i := false } ∧
  State.reset.cfg = 0 ∧ State.reset.waiting = false ∧ State.reset.boundary = Boundary.quiet ∧
  State.reset.Inv ∧
  State.reset.params =
    { trcVector := 9, intPriority := .iseNmiInt, unlistedEncoding := .refuse, addrWrap := .modulo, pcWrap := .modulo,
      ispWrap := .modulo, wordAtTop := .refuse, reservedRegionAccess := .refuse, icuVectorRange := .refuse,
      waitWake := .acceptedOnly, staleFetch := .oldOrNew }

/-- For every state that meets the invariant (PC bits 17 and 0, ISP and INTBASE bits 17, 16 and 0 are 0, CFG is 0,
memory is in canonical form), if the step answers a next state, that state meets it too. That CFG is a constant is
the decision D10 (log 28), and the canonical form is the one of the model. Rests on 10_state.md rule R14,
10_state.md rule R18, 10_state.md rule R20, 10_state.md rule R21, 10_state.md rule R33. -/
def Obligations.StepKeepsInvariant : Prop :=
  ∀ s t : State, s.Inv → step s = .next t → t.Inv

/-- For every instruction other than CMPB, CMPW, LPR to the PSR and RETX and every state, if exec answers a next state,
then Z, N and L are in it what they were; a CMPi writes all three from its comparison; LPR to the PSR writes every
named bit from the register and RETX every named bit from the word it reads at ISP + 2, the one in memory unless a
device answers in the reserved range (log 12). Rests on R141. -/
def Obligations.OnlyCompareWritesZeroNegativeLow : Prop :=
  ∀ (i : Instr) (s t : State), exec i s = .next t →
    (i ≠ .retx → (∀ r, i ≠ .lpr r .psr) → (∀ src rd, i ≠ .cmpb src rd ∧ i ≠ .cmpw src rd) →
      t.psr.z = s.psr.z ∧ t.psr.n = s.psr.n ∧ t.psr.l = s.psr.l) ∧
    (∀ src rd,
      (i = .cmpb src rd →
        t.psr.z = decide ((s.srcVal .byte src : Byte) = lowByte (s.reg rd)) ∧
        t.psr.n = decide ((lowByte (s.reg rd)).toInt < (s.srcVal .byte src : Byte).toInt) ∧
        t.psr.l = decide ((lowByte (s.reg rd)).toNat < (s.srcVal .byte src : Byte).toNat)) ∧
      (i = .cmpw src rd →
        t.psr.z = decide ((s.srcVal .word src : Word) = s.reg rd) ∧
        t.psr.n = decide ((s.reg rd).toInt < (s.srcVal .word src : Word).toInt) ∧
        t.psr.l = decide ((s.reg rd).toNat < (s.srcVal .word src : Word).toNat))) ∧
    (∀ r, i = .lpr r .psr → t.psr = psrOfWord (s.reg r)) ∧
    (i = .retx → ∃ v, t.psr = psrOfWord v ∧ (inMemory s (s.isp + 2).toNat 2 → v = s.mem.readWord (s.isp + 2)))

/-- For every instruction other than LPR to the PSR and RETX and every state, if exec answers a next state: C changes
only by ADDi, ADDCi, SUBi, SUBCi; F only by these and TBIT; E only by EI and DI; T and P only by the trap entry of
EXCP and the undefined op codes, which clears them; I never. Rests on 10_state.md rule R32. -/
def Obligations.PsrWriters : Prop :=
  ∀ (i : Instr) (s t : State), exec i s = .next t → i ≠ .retx → (∀ r, i ≠ .lpr r .psr) →
    let sum := ∃ src rd, i = .addb src rd ∨ i = .addw src rd ∨ i = .addcb src rd ∨ i = .addcw src rd ∨
      i = .subb src rd ∨ i = .subw src rd ∨ i = .subcb src rd ∨ i = .subcw src rd
    let trap := (∃ v, i = .excp v) ∨ ∃ p, i = .und p
    (¬ sum → t.psr.c = s.psr.c) ∧
    (¬ sum → (∀ o r, i ≠ .tbit o r) → t.psr.f = s.psr.f) ∧
    (i ≠ .ei → i ≠ .di → t.psr.e = s.psr.e) ∧
    (¬ trap → t.psr.t = s.psr.t ∧ t.psr.p = s.psr.p) ∧
    (trap → t.psr.t = false ∧ t.psr.p = false) ∧
    t.psr.i = s.psr.i

/-- For every instruction that is not STORB, STORW, EXCP or an undefined op code and every state, if exec answers a next
state, memory in it is what it was. Rests on 20_memory.md rule R60, 20_memory.md rule R61, 20_memory.md rule R64. -/
def Obligations.OnlyStoresAndTrapsWriteMemory : Prop :=
  ∀ (i : Instr) (s t : State), exec i s = .next t →
    (∀ r m, i ≠ .storb r m ∧ i ≠ .storw r m) → (∀ v, i ≠ .excp v) → (∀ p, i ≠ .und p) → t.mem = s.mem

/-- For every two states that differ only in memory and every instruction that is not LOADB, LOADW, RETX, EXCP or an
undefined op code: if exec answers a next state in one, it answers one in the other, with the same registers, PC,
ISP, INTBASE, PSR and operating state. Rests on 20_memory.md rule R60, 20_memory.md rule R61. -/
def Obligations.OnlyLoadsReadMemory : Prop :=
  ∀ (i : Instr) (s t : State) (m : Memory), exec i s = .next t →
    (∀ o r, i ≠ .loadb o r ∧ i ≠ .loadw o r) → i ≠ .retx → (∀ v, i ≠ .excp v) → (∀ p, i ≠ .und p) →
    ∃ u, exec i { s with mem := m } = .next u ∧ u.regs = t.regs ∧ u.pc = t.pc ∧ u.isp = t.isp ∧
      u.intbase = t.intbase ∧ u.psr = t.psr ∧ u.cfg = t.cfg ∧ u.waiting = t.waiting

/-- For every instruction and state, if exec answers a next state: unless the instruction is LPR to ISP, RETX, EXCP or
an undefined op code, ISP is what it was; unless it is LPR to INTBASE, INTBASE is what it was; CFG, the parameters
and the coming boundaries are what they were. Rests on 46_processor_register.md rule R167, 10_state.md rule R20,
10_state.md rule R21, 10_state.md rule R33. -/
def Obligations.DedicatedRegisterWriters : Prop :=
  ∀ (i : Instr) (s t : State), exec i s = .next t →
    ((∀ r, i ≠ .lpr r .isp) → i ≠ .retx → (∀ v, i ≠ .excp v) → (∀ p, i ≠ .und p) → t.isp = s.isp) ∧
    ((∀ r, i ≠ .lpr r .intbase) → t.intbase = s.intbase) ∧
    t.cfg = s.cfg ∧ t.params = s.params ∧ t.inputs = s.inputs

/-- For every instruction and state, if exec answers a next state, then every general register other than the
destination or link register of the instruction is what it was, and an instruction without one (comparisons, TBIT,
LPR, branches, jumps without link, stores, DI, EI, NOP, WAIT, EXCP, RETX, undefined op codes) changes none: RA and
SP are used implicitly by no instruction. Rests on 10_state.md rule R11, 10_state.md rule R12, 10_state.md rule R16,
30_encoding.md rule R112. -/
def Obligations.RegisterWriters : Prop :=
  ∀ (i : Instr) (s t : State) (r : Reg), exec i s = .next t → i.destination ≠ some r → t.reg r = s.reg r

/-- For every instruction that is not LOADB, LOADW, STORB or STORW and every state: exec answers a next state if the
instruction is not EXCP, an undefined op code or RETX. EXCP and an undefined op code answer one where the accesses
of their acknowledge sequence are permitted, and RETX, with a legal ISP, where its pops are; else they are refused
whole: ispPastEnd where ISP_WRAP is refuse (decision D11, log 16), reservedRegion where RESERVED_REGION_ACCESS is
refuse and a byte lies in 0xFC00 to 0xFFFF (decisions D20 and D22, log 12), or the fault wordAtTop (decision D3, log
13; only with an odd INTBASE, which no run reaches). Rests on 60_exceptions.md rule R229, 60_exceptions.md rule
R210, 60_exceptions.md rule R237, 92_eei_decisions.md D20, 92_eei_decisions.md D22, 92_eei_decisions.md D11,
92_eei_decisions.md D3. -/
def Obligations.AllButLoadsAndStoresComplete : Prop :=
  ∀ (i : Instr) (s : State),
    (∀ m r, i ≠ .loadb m r ∧ i ≠ .loadw m r ∧ i ≠ .storb r m ∧ i ≠ .storw r m) →
    let traps := fun (n : Nat) =>
      (entryPermitted s n → ∃ t, exec i s = .next t) ∧
      (¬ pushPermitted s → exec i s = .refused .ispPastEnd) ∧
      (pushPermitted s →
        ¬ permitted s (frameAddr s) 4 ∨ (wordPermitted s (entryAddr s n) ∧ ¬ permitted s (entryAddr s n).toNat 2) →
        exec i s = .refused .reservedRegion) ∧
      (pushPermitted s → permitted s (frameAddr s) 4 → ¬ wordPermitted s (entryAddr s n) → exec i s = .fault .wordAtTop)
    (i ≠ .retx → (∀ v, i ≠ .excp v) → (∀ p, i ≠ .und p) → ∃ t, exec i s = .next t) ∧
    (∀ v : BitVec 4, i = .excp v → traps (if v = 5 ∨ v = 6 ∨ v = 7 ∨ v = 8 then v.toNat else 10)) ∧
    (∀ p, i = .und p → traps 10) ∧
    (i = .retx → tableLegal s.isp →
      (permitted s s.isp.toNat 4 → popPermitted s → ∃ t, exec i s = .next t) ∧
      (permitted s s.isp.toNat 4 → ¬ popPermitted s → exec i s = .refused .ispPastEnd) ∧
      (¬ permitted s s.isp.toNat 4 → exec i s = .refused .reservedRegion))

/-- For every state and code address whose two bytes lie in memory: a fetch of the instruction word there, low byte at
the lower address (decision D1, log 17), answers, where STALE_FETCH is oldOrNew, a word each of whose bytes is the
present byte of memory or an earlier value noted for it, and changes nothing but the number of free values drawn;
with no earlier value noted for either byte it answers the word in memory and changes nothing; where one is noted
and STALE_FETCH is refuse it is refused. That any earlier value may be seen is the decision D25 (log 25). Rests on
20_memory.md rule R66, 20_memory.md rule R67, 20_memory.md rule R57, 92_eei_decisions.md D1, 92_eei_decisions.md
D25. -/
def Obligations.FetchSeesOldOrNewByte : Prop :=
  ∀ (s : State) (a : Addr), a.toNat + 1 < 0x20000 → inMemory s a.toNat 2 →
    (s.params.staleFetch = .oldOrNew →
      ∃ (lo hi : Byte) (k : Nat), fetch16 s a = .ok (hi ++ lo, { s with draws := s.draws + k }) ∧
        (lo = s.mem.read a.toNat ∨ (a.toNat, lo) ∈ s.stale) ∧
        (hi = s.mem.read (a.toNat + 1) ∨ (a.toNat + 1, hi) ∈ s.stale)) ∧
    (s.earlier a.toNat = [] → s.earlier (a.toNat + 1) = [] → fetch16 s a = .ok (wordAt s.mem a.toNat, s)) ∧
    (s.params.staleFetch = .refuse → s.earlier a.toNat ≠ [] ∨ s.earlier (a.toNat + 1) ≠ [] →
      fetch16 s a = .error (.refusal .staleFetch))

/-- For every state at a boundary at which an instruction begins, whose PC is legal: where RESERVED_REGION_ACCESS is
refuse, a PC in 0xFC00 to 0xFFFF, or a 4-byte instruction at 0xFBFE, makes the step refused as reservedRegion
(decision D20, log 12); where PC_WRAP is modulo, a 4-byte instruction at 0x1FFFE makes it refused as fetchPastTop
(decision D4, log 14); where STALE_FETCH is refuse, an earlier value noted for a byte of the first word makes it
refused as staleFetch (decision D25, log 25). Rests on 20_memory.md rule R52, 20_memory.md rule R57, 20_memory.md
rule R66, 92_eei_decisions.md D4, 92_eei_decisions.md D20, 92_eei_decisions.md D25. -/
def Obligations.StepFetchStops : Prop :=
  ∀ s : State, s.runsInstr → s.pcLegal →
    (s.params.reservedRegionAccess = .refuse → 0xFC00 ≤ s.pc.toNat → s.pc.toNat ≤ 0xFFFF →
      step s = .refused .reservedRegion) ∧
    (fetchesMemory s 2 → isLong (wordAt s.mem s.pc.toNat) = true →
      (s.params.pcWrap = .modulo → s.pc.toNat = 0x1FFFE → step s = .refused .fetchPastTop) ∧
      (s.params.reservedRegionAccess = .refuse → s.pc.toNat = 0xFBFE → step s = .refused .reservedRegion)) ∧
    (s.params.staleFetch = .refuse → inMemory s s.pc.toNat 2 →
      s.earlier s.pc.toNat ≠ [] ∨ s.earlier (s.pc.toNat + 1) ≠ [] → step s = .refused .staleFetch)

/-- For every well-formed instruction, with every operand at every value its encoding admits, and every bytes after it,
decoding its encoded bytes gives the instruction and those bytes. Rests on 30_encoding.md rule R112, 30_encoding.md
rule R100, 30_encoding.md rule R101, 30_encoding.md rule R107. -/
def Obligations.DecodeEncodeRoundTrip : Prop :=
  ∀ (i : Instr) (rest : List Byte), i.wf = true → decode (encode i ++ rest) = .ok (i, rest)

/-- For all bytes that decode to an instruction and a rest, the instruction is well formed and its encoded bytes
followed by the rest are those bytes: no bit of an accepted encoding is ignored and no instruction has two
encodings. That no bit is ignored rests on giving the unlisted encodings and the odd medium displacements no
instruction, the decisions D8 and D14 (logs 18 and 19). Rests on 30_encoding.md rule R112, 30_encoding.md rule R100,
30_encoding.md rule R108, 92_eei_decisions.md D8, 92_eei_decisions.md D14. -/
def Obligations.EncodeDecodeRoundTrip : Prop :=
  ∀ (bs : List Byte) (i : Instr) (rest : List Byte), decode bs = .ok (i, rest) → i.wf = true ∧ encode i ++ rest = bs

/-- For every first word and second word, exactly these decode to no instruction: condition 1111 in Bcond and Jcond and
1110 or 1111 in Scond, an Rproc code other than 0001, 0011, 1011 in LPR and SPR, the medium branch pattern with a
wrong low nibble, wrong fixed fields of RETX, EXCP, DI, EI and WAIT, and a medium Bcond, BR or BAL with an odd
displacement. What a step does with them is UnlistedEncodingStep. Giving them no instruction is the decisions D8 and
D14 (logs 18 and 19). Rests on 30_encoding.md rule R108, 30_encoding.md rule R104, 92_eei_decisions.md D8,
92_eei_decisions.md D14. -/
def Obligations.UnlistedEncodingsRefused : Prop :=
  ∀ w v : Word,
    (w &&& 0xE1E1 = 0x41E0 ∨ w &&& 0xFFEF = 0x15EE ∨ w &&& 0xFFE1 = 0x55E1 ∨ w &&& 0xFFC1 = 0x6FC0 ∨
     (w &&& 0xFC01 = 0x7000 ∧ w &&& 0x01E0 ≠ 0x0020 ∧ w &&& 0x01E0 ≠ 0x0060 ∧ w &&& 0x01E0 ≠ 0x0160) ∨
     (w &&& 0xDE01 = 0x1400 ∧ w &&& 0x000E ≠ 0x000E) ∨
     (w &&& 0xFE01 = 0x7800 ∧ w ≠ 0x79FE) ∨ (w &&& 0xFE01 = 0x7A00 ∧ w &&& 0xFFE1 ≠ 0x7BE0) ∨
     (w &&& 0xFE01 = 0x7C00 ∧ w ≠ 0x7DDE ∧ w ≠ 0x7DFE) ∨ (w &&& 0xFE01 = 0x7E00 ∧ w ≠ 0x7FFE) ∨
     (w &&& 0xDE0F = 0x140E ∧ v.getLsbD 0 = true)) ↔
    ∃ why, decodeWords w v = .error why

/-- For every state at a boundary at which an instruction begins, whose PC is legal, in which the words at the PC are
fetched as they stand in memory and decode to no instruction: where UNLISTED_ENCODING is refuse the step is refused
with the reason of the decoder; where it is raiseUnd, and memory is canonical, it answers the state after the
acknowledge sequence with number 10; where it is ignoreFields, wrong fixed fields of RETX, EXCP, DI or EI (told
apart by bit 5) and WAIT run that instruction, and a BAL with an odd displacement runs with bit 0 of it cleared.
These are the decisions D8 and D14 (logs 18 and 19). Frame and table entry lie outside the reserved range, or the
platform decodes memory there (decisions D20 and D22, log 12). Rests on 30_encoding.md rule R108, 30_encoding.md
rule R104, 30_encoding.md rule R106, 60_exceptions.md rule R220, 92_eei_decisions.md D8, 92_eei_decisions.md D14,
92_eei_decisions.md D20. -/
def Obligations.UnlistedEncodingStep : Prop :=
  ∀ (s : State) (w v : Word) (why : Reject),
    s.runsInstr → s.pcLegal → fetchesMemory s 2 → w = wordAt s.mem s.pc.toNat →
    (isLong w = true → (s.pc.toNat + 4 ≤ 0x20000 ∨ s.params.pcWrap = .moduloSplit) ∧ fetchesMemory s 4 ∧
      v = s.mem.read (codeByte s 3) ++ s.mem.read (codeByte s 2)) →
    decodeWords w v = .error why →
    (s.params.unlistedEncoding = .refuse → step s = .refused (.rejected why)) ∧
    (s.params.unlistedEncoding = .raiseUnd → s.mem.wf = true → entersInMemory s.started 10 →
      ∃ t, step s = .next t ∧ entered s.started t s.started.psr s.psr.i 10) ∧
    (s.params.unlistedEncoding = .ignoreFields →
      (w &&& 0xFE01 = 0x7800 → step s = exec .retx s.started) ∧
      (w &&& 0xFE01 = 0x7A00 → step s = exec (.excp (w.extractLsb' 1 4)) s.started) ∧
      (w &&& 0xFE01 = 0x7C00 → step s = exec (if w.getLsbD 5 then .ei else .di) s.started) ∧
      (w &&& 0xFE01 = 0x7E00 → step s = exec .wait s.started) ∧
      (w &&& 0xFE0F = 0x340E →
        step s = exec (.bal (w.extractLsb' 5 4) (w.extractLsb' 4 1 ++ (v &&& 0xFFFE))) s.started))

/-- The words the spec gives for addb r0,r3; movw $0x17,r8; movb $-1,r2; loadw 0x20000(r5,r4),r7; storw r0,0x9120; bne
*+16; bal ra; jal ra,r3; lpr r1,psr; excp svc; tbit $3,r1; nop and the undefined word 5625 decode to those
instructions. Rests on 95_test_vectors.md section 1, 30_encoding.md rule R112. -/
def Obligations.WordsOfTheSpecDecode : Prop :=
  decodeWords 0x4061 0 = .ok (.addb (.reg 0) 3) ∧
  decodeWords 0x3911 0x0017 = .ok (.movw (.medium 0x17) 8) ∧
  decodeWords 0x185F 0 = .ok (.movb (.short (-1)) 2) ∧
  decodeWords 0xBCE9 0x0000 = .ok (.loadw (.far 0x20000 4) 7) ∧
  decodeWords 0xF81F 0x9120 = .ok (.storw 0 (.abs 0x9120)) ∧
  decodeWords 0x4030 0 = .ok (.bne (.short 16)) ∧
  decodeWords 0x35CE 0x0F6C = .ok (.bal 14 0x0F6C) ∧
  decodeWords 0x75C7 0 = .ok (.jal 14 3) ∧
  decodeWords 0x7022 0 = .ok (.lpr 1 .psr) ∧
  decodeWords 0x7BEA 0 = .ok (.excp 5) ∧
  decodeWords 0x3623 0 = .ok (.tbit (.short 3) 1) ∧
  decodeWords 0x0200 0 = .ok .nop ∧
  decodeWords 0x5625 0 = .ok (.und (.row8 1 2))
end

