-- ==== Sys2Proof/Laws/Decode.lean ====
section
/-! SUPPORT. The fields of a packed instruction word, the codes of the operands, and the bytes of a word. -/

namespace Sys2Proof

/-- The upper part of a concatenation. -/
theorem extract_append_hi {n m : Nat} (a : BitVec n) (b : BitVec m) (s l : Nat) (h : m ≤ s) :
    (a ++ b).extractLsb' s l = a.extractLsb' (s - m) l := by
  apply BitVec.eq_of_getLsbD_eq
  intro i hi
  simp only [BitVec.getLsbD_extractLsb', BitVec.getLsbD_append]
  rw [if_neg (by omega), show s + i - m = s - m + i by omega]

/-- The lower part of a concatenation. -/
theorem extract_append_lo {n m : Nat} (a : BitVec n) (b : BitVec m) (s l : Nat) (h : s + l ≤ m) :
    (a ++ b).extractLsb' s l = b.extractLsb' s l := by
  apply BitVec.eq_of_getLsbD_eq
  intro i hi
  simp only [BitVec.getLsbD_extractLsb', BitVec.getLsbD_append]
  rw [if_pos (by omega)]

/-- All of a value. -/
theorem extract_all {n : Nat} (a : BitVec n) : a.extractLsb' 0 n = a := by
  apply BitVec.eq_of_getLsbD_eq
  intro i hi
  simp [hi]

/-- Two adjacent parts of a value. -/
theorem extract_adjacent {n : Nat} (a : BitVec n) (s k l : Nat) :
    a.extractLsb' (s + k) l ++ a.extractLsb' s k = a.extractLsb' s (l + k) := by
  apply BitVec.eq_of_getLsbD_eq
  intro i hi
  simp only [BitVec.getLsbD_extractLsb', BitVec.getLsbD_append]
  split
  · simp [show i < k by assumption, hi]
  · simp [hi, show i - k < l by omega, show s + k + (i - k) = s + i by omega]

section fields
variable (top : BitVec 2) (i : BitVec 1) (op f2 f1 : BitVec 4) (b0 : BitVec 1)

@[simp] theorem topOf_pack : topOf (pack top i op f2 f1 b0) = top := by
  simp only [topOf, pack]
  rw [extract_append_hi _ _ 14 2 (by decide), extract_append_hi _ _ _ 2 (by decide), extract_append_hi _ _ _ 2 (by decide),
    extract_append_hi _ _ _ 2 (by decide), extract_append_hi _ _ _ 2 (by decide)]
  exact extract_all top

@[simp] theorem iOf_pack : iOf (pack top i op f2 f1 b0) = i := by
  simp only [iOf, pack]
  rw [extract_append_hi _ _ 13 1 (by decide), extract_append_hi _ _ _ 1 (by decide), extract_append_hi _ _ _ 1 (by decide),
    extract_append_hi _ _ _ 1 (by decide), extract_append_lo _ _ _ 1 (by decide)]
  exact extract_all i

@[simp] theorem opOf_pack : opOf (pack top i op f2 f1 b0) = op := by
  simp only [opOf, pack]
  rw [extract_append_hi _ _ 9 4 (by decide), extract_append_hi _ _ _ 4 (by decide), extract_append_hi _ _ _ 4 (by decide),
    extract_append_lo _ _ _ 4 (by decide)]
  exact extract_all op

@[simp] theorem f2Of_pack : f2Of (pack top i op f2 f1 b0) = f2 := by
  simp only [f2Of, pack]
  rw [extract_append_hi _ _ 5 4 (by decide), extract_append_hi _ _ _ 4 (by decide), extract_append_lo _ _ _ 4 (by decide)]
  exact extract_all f2

@[simp] theorem f1Of_pack : f1Of (pack top i op f2 f1 b0) = f1 := by
  simp only [f1Of, pack]
  rw [extract_append_hi _ _ 1 4 (by decide), extract_append_lo _ _ _ 4 (by decide)]
  exact extract_all f1

@[simp] theorem b0Of_pack : b0Of (pack top i op f2 f1 b0) = b0 := by
  simp only [b0Of, pack]
  rw [extract_append_lo _ _ 0 1 (by decide)]
  exact extract_all b0

end fields

/-- A word is the packing of its six fields (R82). -/
theorem pack_fields (w : Word) : pack (topOf w) (iOf w) (opOf w) (f2Of w) (f1Of w) (b0Of w) = w := by
  simp only [pack, topOf, iOf, opOf, f2Of, f1Of, b0Of]
  rw [extract_adjacent w 13 1 2, extract_adjacent w 9 4 (2 + 1), extract_adjacent w 5 4 (2 + 1 + 4),
    extract_adjacent w 1 4 (2 + 1 + 4 + 4), extract_adjacent w 0 1 (2 + 1 + 4 + 4 + 4)]
  exact extract_all w

/-- Two words with the same fields are the same word. -/
theorem word_ext {v w : Word} (h0 : topOf v = topOf w) (h1 : iOf v = iOf w) (h2 : opOf v = opOf w) (h3 : f2Of v = f2Of w)
    (h4 : f1Of v = f1Of w) (h5 : b0Of v = b0Of w) : v = w := by
  rw [← pack_fields v, ← pack_fields w, h0, h1, h2, h3, h4, h5]

@[simp] theorem condOf_code (c : Cond) : condOf c.code = some c := by cases c <;> rfl

/-- A condition code belongs to the condition it is read as. -/
theorem code_of_condOf {b : BitVec 4} {c : Cond} (h : condOf b = some c) : c.code = b := by
  revert h
  revert b
  cases c <;> decide

/-- The codes of conditions are neither 1110 nor 1111. -/
theorem cond_code_lt (c : Cond) : c.code ≠ 0b1110#4 ∧ c.code ≠ 0b1111#4 := by cases c <;> decide

@[simp] theorem procRegOf_code (p : ProcReg) : procRegOf p.code = some p := by cases p <;> rfl

/-- A processor-register code belongs to the register it is read as. -/
theorem code_of_procRegOf {b : BitVec 4} {p : ProcReg} (h : procRegOf b = some p) : p.code = b := by
  revert h
  revert b
  cases p <;> decide

/-- An instruction of the special format has the fixed fields R106 lists. -/
theorem decodeSpecial_fields {op f2 f1 : BitVec 4} {ins : Instr} (h : decodeSpecial op f2 f1 = .ok ins) :
    (op = 0b1100#4 → f2 = 0b1111#4 ∧ f1 = 0b1111#4) ∧ (op = 0b1101#4 → f2 = 0b1111#4) ∧
      (op = 0b1110#4 → (f2 = 0b1110#4 ∨ f2 = 0b1111#4) ∧ f1 = 0b1111#4) ∧
      (op = 0b1111#4 → f2 = 0b1111#4 ∧ f1 = 0b1111#4) := by
  refine ⟨?_, ?_, ?_, ?_⟩ <;> rintro rfl
  · by_contra hc
    simp only [decodeSpecial, if_neg hc] at h
    cases h
  · by_contra hc
    simp only [decodeSpecial, if_neg hc] at h
    cases h
  · by_cases h1 : f1 = 0b1111#4
    · refine ⟨?_, h1⟩
      by_contra hc
      rw [not_or] at hc
      simp only [decodeSpecial, h1, if_neg hc.1, if_neg hc.2] at h
      simp at h
    · simp only [decodeSpecial, ne_eq, h1, not_false_eq_true, if_true] at h
      cases h
  · by_contra hc
    simp only [decodeSpecial, if_neg hc] at h
    cases h

/-- A medium branch or BAL has the low nibble R96 and R97 give. -/
theorem decode00_nibble {i : BitVec 1} {f2 f1 : BitVec 4} {w2 : Word} {ins : Instr}
    (h : decode00 i 0b1010#4 f2 f1 0#1 w2 = .ok ins) : f1.extractLsb' 0 3 = 0b111#3 := by
  by_contra hc
  simp only [decode00, if_true, show ¬ (0#1 = 1#1) by decide, if_false, ne_eq, hc, not_false_eq_true] at h
  cases h

/-- Ignoring the fixed fields of a word that is an instruction changes nothing: they stand as R106 lists them. -/
theorem listedFirst_of_decoded {w1 w2 : Word} {ins : Instr} (h : decodeWords w1 w2 = .ok ins) : listedFirst w1 = w1 := by
  by_cases hn : w1 = 0x0200#16
  · subst hn
    rfl
  · rw [decodeWords, if_neg hn] at h
    rw [listedFirst]
    split
    · rfl
    · rename_i hb
      have hb : b0Of w1 = 0#1 := by
        generalize b0Of w1 = b at hb ⊢
        revert b
        decide
      rw [hb] at h
      have key {f2 f1 : BitVec 4} (e2 : f2 = f2Of w1) (e1 : f1 = f1Of w1) :
          pack (topOf w1) (iOf w1) (opOf w1) f2 f1 0#1 = w1 := by
        rw [e2, e1, ← hb]
        exact pack_fields w1
      split
      · rename_i hm
        rw [hm.1, hm.2] at h
        have h3 := decode00_nibble h
        refine key rfl ?_
        generalize f1Of w1 = f1 at h3
        revert f1
        decide
      · split
        · rename_i hs
          simp only [hs.1, hs.2, decodeFields, decode01Even] at h
          rw [if_neg (by decide), if_neg (by decide)] at h
          obtain ⟨hr, he, hd, hw⟩ := decodeSpecial_fields h
          split
          · exact key (hr ‹_›).1.symm (hr ‹_›).2.symm
          · exact key (he ‹_›).symm rfl
          · refine key ?_ (hd ‹_›).2.symm
            rcases (hd ‹_›).1 with h2 | h2 <;> rw [h2] <;> decide
          · exact key (hw ‹_›).1.symm (hw ‹_›).2.symm
          · rfl
        · rfl

/-- Clearing displacement bit 0 of a word pair that is an instruction changes nothing (R104). -/
theorem listedSecond_of_decoded {w1 w2 : Word} {ins : Instr} (h : decodeWords w1 w2 = .ok ins) :
    decodeWords w1 (listedSecond w1 w2) = .ok ins := by
  rw [listedSecond]
  split
  · rename_i hm
    have hd : w2.getLsbD 0 = false := by
      have hn : w1 ≠ 0x0200#16 := by
        rintro rfl
        exact absurd hm.2.1 (by decide)
      rw [decodeWords, if_neg hn, hm.1, hm.2.1, hm.2.2] at h
      have h3 := decode00_nibble h
      cases hd : w2.getLsbD 0
      · rfl
      · simp only [decodeFields, decode00, if_true, show ¬ (0#1 = 1#1) by decide, if_false, h3, ne_eq,
          not_true_eq_false, hd] at h
        split at h <;> cases h
    have : w2.extractLsb' 1 15 ++ 0#1 = w2 := by
      apply BitVec.eq_of_getLsbD_eq
      intro k hk
      simp only [BitVec.getLsbD_append, BitVec.getLsbD_extractLsb']
      split
      · rw [show k = 0 by omega, hd]
        simp
      · simp [show k - 1 < 15 by omega, show 1 + (k - 1) = k by omega]
    rw [this]
    exact h
  · exact h

/-- A word is the word of its two bytes. -/
@[simp] theorem wordOfBytes_bytesOfWord (w : Word) : wordOfBytes (w.extractLsb' 0 8) (w.extractLsb' 8 8) = w := by
  rw [wordOfBytes, extract_adjacent w 0 8 8]
  exact extract_all w

/-- The bytes of a word are the two it was made of. -/
@[simp] theorem bytesOfWord_wordOfBytes (lo hi : Byte) : bytesOfWord (wordOfBytes lo hi) = [lo, hi] := by
  simp only [bytesOfWord, wordOfBytes]
  rw [extract_append_lo _ _ 0 8 (by decide), extract_append_hi _ _ 8 8 (by decide), extract_all]
  exact congrArg _ (congrArg (· :: []) (extract_all hi))

end Sys2Proof
end

