-- ==== Sys2Proof/Laws/Memory.lean ====
section
/-! SUPPORT. The laws of memory: what a read gives after a write, and that every memory operation keeps the canonical
form. -/

namespace Sys2Proof.Machine

open Sys2Proof

/-- Reading a memory by its first cell. -/
theorem Memory.read_cons (b : Nat) (v : Byte) (m : Memory) (a : Nat) :
    Memory.read ((b, v) :: m) a = if a = b then v else if a < b then unlistedByte else Memory.read m a := rfl

/-- The canonical form above a bound, cell by cell. -/
theorem Memory.wfAbove_cons (lo : Option Nat) (b : Nat) (v : Byte) (m : Memory) :
    Memory.wfAbove lo ((b, v) :: m) = true ↔
      (∀ l, lo = some l → l < b) ∧ b < 2 ^ 18 ∧ v ≠ unlistedByte ∧ Memory.wfAbove (some b) m = true := by
  cases lo <;> simp [Memory.wfAbove, and_assoc]

/-- Up to a bound below every listed address memory reads as unlisted. -/
theorem Memory.read_of_wfAbove {lo : Nat} {m : Memory} (h : Memory.wfAbove (some lo) m = true) {a : Nat} (ha : a ≤ lo) :
    Memory.read m a = unlistedByte := by
  cases m with
  | nil => rfl
  | cons c m =>
    obtain ⟨b, v⟩ := c
    have := ((Memory.wfAbove_cons _ _ _ _).1 h).1 lo rfl
    rw [Memory.read_cons, if_neg (by omega), if_pos (by omega)]

/-- The canonical form above a bound is the canonical form above every lower bound. -/
theorem Memory.wfAbove_mono {m : Memory} {lo : Nat} {lo' : Option Nat} (hl : ∀ l, lo' = some l → l ≤ lo)
    (h : Memory.wfAbove (some lo) m = true) : Memory.wfAbove lo' m = true := by
  cases m with
  | nil => rfl
  | cons c m =>
    obtain ⟨b, v⟩ := c
    obtain ⟨hlo, hb, hv, hm⟩ := (Memory.wfAbove_cons _ _ _ _).1 h
    exact (Memory.wfAbove_cons _ _ _ _).2 ⟨fun l e => Nat.lt_of_le_of_lt (hl l e) (hlo lo rfl), hb, hv, hm⟩

/-- A write keeps the canonical form above a bound below the address written. -/
theorem Memory.wfAbove_write {m : Memory} {lo : Option Nat} {a : Nat} (v : Byte) (ha : ∀ l, lo = some l → l < a)
    (ht : a < 2 ^ 18) (h : Memory.wfAbove lo m = true) : Memory.wfAbove lo (Memory.write m a v) = true := by
  induction m generalizing lo with
  | nil =>
    simp only [Memory.write]
    split
    · rfl
    · exact (Memory.wfAbove_cons _ _ _ _).2 ⟨ha, ht, ‹_›, rfl⟩
  | cons c m ih =>
    obtain ⟨b, w⟩ := c
    obtain ⟨hlo, hb, hw, hm⟩ := (Memory.wfAbove_cons _ _ _ _).1 h
    simp only [Memory.write]
    split
    · split
      · exact h
      · exact (Memory.wfAbove_cons _ _ _ _).2 ⟨ha, ht, ‹_›, (Memory.wfAbove_cons _ _ _ _).2 ⟨by simpa, hb, hw, hm⟩⟩
    · split
      · subst ‹a = b›
        split
        · exact Memory.wfAbove_mono (fun l e => Nat.le_of_lt (hlo l e)) hm
        · exact (Memory.wfAbove_cons _ _ _ _).2 ⟨hlo, hb, ‹_›, hm⟩
      · refine (Memory.wfAbove_cons _ _ _ _).2 ⟨hlo, hb, hw, ih ?_ hm⟩
        simp only [Option.some.injEq]
        omega

/-- A write keeps the canonical form. -/
theorem Memory.wf_write {m : Memory} {a : Nat} (v : Byte) (ht : a < 2 ^ 18) (h : Memory.wf m = true) :
    Memory.wf (Memory.write m a v) = true :=
  Memory.wfAbove_write v (by simp) ht h

/-- A read after a write: the value written at that address, the old value everywhere else. -/
theorem Memory.read_write_above {m : Memory} {lo : Option Nat} {a : Nat} (v : Byte) (h : Memory.wfAbove lo m = true)
    (x : Nat) : Memory.read (Memory.write m a v) x = if x = a then v else Memory.read m x := by
  induction m generalizing lo with
  | nil =>
    simp only [Memory.write]
    split
    · simp [Memory.read, *]
    · simp only [Memory.read, ite_self]
  | cons c m ih =>
    obtain ⟨b, w⟩ := c
    obtain ⟨-, -, -, hm⟩ := (Memory.wfAbove_cons _ _ _ _).1 h
    have hlow : ∀ y, y ≤ b → Memory.read m y = unlistedByte := fun y hy => Memory.read_of_wfAbove hm hy
    simp only [Memory.write]
    split
    · split
      · by_cases hx : x = a
        · rw [if_pos hx, Memory.read_cons, if_neg (by omega), if_pos (by omega), ‹v = _›]
        · rw [if_neg hx]
      · by_cases hx : x = a
        · rw [if_pos hx, Memory.read_cons, if_pos hx]
        · rw [if_neg hx, Memory.read_cons, if_neg hx]
          split
          · rw [Memory.read_cons, if_neg (by omega), if_pos (by omega)]
          · rfl
    · split
      · subst ‹a = b›
        split
        · by_cases hx : x = a
          · rw [if_pos hx, hlow x (by omega), ‹v = _›]
          · rw [if_neg hx, Memory.read_cons, if_neg hx]
            split
            · exact hlow x (by omega)
            · rfl
        · by_cases hx : x = a <;> simp [Memory.read_cons, hx]
      · by_cases hx : x = b
        · simp [Memory.read_cons, hx, Ne.symm ‹a ≠ b›]
        · simp only [Memory.read_cons, hx, if_false, ih hm]
          by_cases ha : x = a
          · rw [if_pos ha, if_pos ha, if_neg (by omega)]
          · rw [if_neg ha, if_neg ha]

/-- A read after a write: the value written at that address, the old value everywhere else. -/
theorem Memory.read_write {m : Memory} {a : Nat} (v : Byte) (h : Memory.wf m = true) (x : Nat) :
    Memory.read (Memory.write m a v) x = if x = a then v else Memory.read m x :=
  Memory.read_write_above v h x

/-- A word write keeps the canonical form. -/
theorem Memory.wf_writeWord {m : Memory} (a : Addr) (v : Word) (h : Memory.wf m = true) :
    Memory.wf (Memory.writeWord m a v) = true :=
  Memory.wf_write _ (a + 1).isLt (Memory.wf_write _ a.isLt h)

/-- A byte read after a word write. -/
theorem Memory.read_writeWord {m : Memory} (a : Addr) (v : Word) (h : Memory.wf m = true) (x : Nat) :
    Memory.read (Memory.writeWord m a v) x =
      if x = (a + 1).toNat then v.extractLsb' 8 8 else if x = a.toNat then v.extractLsb' 0 8 else Memory.read m x := by
  rw [Memory.writeWord, Memory.read_write _ (Memory.wf_write _ a.isLt h), Memory.read_write _ h]

/-- A word is the word of its two bytes. -/
theorem word_of_halves (v : Word) : v.extractLsb' 8 8 ++ v.extractLsb' 0 8 = v := by
  apply BitVec.eq_of_getLsbD_eq
  intro i hi
  rw [BitVec.getLsbD_append, BitVec.getLsbD_extractLsb', BitVec.getLsbD_extractLsb']
  split
  · simp [*]
  · simp [show i - 8 < 8 by omega, show 8 + (i - 8) = i by omega]

/-- The next address differs from an address. -/
theorem addr_succ_ne (a : Addr) : (a + 1).toNat ≠ a.toNat := by
  have := a.isLt
  rw [BitVec.toNat_add]
  simp
  omega

/-- A word read where a word was written (R55, R56). -/
theorem Memory.readWord_writeWord {m : Memory} (a : Addr) (v : Word) (h : Memory.wf m = true) :
    Memory.readWord (Memory.writeWord m a v) a = v := by
  simp only [Memory.readWord, Memory.read_writeWord a v h, if_true, if_neg (Ne.symm (addr_succ_ne a))]
  exact word_of_halves v

/-- A word read at an address whose two bytes a word write leaves alone. -/
theorem Memory.readWord_writeWord_other {m : Memory} {a b : Addr} (v : Word) (h : Memory.wf m = true)
    (h0 : b ≠ a) (h1 : b ≠ a + 1) (h2 : b + 1 ≠ a) :
    Memory.readWord (Memory.writeWord m a v) b = Memory.readWord m b := by
  have h3 : b + 1 ≠ a + 1 := fun e => h0 (by simpa using e)
  simp only [Memory.readWord, Memory.read_writeWord a v h, BitVec.toNat_inj, h0, h1, h2, h3, if_false]

end Sys2Proof.Machine
end

