-- ==== Sys2Proof/Laws/State.lean ====
section
/-! SUPPORT. One lemma for each field and each update of State, so that no later proof unfolds a record update. -/

namespace Sys2Proof.Machine

open Sys2Proof

/-! ## setReg -/

@[simp] theorem setReg_regs (s : State) (r : Reg) (v : Word) :
    (s.setReg r v).regs = s.regs.set r.toNat v := rfl

@[simp] theorem setReg_pc (s : State) (r : Reg) (v : Word) :
    (s.setReg r v).pc = s.pc := rfl

@[simp] theorem setReg_isp (s : State) (r : Reg) (v : Word) :
    (s.setReg r v).isp = s.isp := rfl

@[simp] theorem setReg_intbase (s : State) (r : Reg) (v : Word) :
    (s.setReg r v).intbase = s.intbase := rfl

@[simp] theorem setReg_psr (s : State) (r : Reg) (v : Word) :
    (s.setReg r v).psr = s.psr := rfl

@[simp] theorem setReg_cfg (s : State) (r : Reg) (v : Word) :
    (s.setReg r v).cfg = s.cfg := rfl

@[simp] theorem setReg_mem (s : State) (r : Reg) (v : Word) :
    (s.setReg r v).mem = s.mem := rfl

@[simp] theorem setReg_waiting (s : State) (r : Reg) (v : Word) :
    (s.setReg r v).waiting = s.waiting := rfl

@[simp] theorem setReg_stale (s : State) (r : Reg) (v : Word) :
    (s.setReg r v).stale = s.stale := rfl

@[simp] theorem setReg_inputs (s : State) (r : Reg) (v : Word) :
    (s.setReg r v).inputs = s.inputs := rfl

@[simp] theorem setReg_params (s : State) (r : Reg) (v : Word) :
    (s.setReg r v).params = s.params := rfl

@[simp] theorem setReg_draws (s : State) (r : Reg) (v : Word) :
    (s.setReg r v).draws = s.draws := rfl

/-! ## drawn -/

@[simp] theorem drawn_regs (s : State) (k : Nat) :
    (s.drawn k).regs = s.regs := rfl

@[simp] theorem drawn_pc (s : State) (k : Nat) :
    (s.drawn k).pc = s.pc := rfl

@[simp] theorem drawn_isp (s : State) (k : Nat) :
    (s.drawn k).isp = s.isp := rfl

@[simp] theorem drawn_intbase (s : State) (k : Nat) :
    (s.drawn k).intbase = s.intbase := rfl

@[simp] theorem drawn_psr (s : State) (k : Nat) :
    (s.drawn k).psr = s.psr := rfl

@[simp] theorem drawn_cfg (s : State) (k : Nat) :
    (s.drawn k).cfg = s.cfg := rfl

@[simp] theorem drawn_mem (s : State) (k : Nat) :
    (s.drawn k).mem = s.mem := rfl

@[simp] theorem drawn_waiting (s : State) (k : Nat) :
    (s.drawn k).waiting = s.waiting := rfl

@[simp] theorem drawn_stale (s : State) (k : Nat) :
    (s.drawn k).stale = s.stale := rfl

@[simp] theorem drawn_inputs (s : State) (k : Nat) :
    (s.drawn k).inputs = s.inputs := rfl

@[simp] theorem drawn_params (s : State) (k : Nat) :
    (s.drawn k).params = s.params := rfl

@[simp] theorem drawn_draws (s : State) (k : Nat) :
    (s.drawn k).draws = s.draws + k := rfl

/-- Values drawn in two steps. -/
@[simp] theorem drawn_drawn (s : State) (k l : Nat) : (s.drawn k).drawn l = s.drawn (k + l) := by
  simp [State.drawn, Nat.add_assoc]

/-! ## advance -/

@[simp] theorem advance_regs (s : State) (len : Nat) :
    (s.advance len).regs = s.regs := rfl

@[simp] theorem advance_pc (s : State) (len : Nat) :
    (s.advance len).pc = s.nextPc len := rfl

@[simp] theorem advance_isp (s : State) (len : Nat) :
    (s.advance len).isp = s.isp := rfl

@[simp] theorem advance_intbase (s : State) (len : Nat) :
    (s.advance len).intbase = s.intbase := rfl

@[simp] theorem advance_psr (s : State) (len : Nat) :
    (s.advance len).psr = s.psr := rfl

@[simp] theorem advance_cfg (s : State) (len : Nat) :
    (s.advance len).cfg = s.cfg := rfl

@[simp] theorem advance_mem (s : State) (len : Nat) :
    (s.advance len).mem = s.mem := rfl

@[simp] theorem advance_waiting (s : State) (len : Nat) :
    (s.advance len).waiting = s.waiting := rfl

@[simp] theorem advance_stale (s : State) (len : Nat) :
    (s.advance len).stale = s.stale := rfl

@[simp] theorem advance_inputs (s : State) (len : Nat) :
    (s.advance len).inputs = s.inputs := rfl

@[simp] theorem advance_params (s : State) (len : Nat) :
    (s.advance len).params = s.params := rfl

@[simp] theorem advance_draws (s : State) (len : Nat) :
    (s.advance len).draws = s.draws := rfl

/-! ## serialize -/

@[simp] theorem serialize_regs (s : State) :
    s.serialize.regs = s.regs := rfl

@[simp] theorem serialize_pc (s : State) :
    s.serialize.pc = s.pc := rfl

@[simp] theorem serialize_isp (s : State) :
    s.serialize.isp = s.isp := rfl

@[simp] theorem serialize_intbase (s : State) :
    s.serialize.intbase = s.intbase := rfl

@[simp] theorem serialize_psr (s : State) :
    s.serialize.psr = s.psr := rfl

@[simp] theorem serialize_cfg (s : State) :
    s.serialize.cfg = s.cfg := rfl

@[simp] theorem serialize_mem (s : State) :
    s.serialize.mem = s.mem := rfl

@[simp] theorem serialize_waiting (s : State) :
    s.serialize.waiting = s.waiting := rfl

@[simp] theorem serialize_stale (s : State) :
    s.serialize.stale = [] := rfl

@[simp] theorem serialize_inputs (s : State) :
    s.serialize.inputs = s.inputs := rfl

@[simp] theorem serialize_params (s : State) :
    s.serialize.params = s.params := rfl

@[simp] theorem serialize_draws (s : State) :
    s.serialize.draws = s.draws := rfl

/-! ## noteStored -/

@[simp] theorem noteStored_regs (s : State) (a : Addr) :
    (s.noteStored a).regs = s.regs := rfl

@[simp] theorem noteStored_pc (s : State) (a : Addr) :
    (s.noteStored a).pc = s.pc := rfl

@[simp] theorem noteStored_isp (s : State) (a : Addr) :
    (s.noteStored a).isp = s.isp := rfl

@[simp] theorem noteStored_intbase (s : State) (a : Addr) :
    (s.noteStored a).intbase = s.intbase := rfl

@[simp] theorem noteStored_psr (s : State) (a : Addr) :
    (s.noteStored a).psr = s.psr := rfl

@[simp] theorem noteStored_cfg (s : State) (a : Addr) :
    (s.noteStored a).cfg = s.cfg := rfl

@[simp] theorem noteStored_mem (s : State) (a : Addr) :
    (s.noteStored a).mem = s.mem := rfl

@[simp] theorem noteStored_waiting (s : State) (a : Addr) :
    (s.noteStored a).waiting = s.waiting := rfl

@[simp] theorem noteStored_stale (s : State) (a : Addr) :
    (s.noteStored a).stale = (a.toNat, s.mem.read a.toNat) :: s.stale := rfl

@[simp] theorem noteStored_inputs (s : State) (a : Addr) :
    (s.noteStored a).inputs = s.inputs := rfl

@[simp] theorem noteStored_params (s : State) (a : Addr) :
    (s.noteStored a).params = s.params := rfl

@[simp] theorem noteStored_draws (s : State) (a : Addr) :
    (s.noteStored a).draws = s.draws := rfl

/-! ## nextBoundary -/

@[simp] theorem nextBoundary_regs (s : State) :
    s.nextBoundary.regs = s.regs := rfl

@[simp] theorem nextBoundary_pc (s : State) :
    s.nextBoundary.pc = s.pc := rfl

@[simp] theorem nextBoundary_isp (s : State) :
    s.nextBoundary.isp = s.isp := rfl

@[simp] theorem nextBoundary_intbase (s : State) :
    s.nextBoundary.intbase = s.intbase := rfl

@[simp] theorem nextBoundary_psr (s : State) :
    s.nextBoundary.psr = s.psr := rfl

@[simp] theorem nextBoundary_cfg (s : State) :
    s.nextBoundary.cfg = s.cfg := rfl

@[simp] theorem nextBoundary_mem (s : State) :
    s.nextBoundary.mem = s.mem := rfl

@[simp] theorem nextBoundary_waiting (s : State) :
    s.nextBoundary.waiting = s.waiting := rfl

@[simp] theorem nextBoundary_stale (s : State) :
    s.nextBoundary.stale = s.stale := rfl

@[simp] theorem nextBoundary_inputs (s : State) :
    s.nextBoundary.inputs = s.inputs.tail := rfl

@[simp] theorem nextBoundary_params (s : State) :
    s.nextBoundary.params = s.params := rfl

@[simp] theorem nextBoundary_draws (s : State) :
    s.nextBoundary.draws = s.draws := rfl

/-! ## readyToRun -/

@[simp] theorem readyToRun_regs (s : State) :
    s.readyToRun.regs = s.regs := rfl

@[simp] theorem readyToRun_pc (s : State) :
    s.readyToRun.pc = s.pc := rfl

@[simp] theorem readyToRun_isp (s : State) :
    s.readyToRun.isp = s.isp := rfl

@[simp] theorem readyToRun_intbase (s : State) :
    s.readyToRun.intbase = s.intbase := rfl

@[simp] theorem readyToRun_psr (s : State) :
    s.readyToRun.psr = { s.psr with p := false } := rfl

@[simp] theorem readyToRun_cfg (s : State) :
    s.readyToRun.cfg = s.cfg := rfl

@[simp] theorem readyToRun_mem (s : State) :
    s.readyToRun.mem = s.mem := rfl

@[simp] theorem readyToRun_waiting (s : State) :
    s.readyToRun.waiting = false := rfl

@[simp] theorem readyToRun_stale (s : State) :
    s.readyToRun.stale = s.stale := rfl

@[simp] theorem readyToRun_inputs (s : State) :
    s.readyToRun.inputs = Boundary.quiet :: s.inputs := rfl

@[simp] theorem readyToRun_params (s : State) :
    s.readyToRun.params = s.params := rfl

@[simp] theorem readyToRun_draws (s : State) :
    s.readyToRun.draws = s.draws := rfl

/-! ## readAt -/

/-- What an access reads: the byte in memory and nothing drawn, or from a device a free value (R52). -/
theorem readAt_cases (s : State) (a : Addr) :
    (s.onDevice a = false ∧ s.readAt a = (s.mem.read a.toNat, s)) ∨
      s.onDevice a = true ∧ s.readAt a = (s.unspecified.extractLsb' 0 8, s.drawn 1) := by
  cases h : s.onDevice a <;> simp [State.readAt, h]

@[simp] theorem readAt_regs (s : State) (a : Addr) :
    (s.readAt a).2.regs = s.regs := by rw [State.readAt]; split <;> rfl

@[simp] theorem readAt_pc (s : State) (a : Addr) :
    (s.readAt a).2.pc = s.pc := by rw [State.readAt]; split <;> rfl

@[simp] theorem readAt_isp (s : State) (a : Addr) :
    (s.readAt a).2.isp = s.isp := by rw [State.readAt]; split <;> rfl

@[simp] theorem readAt_intbase (s : State) (a : Addr) :
    (s.readAt a).2.intbase = s.intbase := by rw [State.readAt]; split <;> rfl

@[simp] theorem readAt_psr (s : State) (a : Addr) :
    (s.readAt a).2.psr = s.psr := by rw [State.readAt]; split <;> rfl

@[simp] theorem readAt_cfg (s : State) (a : Addr) :
    (s.readAt a).2.cfg = s.cfg := by rw [State.readAt]; split <;> rfl

@[simp] theorem readAt_mem (s : State) (a : Addr) :
    (s.readAt a).2.mem = s.mem := by rw [State.readAt]; split <;> rfl

@[simp] theorem readAt_waiting (s : State) (a : Addr) :
    (s.readAt a).2.waiting = s.waiting := by rw [State.readAt]; split <;> rfl

@[simp] theorem readAt_stale (s : State) (a : Addr) :
    (s.readAt a).2.stale = s.stale := by rw [State.readAt]; split <;> rfl

@[simp] theorem readAt_inputs (s : State) (a : Addr) :
    (s.readAt a).2.inputs = s.inputs := by rw [State.readAt]; split <;> rfl

@[simp] theorem readAt_params (s : State) (a : Addr) :
    (s.readAt a).2.params = s.params := by rw [State.readAt]; split <;> rfl

/-! ## writeAt -/

@[simp] theorem writeAt_regs (s : State) (a : Addr) (v : Byte) :
    (s.writeAt a v).regs = s.regs := by rw [State.writeAt]; split <;> rfl

@[simp] theorem writeAt_pc (s : State) (a : Addr) (v : Byte) :
    (s.writeAt a v).pc = s.pc := by rw [State.writeAt]; split <;> rfl

@[simp] theorem writeAt_isp (s : State) (a : Addr) (v : Byte) :
    (s.writeAt a v).isp = s.isp := by rw [State.writeAt]; split <;> rfl

@[simp] theorem writeAt_intbase (s : State) (a : Addr) (v : Byte) :
    (s.writeAt a v).intbase = s.intbase := by rw [State.writeAt]; split <;> rfl

@[simp] theorem writeAt_psr (s : State) (a : Addr) (v : Byte) :
    (s.writeAt a v).psr = s.psr := by rw [State.writeAt]; split <;> rfl

@[simp] theorem writeAt_cfg (s : State) (a : Addr) (v : Byte) :
    (s.writeAt a v).cfg = s.cfg := by rw [State.writeAt]; split <;> rfl

@[simp] theorem writeAt_waiting (s : State) (a : Addr) (v : Byte) :
    (s.writeAt a v).waiting = s.waiting := by rw [State.writeAt]; split <;> rfl

@[simp] theorem writeAt_inputs (s : State) (a : Addr) (v : Byte) :
    (s.writeAt a v).inputs = s.inputs := by rw [State.writeAt]; split <;> rfl

@[simp] theorem writeAt_params (s : State) (a : Addr) (v : Byte) :
    (s.writeAt a v).params = s.params := by rw [State.writeAt]; split <;> rfl

@[simp] theorem writeAt_draws (s : State) (a : Addr) (v : Byte) :
    (s.writeAt a v).draws = s.draws := by rw [State.writeAt]; split <;> rfl

/-- Whether a device answers at an address depends on the parameters alone (R52). -/
theorem onDevice_congr {s t : State} (h : t.params = s.params) (a : Addr) : t.onDevice a = s.onDevice a := by
  rw [State.onDevice, State.onDevice, h]

/-- Whether an access is refused depends on the parameters alone (R52). -/
theorem refuses_congr {s t : State} (h : t.params = s.params) (a : Addr) : t.refuses a = s.refuses a := by
  rw [State.refuses, State.refuses, h]

/-! ## resetSequence -/

@[simp] theorem resetSequence_pc (s : State) :
    (resetSequence s).pc = 0#18 := rfl

@[simp] theorem resetSequence_isp (s : State) :
    (resetSequence s).isp = tableAddr (Config.unspecified (s.draws + 16)) := rfl

@[simp] theorem resetSequence_intbase (s : State) :
    (resetSequence s).intbase = tableAddr (Config.unspecified (s.draws + 17)) := rfl

@[simp] theorem resetSequence_psr (s : State) :
    (resetSequence s).psr = Psr.reset := rfl

@[simp] theorem resetSequence_cfg (s : State) :
    (resetSequence s).cfg = 0#16 := rfl

@[simp] theorem resetSequence_mem (s : State) :
    (resetSequence s).mem = s.mem := rfl

@[simp] theorem resetSequence_waiting (s : State) :
    (resetSequence s).waiting = false := rfl

@[simp] theorem resetSequence_stale (s : State) :
    (resetSequence s).stale = s.stale := rfl

@[simp] theorem resetSequence_inputs (s : State) :
    (resetSequence s).inputs = s.inputs := rfl

@[simp] theorem resetSequence_params (s : State) :
    (resetSequence s).params = s.params := rfl

@[simp] theorem resetSequence_draws (s : State) :
    (resetSequence s).draws = s.draws + 18 := rfl

/-! ## writeLow -/

@[simp] theorem writeLow_pc (s : State) (r : Reg) (w : Width) (v : BitVec w.bits) :
    (s.writeLow r w v).pc = s.pc := by cases w <;> rfl

@[simp] theorem writeLow_isp (s : State) (r : Reg) (w : Width) (v : BitVec w.bits) :
    (s.writeLow r w v).isp = s.isp := by cases w <;> rfl

@[simp] theorem writeLow_intbase (s : State) (r : Reg) (w : Width) (v : BitVec w.bits) :
    (s.writeLow r w v).intbase = s.intbase := by cases w <;> rfl

@[simp] theorem writeLow_psr (s : State) (r : Reg) (w : Width) (v : BitVec w.bits) :
    (s.writeLow r w v).psr = s.psr := by cases w <;> rfl

@[simp] theorem writeLow_cfg (s : State) (r : Reg) (w : Width) (v : BitVec w.bits) :
    (s.writeLow r w v).cfg = s.cfg := by cases w <;> rfl

@[simp] theorem writeLow_mem (s : State) (r : Reg) (w : Width) (v : BitVec w.bits) :
    (s.writeLow r w v).mem = s.mem := by cases w <;> rfl

@[simp] theorem writeLow_waiting (s : State) (r : Reg) (w : Width) (v : BitVec w.bits) :
    (s.writeLow r w v).waiting = s.waiting := by cases w <;> rfl

@[simp] theorem writeLow_stale (s : State) (r : Reg) (w : Width) (v : BitVec w.bits) :
    (s.writeLow r w v).stale = s.stale := by cases w <;> rfl

@[simp] theorem writeLow_inputs (s : State) (r : Reg) (w : Width) (v : BitVec w.bits) :
    (s.writeLow r w v).inputs = s.inputs := by cases w <;> rfl

@[simp] theorem writeLow_params (s : State) (r : Reg) (w : Width) (v : BitVec w.bits) :
    (s.writeLow r w v).params = s.params := by cases w <;> rfl

@[simp] theorem writeLow_draws (s : State) (r : Reg) (w : Width) (v : BitVec w.bits) :
    (s.writeLow r w v).draws = s.draws := by cases w <;> rfl

/-! ## loadProc -/

@[simp] theorem loadProc_regs (s : State) (d : ProcReg) (v : Word) :
    (s.loadProc d v).regs = s.regs := by cases d <;> rfl

@[simp] theorem loadProc_pc (s : State) (d : ProcReg) (v : Word) :
    (s.loadProc d v).pc = s.pc := by cases d <;> rfl

@[simp] theorem loadProc_cfg (s : State) (d : ProcReg) (v : Word) :
    (s.loadProc d v).cfg = s.cfg := by cases d <;> rfl

@[simp] theorem loadProc_mem (s : State) (d : ProcReg) (v : Word) :
    (s.loadProc d v).mem = s.mem := by cases d <;> rfl

@[simp] theorem loadProc_waiting (s : State) (d : ProcReg) (v : Word) :
    (s.loadProc d v).waiting = s.waiting := by cases d <;> rfl

@[simp] theorem loadProc_stale (s : State) (d : ProcReg) (v : Word) :
    (s.loadProc d v).stale = s.stale := by cases d <;> rfl

@[simp] theorem loadProc_inputs (s : State) (d : ProcReg) (v : Word) :
    (s.loadProc d v).inputs = s.inputs := by cases d <;> rfl

@[simp] theorem loadProc_params (s : State) (d : ProcReg) (v : Word) :
    (s.loadProc d v).params = s.params := by cases d <;> rfl

@[simp] theorem loadProc_draws (s : State) (d : ProcReg) (v : Word) :
    (s.loadProc d v).draws = s.draws := by cases d <;> rfl

/-! ## Register reads -/

/-- A register read after a register write. -/
theorem reg_setReg (s : State) (r r' : Reg) (v : Word) :
    (s.setReg r v).reg r' = if r = r' then v else s.reg r' := by
  simp only [State.reg, State.setReg, Vector.getElem_set, BitVec.toNat_inj]

@[simp] theorem reg_setReg_same (s : State) (r : Reg) (v : Word) : (s.setReg r v).reg r = v := by
  simp [reg_setReg]

theorem reg_setReg_other (s : State) {r r' : Reg} (h : r ≠ r') (v : Word) : (s.setReg r v).reg r' = s.reg r' := by
  simp [reg_setReg, h]

/-- A write of operation width `w` leaves every other register alone. -/
theorem reg_writeLow_other (s : State) {r r' : Reg} (h : r ≠ r') (w : Width) (v : BitVec w.bits) :
    (s.writeLow r w v).reg r' = s.reg r' := by
  cases w <;> exact reg_setReg_other s h _

/-- A byte write replaces the low byte and keeps the high byte (R12). -/
theorem reg_writeLow_byte (s : State) (r : Reg) (v : Byte) :
    (s.writeLow r .byte v).reg r = (s.reg r).extractLsb' 8 8 ++ v := reg_setReg_same s r _

/-- A word write replaces the register (R12). -/
theorem reg_writeLow_word (s : State) (r : Reg) (v : Word) : (s.writeLow r .word v).reg r = v := reg_setReg_same s r _

@[simp] theorem reg_advance (s : State) (len : Nat) (r : Reg) : (s.advance len).reg r = s.reg r := rfl
@[simp] theorem reg_drawn (s : State) (k : Nat) (r : Reg) : (s.drawn k).reg r = s.reg r := rfl
@[simp] theorem reg_serialize (s : State) (r : Reg) : s.serialize.reg r = s.reg r := rfl
@[simp] theorem reg_noteStored (s : State) (a : Addr) (r : Reg) : (s.noteStored a).reg r = s.reg r := rfl
@[simp] theorem reg_nextBoundary (s : State) (r : Reg) : s.nextBoundary.reg r = s.reg r := rfl
@[simp] theorem reg_readAt (s : State) (a : Addr) (r : Reg) : (s.readAt a).2.reg r = s.reg r := by simp [State.reg]
@[simp] theorem reg_writeAt (s : State) (a : Addr) (v : Byte) (r : Reg) : (s.writeAt a v).reg r = s.reg r := by
  simp [State.reg]
@[simp] theorem reg_loadProc (s : State) (d : ProcReg) (v : Word) (r : Reg) : (s.loadProc d v).reg r = s.reg r := by
  cases d <;> rfl

end Sys2Proof.Machine
end

