-- ==== Sys2Proof/Laws/Ops.lean ====
section
/-! SUPPORT. For each shared operation, once, everything it can do. -/

namespace Sys2Proof.Machine

open Sys2Proof

/-! ## Answers -/

/-- The operations answer a next state exactly when they answer a state. -/
theorem finish_eq_next {r : Except Stop State} {t : State} : finish r = .next t ↔ r = .ok t := by
  cases r with
  | ok s => simp [finish]
  | error e => cases e <;> simp [finish]

/-- A check followed by an answer answers exactly when the check passes. -/
theorem bind_ok {α : Type} {c : Except Stop Unit} {x y : α} :
    ((c >>= fun _ => pure x) = .ok y) ↔ c = .ok () ∧ y = x := by
  cases c with
  | ok u => cases u; simp [bind, Except.bind, pure, Except.pure, eq_comm]
  | error e => simp [bind, Except.bind]

/-- Two operations in a row answer exactly when the first answers and the second answers what it is given. -/
theorem bind_eq_ok {α β : Type} {c : Except Stop α} {f : α → Except Stop β} {y : β} :
    (c >>= f) = .ok y ↔ ∃ x, c = .ok x ∧ f x = .ok y := by
  cases c <;> simp [bind, Except.bind]

/-! ## Data memory -/

/-- An access to the byte at an address has a meaning exactly where it is not refused (R52). -/
theorem checkByte_ok {s : State} {a : Addr} {u : Unit} : checkByte s a = .ok u ↔ s.refuses a = false := by
  simp only [checkByte]
  split <;> simp_all

/-- The access to the word at an address has a meaning: its second byte exists and neither byte is refused (R52, R55). -/
abbrev State.allowsWord (s : State) (a : Addr) : Prop :=
  ¬ (s.params.wordAtTop = .refuse ∧ a = 0x3FFFF#18) ∧ s.refuses a = false ∧ s.refuses (a + 1) = false

/-- An access to the word at an address has a meaning exactly where both bytes exist and are not refused (R52, R55). -/
theorem checkWord_ok {s : State} {a : Addr} {u : Unit} : checkWord s a = .ok u ↔ s.allowsWord a := by
  simp only [checkWord, State.allowsWord]
  split
  · simp_all
  · split <;> rename_i h <;> simp only [Bool.or_eq_true, not_or, Bool.not_eq_true] at h
    · refine ⟨nofun, fun ⟨_, h0, h1⟩ => ?_⟩
      rcases h with h | h
      · rw [h] at h0; cases h0
      · rw [h] at h1; cases h1
    · exact ⟨fun _ => ⟨‹_›, h⟩, fun _ => rfl⟩

/-- Everything the check of a byte can answer. -/
theorem checkByte_cases (s : State) (a : Addr) :
    (s.refuses a = false ∧ checkByte s a = .ok ()) ∨
      s.refuses a = true ∧ checkByte s a = .error (.refusal .reservedRegion) := by
  simp only [checkByte]
  cases h : s.refuses a <;> simp

/-- Everything the check of a word can answer. -/
theorem checkWord_cases (s : State) (a : Addr) :
    s.allowsWord a ∧ checkWord s a = .ok () ∨
      (s.params.wordAtTop = .refuse ∧ a = 0x3FFFF#18) ∧ checkWord s a = .error (.fault .wordAtTop) ∨
      ¬ (s.params.wordAtTop = .refuse ∧ a = 0x3FFFF#18) ∧ (s.refuses a = true ∨ s.refuses (a + 1) = true) ∧
        checkWord s a = .error (.refusal .reservedRegion) := by
  by_cases ha : s.params.wordAtTop = .refuse ∧ a = 0x3FFFF#18
  · exact .inr (.inl ⟨ha, by rw [checkWord, if_pos ha]⟩)
  · cases h0 : s.refuses a
    · cases h1 : s.refuses (a + 1)
      · exact .inl ⟨⟨ha, h0, h1⟩, checkWord_ok.2 ⟨ha, h0, h1⟩⟩
      · exact .inr (.inr ⟨ha, .inr rfl, by rw [checkWord, if_neg ha, if_pos (by rw [h1]; simp)]⟩)
    · exact .inr (.inr ⟨ha, .inl rfl, by rw [checkWord, if_neg ha, if_pos (by rw [h0]; rfl)]⟩)

/-- A read changes at most the number of values drawn. -/
theorem readAt_state (s : State) (a : Addr) : ∃ k, (s.readAt a).2 = s.drawn k := by
  rcases readAt_cases s a with ⟨-, h⟩ | ⟨-, h⟩
  · exact ⟨0, by rw [h]; rfl⟩
  · exact ⟨1, by rw [h]⟩

/-- A read where no device answers gives the byte in memory and changes nothing (R55). -/
theorem readAt_memory {s : State} {a : Addr} (h : s.onDevice a = false) : s.readAt a = (s.mem.read a.toNat, s) := by
  simp [State.readAt, h]

/-- A write where no device answers writes the byte to memory and notes the old one (R56, R66). -/
theorem writeAt_memory {s : State} {a : Addr} (v : Byte) (h : s.onDevice a = false) :
    s.writeAt a v = { s.noteStored a with mem := s.mem.write a.toNat v } := by
  simp [State.writeAt, h]

/-- A write to a device changes nothing (R52). -/
theorem writeAt_device {s : State} {a : Addr} (v : Byte) (h : s.onDevice a = true) : s.writeAt a v = s := by
  simp [State.writeAt, h]

/-- A write keeps the canonical form. -/
theorem wf_writeAt {s : State} (a : Addr) (v : Byte) (h : s.mem.wf = true) : (s.writeAt a v).mem.wf = true := by
  rw [State.writeAt]
  split
  · exact h
  · exact Memory.wf_write v a.isLt h

/-- A write changes nothing but memory and the noted earlier values. -/
theorem writeAt_frame (s : State) (a : Addr) (v : Byte) :
    s.writeAt a v = { s with mem := (s.writeAt a v).mem, stale := (s.writeAt a v).stale } := by
  rw [State.writeAt]
  split <;> rfl

/-- A write leaves every other byte as it is. -/
theorem read_writeAt_other {s : State} {a : Addr} (v : Byte) (h : s.mem.wf = true) {x : Nat} (hx : x ≠ a.toNat) :
    (s.writeAt a v).mem.read x = s.mem.read x := by
  rw [State.writeAt]
  split
  · rfl
  · exact (Memory.read_write v h x).trans (if_neg hx)

/-- What a read of a byte answers (R55). -/
theorem loadByte_ok {s : State} {a : Addr} {p : Byte × State} :
    loadByte s a = .ok p ↔ s.refuses a = false ∧ p = s.readAt a := by
  rw [loadByte, bind_ok, checkByte_ok]

/-- What a read of a word answers (R55). -/
theorem loadWord_ok {s : State} {a : Addr} {p : Word × State} :
    loadWord s a = .ok p ↔ s.allowsWord a ∧
      p = (((s.readAt a).2.readAt (a + 1)).1 ++ (s.readAt a).1, ((s.readAt a).2.readAt (a + 1)).2) := by
  simp only [loadWord]
  rw [bind_ok, checkWord_ok]

/-- A read of a word changes at most the number of values drawn. -/
theorem loadWord_state {s : State} {a : Addr} {p : Word × State} (h : loadWord s a = .ok p) : ∃ k, p.2 = s.drawn k := by
  obtain ⟨-, rfl⟩ := loadWord_ok.1 h
  obtain ⟨k, hk⟩ := readAt_state s a
  obtain ⟨l, hl⟩ := readAt_state (s.readAt a).2 (a + 1)
  exact ⟨k + l, hl.trans (by rw [hk, drawn_drawn])⟩

/-- A read of a word where no device answers gives the word in memory and changes nothing (R55). -/
theorem loadWord_memory {s : State} {a : Addr} (h : s.allowsWord a) (h0 : s.onDevice a = false)
    (h1 : s.onDevice (a + 1) = false) : loadWord s a = .ok (s.mem.readWord a, s) := by
  rw [loadWord_ok]
  refine ⟨h, ?_⟩
  rw [readAt_memory h0]
  simp only [readAt_memory h1, Memory.readWord]

/-- What a write of a byte does (R56). -/
theorem storeByte_ok {s t : State} {a : Addr} {v : Byte} :
    storeByte s a v = .ok t ↔ s.refuses a = false ∧ t = s.writeAt a v := by
  rw [storeByte, bind_ok, checkByte_ok]

/-- What a write of a word does (R56). -/
theorem storeWord_ok {s t : State} {a : Addr} {lo hi : Byte} :
    storeWord s a lo hi = .ok t ↔ s.allowsWord a ∧ t = (s.writeAt a lo).writeAt (a + 1) hi := by
  rw [storeWord, bind_ok, checkWord_ok]

/-- A write of a word changes nothing but memory, whose canonical form it keeps, and the noted earlier values. -/
theorem storeWord_frame {s t : State} {a : Addr} {lo hi : Byte} (h : storeWord s a lo hi = .ok t) :
    t = { s with mem := t.mem, stale := t.stale } ∧ (s.mem.wf = true → t.mem.wf = true) := by
  obtain ⟨-, rfl⟩ := storeWord_ok.1 h
  refine ⟨?_, fun hw => wf_writeAt _ _ (wf_writeAt _ _ hw)⟩
  rw [writeAt_frame, writeAt_frame]

/-- A write of a word where no device answers writes it to memory. -/
theorem storeWord_memory {s : State} {a : Addr} (lo hi : Byte) (h : s.allowsWord a) (h0 : s.onDevice a = false)
    (h1 : s.onDevice (a + 1) = false) :
    ∃ t, storeWord s a lo hi = .ok t ∧ t.mem = s.mem.writeWord a (hi ++ lo) := by
  refine ⟨_, storeWord_ok.2 ⟨h, rfl⟩, ?_⟩
  rw [writeAt_memory lo h0, writeAt_memory hi (by rw [← h1]; rfl), Memory.writeWord,
    extract_append_lo _ _ 0 8 (by decide), extract_append_hi _ _ 8 8 (by decide), extract_all, extract_all]

/-! ## Instruction fetch -/

/-- With no unserialized store at all no byte has earlier values. -/
theorem earlier_of_stale_nil {s : State} (h : s.stale = []) (a : Nat) : s.earlier a = [] := by
  simp [State.earlier, h]

/-- A fetch of a byte with no unserialized store to it is a read (R66). -/
theorem fetchByte_serialized {s : State} {a : Addr} (h : s.earlier a.toNat = []) : fetchByte s a = .ok (s.readAt a) := by
  simp [fetchByte, h]

/-- A fetch of a byte changes at most the number of values drawn. -/
theorem fetchByte_state {s : State} {a : Addr} {p : Byte × State} (h : fetchByte s a = .ok p) : ∃ k, p.2 = s.drawn k := by
  simp only [fetchByte] at h
  split at h
  · obtain rfl := Except.ok.inj h
    exact readAt_state s a
  · split at h
    · cases h
    · obtain rfl := Except.ok.inj h
      exact ⟨1, rfl⟩

/-- A fetch of a byte where no device answers returns the present value or an earlier one (R66). -/
theorem fetchByte_value {s : State} {a : Addr} {p : Byte × State} (hd : s.onDevice a = false) (h : fetchByte s a = .ok p) :
    p.1 = s.mem.read a.toNat ∨ p.1 ∈ s.earlier a.toNat := by
  simp only [fetchByte] at h
  split at h
  · obtain rfl := Except.ok.inj h
    exact .inl (by rw [readAt_memory hd])
  · rename_i old olds he
    split at h
    · cases h
    · obtain rfl := Except.ok.inj h
      have hlt : Config.staleChoice s.draws % (s.mem.read a.toNat :: old :: olds).length <
          (s.mem.read a.toNat :: old :: olds).length := Nat.mod_lt _ (by simp)
      have := List.getElem_mem hlt
      rw [List.getD_eq_getElem _ _ hlt, he]
      simpa only [List.mem_cons] using this

/-- What a fetch of an instruction word answers (R57): a word, with at most the number of values drawn changed. -/
theorem fetch16_ok {s : State} {a : Addr} {p : Word × State} (h : fetch16 s a = .ok p) :
    a.toNat < 0x20000 ∧ s.allowsWord a ∧ ∃ k, p.2 = s.drawn k := by
  simp only [fetch16] at h
  split at h
  · cases h
  · obtain ⟨u, hc, h⟩ := bind_eq_ok.1 h
    obtain ⟨lo, hlo, h⟩ := bind_eq_ok.1 h
    obtain ⟨hi, hhi, h⟩ := bind_eq_ok.1 h
    obtain rfl := Except.ok.inj h
    obtain ⟨k, hk⟩ := fetchByte_state hlo
    obtain ⟨l, hl⟩ := fetchByte_state hhi
    exact ⟨by omega, checkWord_ok.1 hc, k + l, hl.trans (by rw [hk, drawn_drawn])⟩

/-- What a fetch of an instruction word answers where it sees memory as it is (R57, R67). -/
theorem fetch16_serialized {s : State} {a : Addr} (ha : a.toNat < 0x20000) (hw : s.allowsWord a) (h0 : s.onDevice a = false)
    (h1 : s.onDevice (a + 1) = false) (e0 : s.earlier a.toNat = []) (e1 : s.earlier (a + 1).toNat = []) :
    fetch16 s a = .ok (wordOfBytes (s.mem.read a.toNat) (s.mem.read (a + 1).toNat), s) := by
  rw [fetch16, if_neg (Nat.not_le.2 ha), checkWord_ok (u := ()).2 hw]
  simp only [bind, Except.bind, pure, Except.pure, fetchByte_serialized e0, readAt_memory h0, fetchByte_serialized e1,
    readAt_memory h1]

/-- What the fetch of a second word answers: it changes at most the number of values drawn. -/
theorem fetchSecond_ok {s : State} {w1 : Word} {p : Word × State} (h : fetchSecond w1 s = .ok p) :
    ∃ k, p.2 = s.drawn k := by
  rw [fetchSecond] at h
  split at h
  · exact (fetch16_ok h).2.2
  · obtain rfl := Except.ok.inj h
    exact ⟨0, rfl⟩

/-- An instruction that UNLISTED_ENCODING gives comes from the decoder (R108). -/
theorem decodeUnder_some {p : Config.UnlistedEncoding} {w1 w2 : Word} {i : Instr}
    (h : decodeUnder p w1 w2 = .ok (some i)) : ∃ w, decodeWords w1 w = .ok i := by
  cases p
  case raiseUnd =>
    simp only [decodeUnder] at h
    split at h
    · obtain rfl := Option.some.inj (Except.ok.inj h)
      exact ⟨w2, ‹_›⟩
    · cases h
  all_goals
    simp only [decodeUnder, Except.map] at h
    split at h
    · cases h
    · obtain rfl := Option.some.inj (Except.ok.inj h)
      exact ⟨_, ‹_›⟩

/-- Words that are an instruction are that instruction whatever UNLISTED_ENCODING is (R108). -/
theorem decodeUnder_of_decoded {w1 w2 : Word} {i : Instr} (p : Config.UnlistedEncoding)
    (h : decodeWords w1 w2 = .ok i) : decodeUnder p w1 w2 = .ok (some i) := by
  cases p
  · rw [decodeUnder, h]; rfl
  · rw [decodeUnder, h]
  · rw [decodeUnder, listedSecond_of_decoded h]; rfl

/-- The first word of an instruction is decoded as it is (R108). -/
theorem firstWord_of_decoded {s : State} {w1 w2 : Word} {i : Instr} (h : decodeWords w1 w2 = .ok i) :
    s.firstWord w1 = w1 := by
  rw [State.firstWord]
  split
  · exact listedFirst_of_decoded h
  · rfl
  · rfl

/-- What the fetch of an instruction answers: it changes at most the number of values drawn. -/
theorem fetchInstr_ok {s : State} {p : Option Instr × State} (h : fetchInstr s = .ok p) :
    (∃ k, p.2 = s.drawn k) ∧ ∀ i, p.1 = some i → ∃ w1 w2, decodeWords w1 w2 = .ok i := by
  obtain ⟨first, hf, h⟩ := bind_eq_ok.1 h
  obtain ⟨second, hg, h⟩ := bind_eq_ok.1 h
  obtain ⟨-, -, k, hk⟩ := fetch16_ok hf
  obtain ⟨l, hl⟩ := fetchSecond_ok hg
  split at h
  · rename_i i hd
    obtain rfl := Except.ok.inj h
    refine ⟨⟨k + l, hl.trans (by rw [hk, drawn_drawn])⟩, fun j hj => ?_⟩
    simp only at hj
    subst hj
    exact ⟨_, decodeUnder_some hd⟩
  · cases h

/-! ## Code and table addresses -/

/-- A code address made of 16 bits has bits 17 and 0 zero (R15). -/
theorem fromHalf_legal (v : Word) : (fromHalf v).getLsbD 17 = false ∧ (fromHalf v).getLsbD 0 = false := by
  constructor <;> (simp only [fromHalf, BitVec.getLsbD_append]; rfl)

/-- The bytes of a code address's value: twice its 16-bit image (R15). -/
theorem fromHalf_toNat (v : Word) : (fromHalf v).toNat = 2 * v.toNat := by
  have := v.isLt
  rw [fromHalf, BitVec.toNat_append, BitVec.toNat_append, ← Nat.shiftLeft_add_eq_or_of_lt (by simp),
    ← Nat.shiftLeft_add_eq_or_of_lt (by omega), Nat.shiftLeft_eq, Nat.shiftLeft_eq]
  simp
  omega

/-- The 16-bit image of a code address made of 16 bits (R15). -/
theorem toHalf_fromHalf (v : Word) : toHalf (fromHalf v) = v := by
  simp only [toHalf, fromHalf]
  rw [extract_append_hi _ _ 1 16 (by decide), extract_append_lo _ _ _ 16 (by decide)]
  exact extract_all v

/-- A legal code address is the one its 16-bit image makes (R14, R15). -/
theorem fromHalf_toHalf {a : Addr} (h : a.getLsbD 17 = false ∧ a.getLsbD 0 = false) : fromHalf (toHalf a) = a := by
  apply BitVec.eq_of_getLsbD_eq
  intro i hi
  simp only [fromHalf, toHalf, BitVec.getLsbD_append, BitVec.getLsbD_extractLsb']
  split
  · rw [show i = 0 by omega, h.2]; simp
  · split
    · simp [show i - 1 < 16 by assumption, show 1 + (i - 1) = i by omega]
    · rw [show i = 17 by omega, h.1]; simp

/-- The address of the next instruction has bits 17 and 0 zero if the PC has (R14, R17). -/
theorem nextPc_legal {s : State} (h : s.pcLegal) {len : Nat} (hl : len % 2 = 0) :
    (s.nextPc len).getLsbD 17 = false ∧ (s.nextPc len).getLsbD 0 = false := by
  have h0 : s.pc.toNat % 2 = 0 := by
    have := h.2
    rw [BitVec.getLsbD, Nat.testBit_zero] at this
    simpa using this
  simp only [State.nextPc, BitVec.getLsbD_ofNat]
  constructor
  · have := Nat.mod_lt (s.pc.toNat + len) (show 0 < 2 ^ 17 by decide)
    rw [Nat.testBit_lt_two_pow this]
    rfl
  · rw [Nat.testBit_zero]
    simp
    omega

/-- A table address made of 16 bits has bits 17, 16 and 0 zero (R20, R21). -/
theorem tableAddr_legal (v : Word) : tableLegal (tableAddr v) := by
  refine ⟨?_, ?_, ?_⟩ <;> (simp only [tableAddr, BitVec.getLsbD_append]; rfl)

/-- ISP moved by an even distance keeps bits 17, 16 and 0 zero (R20). -/
theorem movedIsp_legal {a : Addr} (h : tableLegal a) {k : Word} (hk : k.getLsbD 0 = false) :
    tableLegal (movedIsp a k) := by
  refine ⟨?_, ?_, ?_⟩
  · simp only [movedIsp, BitVec.getLsbD_append]; rfl
  · simp only [movedIsp, BitVec.getLsbD_append]; rfl
  · have h0 := h.2.2
    simp only [movedIsp, BitVec.getLsbD_append]
    rw [if_pos (by decide), BitVec.getLsbD_add (by decide), BitVec.getLsbD_extractLsb', hk]
    simp only [Nat.add_zero, h0, BitVec.carry_zero]
    rfl

/-- Moving a legal ISP down by 4 and up again gives it back (R20). -/
theorem movedIsp_back {a : Addr} (h : tableLegal a) : movedIsp (movedIsp a (-4#16)) 4#16 = a := by
  simp only [movedIsp]
  rw [extract_append_lo _ _ 0 16 (by decide), extract_all, BitVec.add_assoc, show -4#16 + 4#16 = 0#16 by decide, BitVec.add_zero]
  apply BitVec.eq_of_getLsbD_eq
  intro i hi
  simp only [BitVec.getLsbD_append, BitVec.getLsbD_extractLsb']
  split
  · simp [show i < 16 by assumption]
  · rcases (show i = 16 ∨ i = 17 by omega) with rfl | rfl
    · rw [h.2.1]; rfl
    · rw [h.1]; rfl

/-! ## The PSR as a word -/

/-- Writing back the word a read of the PSR gives leaves the PSR as it is (R31). -/
@[simp] theorem ofWord_word (r : Psr) (reserved : BitVec 4) : Psr.ofWord (r.word reserved) = r := by
  obtain ⟨c, t, l, f, z, n, e, p, i⟩ := r
  simp only [Psr.ofWord, Psr.word, Psr.highByte, Psr.lowByte, BitVec.getLsbD_append]
  simp

/-- The word of a PSR shows it, whatever its reserved bits (R31). -/
theorem showsPsr_word (r : Psr) (reserved : BitVec 4) : showsPsr (r.word reserved) r := by
  refine ⟨ofWord_word r reserved, ?_, ?_, ?_⟩ <;>
    (simp only [Psr.word, Psr.highByte, Psr.lowByte, BitVec.getLsbD_append]; simp)

/-! ## Exceptions -/

/-- Everything the push of a frame does to ISP (R220, D11). -/
theorem pushedIsp_ok {s : State} {a : Addr} : pushedIsp s = .ok a ↔ pushPermitted s ∧ a = movedIsp s.isp (-4#16) := by
  simp only [pushedIsp, pushPermitted]
  cases h : s.params.ispWrap <;> simp [eq_comm]
  split <;> simp_all

/-- Everything the pop of a frame does to ISP (R178, D11). -/
theorem poppedIsp_ok {s : State} {a : Addr} : poppedIsp s = .ok a ↔ popPermitted s ∧ a = movedIsp s.isp 4#16 := by
  simp only [poppedIsp, popPermitted]
  cases h : s.params.ispWrap <;> simp [eq_comm]
  split <;> simp_all

/-- Everything the acknowledge sequence can do (R220): ISP goes down by 4, the PSR is altered, the PC takes a word, memory
keeps its canonical form, the stores are serialized, and nothing else changes but the number of values drawn. -/
theorem enterException_ok {e : Exc} {s t : State} (h : enterException e s = .ok t) :
    t = { s with isp := movedIsp s.isp (-4#16), psr := s.psr.entered e, pc := t.pc, mem := t.mem, stale := [],
                 draws := t.draws } ∧
      (∃ w, t.pc = fromHalf w) ∧ (s.mem.wf = true → t.mem.wf = true) := by
  obtain ⟨isp, hi, h⟩ := bind_eq_ok.1 h
  obtain ⟨s1, h1, h⟩ := bind_eq_ok.1 h
  obtain ⟨s2, h2, h⟩ := bind_eq_ok.1 h
  obtain ⟨entry, h3, h⟩ := bind_eq_ok.1 h
  obtain ⟨f1, w1⟩ := storeWord_frame h1
  obtain ⟨f2, w2⟩ := storeWord_frame h2
  obtain ⟨k, hk⟩ := loadWord_state h3
  obtain ⟨-, rfl⟩ := pushedIsp_ok.1 hi
  obtain rfl := Except.ok.inj h
  refine ⟨?_, ⟨entry.1, rfl⟩, fun hw => ?_⟩
  · have hf : s2 = { s.drawn 1 with mem := s2.mem, stale := s2.stale } := by rw [f2, f1]
    simp only [hk, State.serialize]
    rw [hf]
    rfl
  · simp only [State.serialize, hk, drawn_mem]
    exact w2 (w1 hw)

/-- Everything the return from an exception can do (R178): ISP goes up by 4, the PC and the PSR take words, the stores are
serialized, and nothing else changes but the number of values drawn. -/
theorem returnFromException_ok {s t : State} (h : returnFromException s = .ok t) :
    t = { s with isp := movedIsp s.isp 4#16, psr := t.psr, pc := t.pc, stale := [], draws := t.draws } ∧
      ∃ w, t.pc = fromHalf w := by
  obtain ⟨home, h1, h⟩ := bind_eq_ok.1 h
  obtain ⟨status, h2, h⟩ := bind_eq_ok.1 h
  obtain ⟨isp, hi, h⟩ := bind_eq_ok.1 h
  obtain ⟨k, hk⟩ := loadWord_state h1
  obtain ⟨l, hl⟩ := loadWord_state h2
  obtain ⟨-, rfl⟩ := poppedIsp_ok.1 hi
  obtain rfl := Except.ok.inj h
  refine ⟨?_, home.1, rfl⟩
  simp only [hl, hk, State.drawn, State.serialize]

/-- No device answers at any of the bytes of an access that lies in memory. -/
theorem onDevice_of_inMemory {s : State} {a : Addr} (h : inMemory s a.toNat 1) : s.onDevice a = false := by
  simp only [State.onDevice, isReserved]
  rcases h with h | h | h
  · simp; omega
  · simp; omega
  · simp [h]

/-- An access that lies in memory is not refused. -/
theorem refuses_of_inMemory {s : State} {a : Addr} (h : inMemory s a.toNat 1) : s.refuses a = false := by
  simp only [State.refuses, isReserved]
  rcases h with h | h | h
  · simp; omega
  · simp; omega
  · simp [h]

/-- A permitted access is not refused. -/
theorem refuses_of_permitted {s : State} {a : Addr} (h : permitted s a.toNat 1) : s.refuses a = false := by
  simp only [State.refuses, isReserved]
  rcases h with h | h | h
  · simp; omega
  · simp; omega
  · simp [h]

/-- What the next address of an access of two bytes is, where it does not run past the top. -/
theorem succ_toNat {a : Addr} (h : a ≠ 0x3FFFF#18) : (a + 1).toNat = a.toNat + 1 := by
  have h1 : a.toNat ≠ 0x3FFFF := fun e => h (BitVec.eq_of_toNat_eq e)
  have := a.isLt
  rw [BitVec.toNat_add]
  simp
  omega

/-- The last address of the space is followed by address 0 (R55). -/
theorem succ_top : (0x3FFFF#18 + 1 : Addr).toNat = 0 := rfl

/-- Both bytes of a word that lies in memory lie in memory. -/
theorem inMemory_bytes {s : State} {a : Addr} (h : inMemory s a.toNat 2) :
    inMemory s a.toNat 1 ∧ inMemory s (a + 1).toNat 1 := by
  by_cases ha : a = 0x3FFFF#18
  · subst ha
    exact ⟨.inr (.inl (by decide)), .inl (by decide)⟩
  · rw [succ_toNat ha]
    rcases h with h | h | h
    · exact ⟨.inl (by omega), .inl (by omega)⟩
    · exact ⟨.inr (.inl h), .inr (.inl (by omega))⟩
    · exact ⟨.inr (.inr h), .inr (.inr h)⟩

/-- Both bytes of a permitted word are permitted. -/
theorem permitted_bytes {s : State} {a : Addr} (h : permitted s a.toNat 2) :
    permitted s a.toNat 1 ∧ permitted s (a + 1).toNat 1 := by
  by_cases ha : a = 0x3FFFF#18
  · subst ha
    exact ⟨.inr (.inl (by decide)), .inl (by decide)⟩
  · rw [succ_toNat ha]
    rcases h with h | h | h
    · exact ⟨.inl (by omega), .inl (by omega)⟩
    · exact ⟨.inr (.inl h), .inr (.inl (by omega))⟩
    · exact ⟨.inr (.inr h), .inr (.inr h)⟩

/-- WORD_AT_TOP has two values. -/
theorem wordPermitted_iff {s : State} {a : Addr} :
    wordPermitted s a ↔ ¬ (s.params.wordAtTop = .refuse ∧ a = 0x3FFFF#18) := by
  simp only [wordPermitted]
  cases s.params.wordAtTop <;> simp

/-- The access to a permitted word has a meaning. -/
theorem allowsWord_of_permitted {s : State} {a : Addr} (h : permitted s a.toNat 2) (hw : wordPermitted s a) :
    s.allowsWord a :=
  ⟨wordPermitted_iff.1 hw, refuses_of_permitted (permitted_bytes h).1, refuses_of_permitted (permitted_bytes h).2⟩

/-- The access to a word that lies in memory has a meaning. -/
theorem allowsWord_of_inMemory {s : State} {a : Addr} (h : inMemory s a.toNat 2) (hw : wordPermitted s a) :
    s.allowsWord a :=
  ⟨wordPermitted_iff.1 hw, refuses_of_inMemory (inMemory_bytes h).1, refuses_of_inMemory (inMemory_bytes h).2⟩

/-- A read of a word that lies in memory (R55). -/
theorem loadWord_inMemory {s : State} {a : Addr} (h : inMemory s a.toNat 2) (hw : wordPermitted s a) :
    loadWord s a = .ok (s.mem.readWord a, s) :=
  loadWord_memory (allowsWord_of_inMemory h hw) (onDevice_of_inMemory (inMemory_bytes h).1)
    (onDevice_of_inMemory (inMemory_bytes h).2)

/-- A write of a word that lies in memory (R56). -/
theorem storeWord_inMemory {s : State} {a : Addr} (lo hi : Byte) (h : inMemory s a.toNat 2) (hw : wordPermitted s a) :
    ∃ t, storeWord s a lo hi = .ok t ∧ t.mem = s.mem.writeWord a (hi ++ lo) :=
  storeWord_memory lo hi (allowsWord_of_inMemory h hw) (onDevice_of_inMemory (inMemory_bytes h).1)
    (onDevice_of_inMemory (inMemory_bytes h).2)

/-- ISP after a push is the address of the frame (R220, R223). -/
theorem pushed_toNat (s : State) : (movedIsp s.isp (-4#16)).toNat = frameAddr s := by
  rw [movedIsp, BitVec.toNat_append]
  simp [frameAddr]

/-- The two words of a frame (R223). -/
theorem frame_words (s : State) :
    (movedIsp s.isp (-4#16) + 2).toNat = frameAddr s + 2 ∧ movedIsp s.isp (-4#16) ≠ 0x3FFFF#18 ∧
      movedIsp s.isp (-4#16) + 2 ≠ 0x3FFFF#18 := by
  have h := pushed_toNat s
  have hlt : frameAddr s < 0x10000 := Nat.mod_lt _ (by decide)
  have h2 : (movedIsp s.isp (-4#16) + 2).toNat = frameAddr s + 2 := by
    rw [BitVec.toNat_add, h]
    simp
    omega
  refine ⟨h2, fun e => ?_, fun e => ?_⟩
  · rw [e] at h
    have : (0x3FFFF#18).toNat = 0x3FFFF := rfl
    omega
  · rw [e] at h2
    have : (0x3FFFF#18).toNat = 0x3FFFF := rfl
    omega

/-- The acknowledge sequence whose frame and table entry lie in memory (R220, R223, R224). -/
theorem enterException_memory {e : Exc} {s : State} (h : entersInMemory s (vectorOf s.params e)) :
    let isp := movedIsp s.isp (-4#16)
    let mem := (s.mem.writeWord isp (toHalf s.pc)).writeWord (isp + 2)
      ((s.psr.pushed e).word (s.unspecified.extractLsb' 0 4))
    enterException e s = .ok { s with
      isp := isp, mem := mem, psr := s.psr.entered e,
      pc := fromHalf (mem.readWord (entryAddr s (vectorOf s.params e))), stale := [], draws := s.draws + 1 } := by
  obtain ⟨hp, hf, he, hw⟩ := h
  obtain ⟨f2, n0, n2⟩ := frame_words s
  have hlt : frameAddr s < 0x10000 := Nat.mod_lt _ (by decide)
  have m0 : inMemory (s.drawn 1) (movedIsp s.isp (-4#16)).toNat 2 := by
    rw [pushed_toNat]
    rcases hf with hf | hf | hf
    · exact .inl (by omega)
    · exact .inr (.inl hf)
    · exact .inr (.inr hf)
  have m2 : inMemory (s.drawn 1) (movedIsp s.isp (-4#16) + 2).toNat 2 := by
    rw [f2]
    rcases hf with hf | hf | hf
    · exact .inl (by omega)
    · exact .inr (.inl (by omega))
    · exact .inr (.inr hf)
  obtain ⟨s1, h1, e1⟩ := storeWord_inMemory (s := s.drawn 1) ((toHalf s.pc).extractLsb' 0 8)
    ((toHalf s.pc).extractLsb' 8 8) m0 (.inl n0)
  have f1 := (storeWord_frame h1).1
  have p1 : s1.params = s.params := by rw [f1]; rfl
  obtain ⟨s2, h2, e2⟩ := storeWord_inMemory (s := s1) (s.psr.pushed e).lowByte
    ((s.psr.pushed e).highByte (s.unspecified.extractLsb' 0 4)) (a := movedIsp s.isp (-4#16) + 2)
    (by rw [inMemory, p1]; exact m2) (.inl n2)
  have f2 := (storeWord_frame h2).1
  have p2 : s2.params = s.params := by rw [f2]; exact p1
  have h3 := loadWord_inMemory (s := s2) (a := entryAddr s (vectorOf s.params e)) (by rw [inMemory, p2]; exact he)
    (by rw [wordPermitted, p2]; exact hw)
  rw [word_of_halves, drawn_mem] at e1
  rw [e1] at e2
  have hs2 : s2 = { s.drawn 1 with mem := s2.mem, stale := s2.stale } := by rw [f2, f1]
  rw [enterException, pushedIsp_ok.2 ⟨hp, rfl⟩]
  simp only [bind, Except.bind, pure, Except.pure, h1, h2]
  simp only [entryAddr] at h3 ⊢
  rw [h3]
  simp only [State.serialize, e2, Psr.word]
  rw [hs2]
  rfl

/-! ## The instruction cycle -/

/-- Everything one step can do (R218): a reset, an accepted interrupt, idling, the trace trap, or one instruction, or the UND
trap of an unlisted encoding. -/
theorem cycle_cases {s t : State} (h : cycle s = .next t) :
    (s.boundary.reset = true ∧ t = resetSequence s.nextBoundary) ∨
    (s.boundary.reset = false ∧ ∃ e, acceptedInterrupt s.boundary s = some e ∧ vectorStated s.params e = true ∧
      enterException e { s.nextBoundary with waiting := false } = .ok t) ∨
    (s.boundary.reset = false ∧ acceptedInterrupt s.boundary s = none ∧
      ((s.waiting = true ∧ wakes s.boundary s = false ∧ t = s.nextBoundary) ∨
       ((s.waiting = false ∨ wakes s.boundary s = true) ∧
        ((s.psr.p = true ∧ enterException .trc { s.nextBoundary with waiting := false } = .ok t) ∨
         (s.psr.p = false ∧
          ∃ i u, fetchInstr { s.nextBoundary with waiting := false, psr := { s.psr with p := s.psr.t } } = .ok (i, u) ∧
            ((∃ j, i = some j ∧ exec j u = .next t) ∨ i = none ∧ enterException .und u = .ok t)))))) := by
  simp only [cycle] at h
  split at h
  · exact .inl ⟨‹_›, (Host.Outcome.next.inj h).symm⟩
  · rename_i hr
    have hr : s.boundary.reset = false := by simpa using hr
    split at h
    · rename_i e he
      rw [finish_eq_next, acknowledge] at h
      split at h
      · exact .inr (.inl ⟨hr, e, he, ‹_›, h⟩)
      · cases h
    · rename_i hn
      refine .inr (.inr ⟨hr, hn, ?_⟩)
      split at h
      · rename_i hw
        simp only [nextBoundary_waiting, Bool.and_eq_true, Bool.not_eq_true'] at hw
        exact .inl ⟨hw.1, hw.2, (Host.Outcome.next.inj h).symm⟩
      · rename_i hw
        refine .inr ⟨?_, ?_⟩
        · simp only [nextBoundary_waiting, Bool.and_eq_true, Bool.not_eq_true'] at hw
          cases hs : s.waiting
          · exact .inl rfl
          · refine .inr ?_
            cases hk : wakes s.boundary s
            · exact absurd ⟨hs, hk⟩ hw
            · rfl
        · split at h
          · rw [finish_eq_next] at h
            exact .inl ⟨‹_›, h⟩
          · rename_i hp
            refine .inr ⟨by simpa using hp, ?_⟩
            simp only [runInstr] at h
            split at h
            · exact ⟨_, _, ‹_›, .inl ⟨_, rfl, h⟩⟩
            · exact ⟨_, _, ‹_›, .inr ⟨rfl, finish_eq_next.1 h⟩⟩
            · rw [finish_eq_next] at h; cases h

/-- At a boundary at which an instruction begins, a step is the instruction at the PC (R218). -/
theorem step_of_runsInstr {s : State} (h : s.runsInstr) : step s = runInstr s.nextBoundary := by
  obtain ⟨hr, hn, hw, hp⟩ := h
  have hn' : acceptedInterrupt s.boundary s.nextBoundary = none := hn
  have hs : { s.nextBoundary with waiting := false } = s.nextBoundary := by
    rw [← hw]; rfl
  simp only [step, cycle, hr, hn', nextBoundary_waiting, hw, nextBoundary_psr, hp, Bool.false_and, Bool.false_eq_true,
    if_false]
  exact congrArg runInstr hs

end Sys2Proof.Machine
end

