-- ==== Sys2Proof/Laws/PerInstr.lean ====
section
/-! SUPPORT. Statements made for each instruction: an encoding has as many words as the length of the instruction says
(spec/30_encoding.md R81, R100). -/

namespace Sys2Proof.Laws.EncodedLength

open Sys2Proof

/-- The encoding of the instruction has its length: each word is two bytes. -/
def Statement (i : Instr) : Prop := 2 * (encodeWords i).length = i.len

/-- The encodings with a basic source operand have the length of the operand form. -/
theorem basic (i : BitVec 1) (op : BitVec 4) (src : Src) (rd : Reg) :
    2 * (encodeBasic i op src rd).length = src.len := by cases src <;> rfl

/-- The encodings of Bcond and BR have the length of the displacement form. -/
theorem branch (cond : BitVec 4) (d : Disp) : 2 * (encodeBranch cond d).length = d.len := by cases d <;> rfl

/-- The encodings of loads and stores have the length of the memory operand form. -/
theorem mem (top : BitVec 2) (i : BitVec 1) (r : Reg) (m : MemOp) :
    2 * (encodeMem top i r m).length = m.len := by cases m <;> rfl

theorem nop : Statement (.nop) := rfl
theorem addb (src : Src) (rd : Reg) : Statement (.addb src rd) := basic _ _ _ _
theorem addw (src : Src) (rd : Reg) : Statement (.addw src rd) := basic _ _ _ _
theorem addub (src : Src) (rd : Reg) : Statement (.addub src rd) := basic _ _ _ _
theorem adduw (src : Src) (rd : Reg) : Statement (.adduw src rd) := basic _ _ _ _
theorem mulb (src : Src) (rd : Reg) : Statement (.mulb src rd) := basic _ _ _ _
theorem mulw (src : Src) (rd : Reg) : Statement (.mulw src rd) := basic _ _ _ _
theorem ashub (count : Src) (rd : Reg) : Statement (.ashub count rd) := basic _ _ _ _
theorem ashuw (count : Src) (rd : Reg) : Statement (.ashuw count rd) := basic _ _ _ _
theorem lshb (count : Src) (rd : Reg) : Statement (.lshb count rd) := basic _ _ _ _
theorem lshw (count : Src) (rd : Reg) : Statement (.lshw count rd) := basic _ _ _ _
theorem xorb (src : Src) (rd : Reg) : Statement (.xorb src rd) := basic _ _ _ _
theorem xorw (src : Src) (rd : Reg) : Statement (.xorw src rd) := basic _ _ _ _
theorem cmpb (src : Src) (rd : Reg) : Statement (.cmpb src rd) := basic _ _ _ _
theorem cmpw (src : Src) (rd : Reg) : Statement (.cmpw src rd) := basic _ _ _ _
theorem andb (src : Src) (rd : Reg) : Statement (.andb src rd) := basic _ _ _ _
theorem andw (src : Src) (rd : Reg) : Statement (.andw src rd) := basic _ _ _ _
theorem addcb (src : Src) (rd : Reg) : Statement (.addcb src rd) := basic _ _ _ _
theorem addcw (src : Src) (rd : Reg) : Statement (.addcw src rd) := basic _ _ _ _
theorem movb (src : Src) (rd : Reg) : Statement (.movb src rd) := basic _ _ _ _
theorem movw (src : Src) (rd : Reg) : Statement (.movw src rd) := basic _ _ _ _
theorem subcb (src : Src) (rd : Reg) : Statement (.subcb src rd) := basic _ _ _ _
theorem subcw (src : Src) (rd : Reg) : Statement (.subcw src rd) := basic _ _ _ _
theorem orb (src : Src) (rd : Reg) : Statement (.orb src rd) := basic _ _ _ _
theorem orw (src : Src) (rd : Reg) : Statement (.orw src rd) := basic _ _ _ _
theorem subb (src : Src) (rd : Reg) : Statement (.subb src rd) := basic _ _ _ _
theorem subw (src : Src) (rd : Reg) : Statement (.subw src rd) := basic _ _ _ _
theorem tbit (offset : Src) (rs : Reg) : Statement (.tbit offset rs) := basic _ _ _ _
theorem movxb (rs : Reg) (rd : Reg) : Statement (.movxb rs rd) := rfl
theorem movzb (rs : Reg) (rd : Reg) : Statement (.movzb rs rd) := rfl
theorem seq (rd : Reg) : Statement (.seq rd) := rfl
theorem sne (rd : Reg) : Statement (.sne rd) := rfl
theorem scs (rd : Reg) : Statement (.scs rd) := rfl
theorem scc (rd : Reg) : Statement (.scc rd) := rfl
theorem shi (rd : Reg) : Statement (.shi rd) := rfl
theorem sls (rd : Reg) : Statement (.sls rd) := rfl
theorem sgt (rd : Reg) : Statement (.sgt rd) := rfl
theorem sle (rd : Reg) : Statement (.sle rd) := rfl
theorem sfs (rd : Reg) : Statement (.sfs rd) := rfl
theorem sfc (rd : Reg) : Statement (.sfc rd) := rfl
theorem slo (rd : Reg) : Statement (.slo rd) := rfl
theorem shs (rd : Reg) : Statement (.shs rd) := rfl
theorem slt (rd : Reg) : Statement (.slt rd) := rfl
theorem sge (rd : Reg) : Statement (.sge rd) := rfl
theorem lpr (rs : Reg) (dest : ProcReg) : Statement (.lpr rs dest) := rfl
theorem spr (src : ProcReg) (rd : Reg) : Statement (.spr src rd) := rfl
theorem retx : Statement (.retx) := rfl
theorem excp (vector : BitVec 4) : Statement (.excp vector) := rfl
theorem di : Statement (.di) := rfl
theorem ei : Statement (.ei) := rfl
theorem wait : Statement (.wait) := rfl
theorem beq (d : Disp) : Statement (.beq d) := branch _ _
theorem bne (d : Disp) : Statement (.bne d) := branch _ _
theorem bcs (d : Disp) : Statement (.bcs d) := branch _ _
theorem bcc (d : Disp) : Statement (.bcc d) := branch _ _
theorem bhi (d : Disp) : Statement (.bhi d) := branch _ _
theorem bls (d : Disp) : Statement (.bls d) := branch _ _
theorem bgt (d : Disp) : Statement (.bgt d) := branch _ _
theorem ble (d : Disp) : Statement (.ble d) := branch _ _
theorem bfs (d : Disp) : Statement (.bfs d) := branch _ _
theorem bfc (d : Disp) : Statement (.bfc d) := branch _ _
theorem blo (d : Disp) : Statement (.blo d) := branch _ _
theorem bhs (d : Disp) : Statement (.bhs d) := branch _ _
theorem blt (d : Disp) : Statement (.blt d) := branch _ _
theorem bge (d : Disp) : Statement (.bge d) := branch _ _
theorem br (d : Disp) : Statement (.br d) := branch _ _
theorem bal (link : Reg) (d : BitVec 17) : Statement (.bal link d) := rfl
theorem jeq (target : Reg) : Statement (.jeq target) := rfl
theorem jne (target : Reg) : Statement (.jne target) := rfl
theorem jcs (target : Reg) : Statement (.jcs target) := rfl
theorem jcc (target : Reg) : Statement (.jcc target) := rfl
theorem jhi (target : Reg) : Statement (.jhi target) := rfl
theorem jls (target : Reg) : Statement (.jls target) := rfl
theorem jgt (target : Reg) : Statement (.jgt target) := rfl
theorem jle (target : Reg) : Statement (.jle target) := rfl
theorem jfs (target : Reg) : Statement (.jfs target) := rfl
theorem jfc (target : Reg) : Statement (.jfc target) := rfl
theorem jlo (target : Reg) : Statement (.jlo target) := rfl
theorem jhs (target : Reg) : Statement (.jhs target) := rfl
theorem jlt (target : Reg) : Statement (.jlt target) := rfl
theorem jge (target : Reg) : Statement (.jge target) := rfl
theorem jump (target : Reg) : Statement (.jump target) := rfl
theorem jal (link : Reg) (target : Reg) : Statement (.jal link target) := rfl
theorem loadb (m : MemOp) (rd : Reg) : Statement (.loadb m rd) := mem _ _ _ _
theorem loadw (m : MemOp) (rd : Reg) : Statement (.loadw m rd) := mem _ _ _ _
theorem storb (rs : Reg) (m : MemOp) : Statement (.storb rs m) := mem _ _ _ _
theorem storw (rs : Reg) (m : MemOp) : Statement (.storw rs m) := mem _ _ _ _
theorem und (p : UndPattern) : Statement (.und p) := rfl

end Sys2Proof.Laws.EncodedLength
end

