-- ==== Sys2Proof/Tests/Slice0.lean ====
section
/-! SUPPORT. Small tests: the checks of WellFormed, words written out from the spec's encodings, single steps with values
from spec/95_test_vectors.md, and for each statement with hypotheses a state and operands that meet them. -/

open Sys2Proof Sys2Proof.Machine

namespace Sys2Proof.Tests

/-! ## WellFormed refuses what no encoding can hold -/

/-- The short immediate pattern 10001 is the escape to the medium form (R85). -/
theorem test_wf_short_escape : (Instr.addw (.short 0b10001#5) 3).wf = false := by decide

/-- A short displacement with d4 and d0 both 1 is another format (R89). -/
theorem test_wf_relShort : (Instr.loadw (.relShort 0b10001#5 3) 4).wf = false := by decide

/-- SP is not the pair register of the far-relative mode (R91). -/
theorem test_wf_far_sp : (Instr.storb 1 (.far 0 Reg.sp)).wf = false := by decide

/-- A short branch displacement is even (R95). -/
theorem test_wf_branch_short_odd : (Instr.beq (.short 3)).wf = false := by decide

/-- A medium branch displacement is even (R96). -/
theorem test_wf_branch_medium_odd : (Instr.br (.medium 0x101)).wf = false := by decide

/-- A BAL displacement is even (R97). -/
theorem test_wf_bal_odd : (Instr.bal 14 5).wf = false := by decide

/-- The word of ADDUB $0, R0 is NOP (R107). -/
theorem test_wf_addub_nop : (Instr.addub (.short 0) 0).wf = false := by decide

/-- Terms next to the refused ones are well formed. -/
theorem test_wf_neighbours :
    (Instr.addw (.short 0b10000#5) 3).wf = true ∧ (Instr.loadw (.relShort 0b11110#5 3) 4).wf = true ∧
    (Instr.storb 1 (.far 0 Reg.ra)).wf = true ∧ (Instr.beq (.short 0x1FE)).wf = true ∧
    (Instr.addub (.short 0) 1).wf = true ∧ (Instr.addub (.medium 0) 0).wf = true := by decide

/-! ## Decoding of words written out from the encodings of spec/30_encoding.md -/

/-- Whether two instruction words decode to the instruction. -/
def decodesTo (w1 w2 : Word) (i : Instr) : Bool :=
  match decodeWords w1 w2 with
  | .ok j => j == i
  | .error _ => false

/-- X30. -/
theorem test_decode_nop :
    decodesTo 0x0200#16 0xFFFF#16 (.nop) = true := by decide

/-- X1, V143. -/
theorem test_decode_addb :
    decodesTo 0x4061#16 0xFFFF#16 (.addb (.reg 0) 3) = true ∧
    decodesTo 0x0000#16 0xFFFF#16 (.addb (.short 0) 0) = true := by decide

/-- P1, V15. -/
theorem test_decode_addw :
    decodesTo 0x6007#16 0xFFFF#16 (.addw (.reg 3) 0) = true ∧
    decodesTo 0x203F#16 0xFFFF#16 (.addw (.short (-1)) 1) = true := by decide

/-- V17. -/
theorem test_decode_addub :
    decodesTo 0x4261#16 0xFFFF#16 (.addub (.reg 0) 3) = true := by decide

/-- P1, V19. -/
theorem test_decode_adduw :
    decodesTo 0x2222#16 0xFFFF#16 (.adduw (.short 2) 1) = true ∧
    decodesTo 0x23FC#16 0xFFFF#16 (.adduw (.short (-4)) 15) = true := by decide

/-- V26. -/
theorem test_decode_mulb :
    decodesTo 0x460B#16 0xFFFF#16 (.mulb (.reg 5) 0) = true := by decide

/-- X46. -/
theorem test_decode_mulw :
    decodesTo 0x2684#16 0xFFFF#16 (.mulw (.short 4) 4) = true := by decide

/-- X5, X6. -/
theorem test_decode_ashub :
    decodesTo 0x08A2#16 0xFFFF#16 (.ashub (.short 2) 5) = true ∧
    decodesTo 0x48C9#16 0xFFFF#16 (.ashub (.reg 4) 6) = true := by decide

/-- V60. -/
theorem test_decode_ashuw :
    decodesTo 0x28B1#16 0xFFF1#16 (.ashuw (.medium 0xFFF1) 5) = true := by decide

/-- X22, X23. -/
theorem test_decode_lshb :
    decodesTo 0x0A24#16 0xFFFF#16 (.lshb (.short 4) 1) = true ∧
    decodesTo 0x4AEB#16 0xFFFF#16 (.lshb (.reg 5) 7) = true := by decide

/-- V70. -/
theorem test_decode_lshw :
    decodesTo 0x2A3F#16 0xFFFF#16 (.lshw (.short (-1)) 1) = true := by decide

/-- X44. -/
theorem test_decode_xorb :
    decodesTo 0x4C43#16 0xFFFF#16 (.xorb (.reg 1) 2) = true := by decide

/-- V53, V54. -/
theorem test_decode_xorw :
    decodesTo 0x2C5F#16 0xFFFF#16 (.xorw (.short (-1)) 2) = true ∧
    decodesTo 0x6C45#16 0xFFFF#16 (.xorw (.reg 2) 2) = true := by decide

/-- X11. -/
theorem test_decode_cmpb :
    decodesTo 0x4E61#16 0xFFFF#16 (.cmpb (.reg 0) 3) = true := by decide

/-- V48. -/
theorem test_decode_cmpw :
    decodesTo 0x2E71#16 0x03E8#16 (.cmpw (.medium 1000) 3) = true := by decide

/-- X4. -/
theorem test_decode_andb :
    decodesTo 0x5161#16 0xFFFF#16 (.andb (.reg 0) 11) = true := by decide

/-- V50, V51. -/
theorem test_decode_andw :
    decodesTo 0x3051#16 0x00FF#16 (.andw (.medium 0xFF) 2) = true ∧
    decodesTo 0x3050#16 0xFFFF#16 (.andw (.short (-16)) 2) = true := by decide

/-- X2. -/
theorem test_decode_addcb :
    decodesTo 0x1211#16 0x0020#16 (.addcb (.medium 32) 0) = true := by decide

/-- X3. -/
theorem test_decode_addcw :
    decodesTo 0x720B#16 0xFFFF#16 (.addcw (.reg 5) 0) = true := by decide

/-- V1, V4. -/
theorem test_decode_movb :
    decodesTo 0x185F#16 0xFFFF#16 (.movb (.short (-1)) 2) = true ∧
    decodesTo 0x1851#16 0x1234#16 (.movb (.medium 0x1234) 2) = true := by decide

/-- X25, V2. -/
theorem test_decode_movw :
    decodesTo 0x3911#16 0x0017#16 (.movw (.medium 0x17) 8) = true ∧
    decodesTo 0x3850#16 0xFFFF#16 (.movw (.short (-16)) 2) = true := by decide

/-- X41. -/
theorem test_decode_subcb :
    decodesTo 0x1A31#16 0x0020#16 (.subcb (.medium 32) 1) = true := by decide

/-- V34. -/
theorem test_decode_subcw :
    decodesTo 0x7A25#16 0xFFFF#16 (.subcw (.reg 2) 1) = true := by decide

/-- X31. -/
theorem test_decode_orb :
    decodesTo 0x5CEB#16 0xFFFF#16 (.orb (.reg 5) 7) = true := by decide

/-- V52. -/
theorem test_decode_orw :
    decodesTo 0x3CF1#16 0x8000#16 (.orw (.medium 0x8000) 7) = true := by decide

/-- X39. -/
theorem test_decode_subb :
    decodesTo 0x5E21#16 0xFFFF#16 (.subb (.reg 0) 1) = true := by decide

/-- X40. -/
theorem test_decode_subw :
    decodesTo 0x7F0F#16 0xFFFF#16 (.subw (.reg 7) 8) = true := by decide

/-- X42, V81. -/
theorem test_decode_tbit :
    decodesTo 0x3623#16 0xFFFF#16 (.tbit (.short 3) 1) = true ∧
    decodesTo 0x7625#16 0xFFFF#16 (.tbit (.reg 2) 1) = true := by decide

/-- X26. -/
theorem test_decode_movxb :
    decodesTo 0x6810#16 0xFFFF#16 (.movxb 8 0) = true := by decide

/-- X28. -/
theorem test_decode_movzb :
    decodesTo 0x6A10#16 0xFFFF#16 (.movzb 8 0) = true := by decide

/-- X21, V92, V93. -/
theorem test_decode_lpr :
    decodesTo 0x7022#16 0xFFFF#16 (.lpr 1 .psr) = true ∧
    decodesTo 0x7162#16 0xFFFF#16 (.lpr 1 .isp) = true ∧
    decodesTo 0x7062#16 0xFFFF#16 (.lpr 1 .intbase) = true := by decide

/-- X35, V94, V95. -/
theorem test_decode_spr :
    decodesTo 0x7260#16 0xFFFF#16 (.spr .intbase 0) = true ∧
    decodesTo 0x7360#16 0xFFFF#16 (.spr .isp 0) = true ∧
    decodesTo 0x7220#16 0xFFFF#16 (.spr .psr 0) = true := by decide

/-- X32. -/
theorem test_decode_retx :
    decodesTo 0x79FE#16 0xFFFF#16 (.retx) = true := by decide

/-- X14, V113. -/
theorem test_decode_excp :
    decodesTo 0x7BEA#16 0xFFFF#16 (.excp 5) = true ∧
    decodesTo 0x7BF2#16 0xFFFF#16 (.excp 9) = true := by decide

/-- X12. -/
theorem test_decode_di :
    decodesTo 0x7DDE#16 0xFFFF#16 (.di) = true := by decide

/-- X13. -/
theorem test_decode_ei :
    decodesTo 0x7DFE#16 0xFFFF#16 (.ei) = true := by decide

/-- X43. -/
theorem test_decode_wait :
    decodesTo 0x7FFE#16 0xFFFF#16 (.wait) = true := by decide

/-- X47, V107, V108. -/
theorem test_decode_br :
    decodesTo 0x41CA#16 0xFFFF#16 (.br (.short 10)) = true ∧
    decodesTo 0x15CE#16 0xFFFE#16 (.br (.medium 0x0FFFE)) = true ∧
    decodesTo 0x15DE#16 0x0000#16 (.br (.medium 0x10000)) = true := by decide

/-- X9, V109. -/
theorem test_decode_bal :
    decodesTo 0x35CE#16 0x0F6C#16 (.bal 14 0x0F6C) = true ∧
    decodesTo 0x347E#16 0xFFFC#16 (.bal 3 0x1FFFC) = true := by decide

/-- Special format, op 0111, one word for each condition: X33, X34, V55 to V57 and R87 with spec/10_state.md R30. -/
theorem test_decode_scond :
    decodesTo 0x6E00#16 0xFFFF#16 (.seq 0) = true ∧
    decodesTo 0b0110111_0001_1001_0#16 0xFFFF#16 (.sne 9) = true ∧
    decodesTo 0b0110111_0010_1001_0#16 0xFFFF#16 (.scs 9) = true ∧
    decodesTo 0b0110111_0011_1001_0#16 0xFFFF#16 (.scc 9) = true ∧
    decodesTo 0b0110111_0100_1001_0#16 0xFFFF#16 (.shi 9) = true ∧
    decodesTo 0b0110111_0101_1001_0#16 0xFFFF#16 (.sls 9) = true ∧
    decodesTo 0b0110111_0110_1001_0#16 0xFFFF#16 (.sgt 9) = true ∧
    decodesTo 0b0110111_0111_1001_0#16 0xFFFF#16 (.sle 9) = true ∧
    decodesTo 0b0110111_1000_1001_0#16 0xFFFF#16 (.sfs 9) = true ∧
    decodesTo 0b0110111_1001_1001_0#16 0xFFFF#16 (.sfc 9) = true ∧
    decodesTo 0x6F44#16 0xFFFF#16 (.slo 2) = true ∧
    decodesTo 0x6F7E#16 0xFFFF#16 (.shs 15) = true ∧
    decodesTo 0x6F84#16 0xFFFF#16 (.slt 2) = true ∧
    decodesTo 0x6FA4#16 0xFFFF#16 (.sge 2) = true := by decide

/-- One word or more for each condition: X7, X8, V101 to V104 and R95 with spec/10_state.md R30. -/
theorem test_decode_bcond :
    decodesTo 0x4E1E#16 0xFFFF#16 (.beq (.short 254)) = true ∧
    decodesTo 0x5000#16 0xFFFF#16 (.beq (.short (-256))) = true ∧
    decodesTo 0x140E#16 0x0100#16 (.beq (.medium 0x100)) = true ∧
    decodesTo 0x4030#16 0xFFFF#16 (.bne (.short 16)) = true ∧
    decodesTo 0b010_0001_0010_0001_0#16 0xFFFF#16 (.bcs (.short 34)) = true ∧
    decodesTo 0b010_0001_0011_0001_0#16 0xFFFF#16 (.bcc (.short 34)) = true ∧
    decodesTo 0b010_0001_0100_0001_0#16 0xFFFF#16 (.bhi (.short 34)) = true ∧
    decodesTo 0b010_0001_0101_0001_0#16 0xFFFF#16 (.bls (.short 34)) = true ∧
    decodesTo 0b010_0001_0110_0001_0#16 0xFFFF#16 (.bgt (.short 34)) = true ∧
    decodesTo 0b010_0001_0111_0001_0#16 0xFFFF#16 (.ble (.short 34)) = true ∧
    decodesTo 0b010_0001_1000_0001_0#16 0xFFFF#16 (.bfs (.short 34)) = true ∧
    decodesTo 0b010_0001_1001_0001_0#16 0xFFFF#16 (.bfc (.short 34)) = true ∧
    decodesTo 0x5748#16 0xFFFF#16 (.blo (.short (-152))) = true ∧
    decodesTo 0x155E#16 0xFF68#16 (.blo (.medium 0x1FF68)) = true ∧
    decodesTo 0b010_0001_1011_0001_0#16 0xFFFF#16 (.bhs (.short 34)) = true ∧
    decodesTo 0b010_0001_1100_0001_0#16 0xFFFF#16 (.blt (.short 34)) = true ∧
    decodesTo 0x5FBE#16 0xFFFF#16 (.bge (.short (-2))) = true := by decide

/-- One word for each condition: X15 and R98 with spec/10_state.md R30. -/
theorem test_decode_jcond :
    decodesTo 0b0101010_0000_0110_1#16 0xFFFF#16 (.jeq 6) = true ∧
    decodesTo 0b0101010_0001_0110_1#16 0xFFFF#16 (.jne 6) = true ∧
    decodesTo 0b0101010_0010_0110_1#16 0xFFFF#16 (.jcs 6) = true ∧
    decodesTo 0b0101010_0011_0110_1#16 0xFFFF#16 (.jcc 6) = true ∧
    decodesTo 0b0101010_0100_0110_1#16 0xFFFF#16 (.jhi 6) = true ∧
    decodesTo 0b0101010_0101_0110_1#16 0xFFFF#16 (.jls 6) = true ∧
    decodesTo 0b0101010_0110_0110_1#16 0xFFFF#16 (.jgt 6) = true ∧
    decodesTo 0b0101010_0111_0110_1#16 0xFFFF#16 (.jle 6) = true ∧
    decodesTo 0b0101010_1000_0110_1#16 0xFFFF#16 (.jfs 6) = true ∧
    decodesTo 0b0101010_1001_0110_1#16 0xFFFF#16 (.jfc 6) = true ∧
    decodesTo 0x5547#16 0xFFFF#16 (.jlo 3) = true ∧
    decodesTo 0b0101010_1011_0110_1#16 0xFFFF#16 (.jhs 6) = true ∧
    decodesTo 0b0101010_1100_0110_1#16 0xFFFF#16 (.jlt 6) = true ∧
    decodesTo 0b0101010_1101_0110_1#16 0xFFFF#16 (.jge 6) = true := by decide

/-- X17. -/
theorem test_decode_jump :
    decodesTo 0x55C7#16 0xFFFF#16 (.jump 3) = true := by decide

/-- X16, V112. -/
theorem test_decode_jal :
    decodesTo 0x75C7#16 0xFFFF#16 (.jal 14 3) = true ∧
    decodesTo 0x7467#16 0xFFFF#16 (.jal 3 3) = true := by decide

/-- X18, X50. -/
theorem test_decode_loadb :
    decodesTo 0x88EB#16 0xFFFF#16 (.loadb (.relShort 9 5) 7) = true ∧
    decodesTo 0x98DF#16 0x0FA0#16 (.loadb (.abs 0x0FA0) 6) = true := by decide

/-- X19, X20, V120, V122. -/
theorem test_decode_loadw :
    decodesTo 0xB93F#16 0x0632#16 (.loadw (.abs 0x0632) 9) = true ∧
    decodesTo 0xBCE9#16 0x0000#16 (.loadw (.far 0x20000 4) 7) = true ∧
    decodesTo 0xBECA#16 0xFFFF#16 (.loadw (.relShort 30 5) 6) = true ∧
    decodesTo 0xB6CB#16 0xFFFF#16 (.loadw (.relMedium 0x3FFFF 5) 6) = true := by decide

/-- X37, V128. -/
theorem test_decode_storb :
    decodesTo 0xDCE9#16 0x0000#16 (.storb 7 (.far 0x20000 4)) = true ∧
    decodesTo 0xDEFF#16 0xFFFF#16 (.storb 7 (.abs 0x3FFFF)) = true := by decide

/-- X36, X38, X49. -/
theorem test_decode_storw :
    decodesTo 0xF81F#16 0x9120#16 (.storw 0 (.abs 0x9120)) = true ∧
    decodesTo 0xE86B#16 0xFFFF#16 (.storw 3 (.relShort 9 5)) = true ∧
    decodesTo 0xF8E5#16 0x0004#16 (.storw 7 (.far 4 2)) = true := by decide

/-- V83, V84, V150 to V157: the eight rows of Table A-2. -/
theorem test_decode_und :
    decodesTo 0x1623#16 0xFFFF#16 (.und (.row1 1 1 1)) = true ∧
    decodesTo 0x15CF#16 0xFFFF#16 (.und (.row2 0 14 7)) = true ∧
    decodesTo 0x25FF#16 0xFFFF#16 (.und (.row3 1 15 15 1)) = true ∧
    decodesTo 0x6401#16 0xFFFF#16 (.und (.row4 1 0 0)) = true ∧
    decodesTo 0x6C00#16 0xFFFF#16 (.und (.row5 0 0)) = true ∧
    decodesTo 0x6200#16 0xFFFF#16 (.und (.row6 1 0 0)) = true ∧
    decodesTo 0x7600#16 0xFFFF#16 (.und (.row7 1 0 0)) = true ∧
    decodesTo 0x5625#16 0xFFFF#16 (.und (.row8 1 2)) = true := by decide

/-- V158: a short branch, no undefined word. -/
theorem test_decode_neighbour : decodesTo 0x4400#16 0xFFFF#16 (.beq (.short 64)) = true := by decide

/-- Whether two words decode to no instruction. -/
def rejected (w1 w2 : Word) : Bool :=
  match decodeWords w1 w2 with
  | .ok _ => false
  | .error _ => true

/-- V115, V159 to V162: encodings the model rejects. -/
theorem test_decode_rejected :
    rejected 0x15CE#16 3#16 ∧ rejected 0x7800#16 0#16 ∧ rejected 0x7A00#16 0#16 ∧ rejected 0x41E0#16 0#16 ∧
    rejected 0x7080#16 0#16 ∧ rejected 0x1400#16 0#16 := by decide

/-- X25 as bytes: little-endian words, the first at the lower address (spec/20_memory.md R57). -/
theorem test_decode_bytes :
    (match decode [0x11, 0x39, 0x17, 0x00, 0xAA] with
     | .ok (i, rest) => i == .movw (.medium 0x17) 8 && rest == [0xAA]
     | .error _ => false) = true := by decide

/-- X25 as the opcode table numbers its bits: the second word is bits 31 to 16. -/
theorem test_decode_table : decodeTableWord 32 0x00173911 = some (.movw (.medium 0x17) 8) := by decide

/-- X25 encoded. -/
theorem test_encode : encode (.movw (.medium 0x17) 8) = [0x11, 0x39, 0x17, 0x00] := by decide

/-! ## Single instructions -/

/-- A small state: registers over zeros, the PSR word, the PC. -/
def st (rs : List (Reg × Word)) (psr : Word) (pc : Addr := 0x1000) (mem : Memory := []) : State :=
  rs.foldl (fun s p => s.setReg p.1 p.2) { State.reset with psr := Psr.ofWord psr, pc := pc, mem := mem }

/-- Whether the answer is a next state that the check accepts. -/
def next (r : Result) (check : State → Bool) : Bool :=
  match r with
  | .next t => check t
  | _ => false

/-- Whether the answer is a next state with these registers, this PSR word and this PC. -/
def gives (r : Result) (rs : List (Reg × Word)) (psr : Word) (pc : Addr) : Bool :=
  next r fun t => rs.all (fun p => t.reg p.1 == p.2) && t.psr.word 0 == psr && t.pc == pc

/-- Whether memory holds these bytes. -/
def holds (t : State) (cells : List (Nat × Byte)) : Bool := cells.all fun c => t.mem.read c.1 == c.2

/-- V142. -/
theorem test_nop :
    gives (exec (.nop) (st [(0, 0x0005)] 0x0200)) [(0, 0x0005)] 0x0200 0x01002 = true := by decide

/-- V10, V11. -/
theorem test_addb :
    gives (exec (.addb (.reg 0) 3) (st [(0, 0x129F), (3, 0x3462)] 0x0200)) [(0, 0x129F), (3, 0x3401)] 0x0201 0x01002 = true ∧
    gives (exec (.addb (.reg 0) 3) (st [(0, 0x0080), (3, 0x0080)] 0x0200)) [(3, 0x0000)] 0x0221 0x01002 = true := by decide

/-- V12, V15. -/
theorem test_addw :
    gives (exec (.addw (.reg 0) 3) (st [(0, 0x7FFF), (3, 0x0001)] 0x0200)) [(3, 0x8000)] 0x0220 0x01002 = true ∧
    gives (exec (.addw (.short (-1)) 1) (st [] 0x0221)) [(1, 0xFFFF)] 0x0200 0x01002 = true := by decide

/-- V17. -/
theorem test_addub :
    gives (exec (.addub (.reg 0) 3) (st [(0, 0x129F), (3, 0x3462)] 0x0220)) [(3, 0x3401)] 0x0220 0x01002 = true := by decide

/-- V18, V19. -/
theorem test_adduw :
    gives (exec (.adduw (.reg 0) 3) (st [(0, 0xFFFF), (3, 0x0001)] 0x0220)) [(3, 0x0000)] 0x0220 0x01002 = true ∧
    gives (exec (.adduw (.short (-4)) 15) (st [(15, 0x0002)] 0x0200)) [(15, 0xFFFE)] 0x0200 0x01002 = true := by decide

/-- V22, X2. -/
theorem test_addcb :
    gives (exec (.addcb (.reg 5) 0) (st [(5, 0x0080), (0, 0x007F)] 0x0201)) [(0, 0x0000)] 0x0201 0x01002 = true ∧
    gives (exec (.addcb (.medium 32) 0) (st [(0, 0x120F)] 0x0201)) [(0, 0x1230)] 0x0200 0x01004 = true := by decide

/-- V20, V21. -/
theorem test_addcw :
    gives (exec (.addcw (.reg 5) 0) (st [(5, 0x0000), (0, 0x7FFF)] 0x0201)) [(0, 0x8000)] 0x0220 0x01002 = true ∧
    gives (exec (.addcw (.reg 5) 0) (st [(5, 0xFFFF), (0, 0xFFFF)] 0x0201)) [(0, 0xFFFF)] 0x0201 0x01002 = true := by decide

/-- V26, V27. -/
theorem test_mulb :
    gives (exec (.mulb (.reg 5) 0) (st [(5, 0x0003), (0, 0x12FE)] 0x0200)) [(0, 0x12FA)] 0x0200 0x01002 = true ∧
    gives (exec (.mulb (.reg 5) 0) (st [(5, 0x0010), (0, 0x1210)] 0x0200)) [(0, 0x1200)] 0x0200 0x01002 = true := by decide

/-- V24, V25. -/
theorem test_mulw :
    gives (exec (.mulw (.reg 5) 0) (st [(5, 0x0002), (0, 0xFFFF)] 0x0200)) [(0, 0xFFFE)] 0x0200 0x01002 = true ∧
    gives (exec (.mulw (.reg 5) 0) (st [(5, 0xFFFF), (0, 0x8000)] 0x0200)) [(0, 0x8000)] 0x0200 0x01002 = true := by decide

/-- V33, X39 with the C of conflict C2. -/
theorem test_subb :
    gives (exec (.subb (.short 1) 1) (st [(1, 0x0080)] 0x0200)) [(1, 0x007F)] 0x0220 0x01002 = true ∧
    gives (exec (.subb (.reg 0) 1) (st [(0, 0x1201), (1, 0x127F)] 0x0201)) [(1, 0x127E)] 0x0200 0x01002 = true := by decide

/-- V29, V30, X40 with the C of conflict C2. -/
theorem test_subw :
    gives (exec (.subw (.reg 7) 8) (st [(7, 0x0001), (8, 0x8000)] 0x0200)) [(8, 0x7FFF)] 0x0220 0x01002 = true ∧
    gives (exec (.subw (.reg 7) 8) (st [(7, 0x0001)] 0x0200)) [(8, 0xFFFF)] 0x0201 0x01002 = true ∧
    gives (exec (.subw (.reg 7) 8) (st [(7, 0xFFFE), (8, 0x1000)] 0x0200)) [(8, 0x1002)] 0x0201 0x01002 = true := by decide

/-- X41. -/
theorem test_subcb :
    gives (exec (.subcb (.medium 32) 1) (st [(1, 0x1250)] 0x0201)) [(1, 0x122F)] 0x0200 0x01004 = true := by decide

/-- V35, V36. -/
theorem test_subcw :
    gives (exec (.subcw (.reg 2) 1) (st [(2, 0xFFFF), (1, 0x0000)] 0x0201)) [(1, 0x0000)] 0x0201 0x01002 = true ∧
    gives (exec (.subcw (.reg 2) 1) (st [(2, 0x0000), (1, 0x8000)] 0x0201)) [(1, 0x7FFF)] 0x0220 0x01002 = true := by decide

/-- X11, V46, V47. -/
theorem test_cmpb :
    gives (exec (.cmpb (.reg 0) 3) (st [(0, 0x12FF), (3, 0x127E)] 0x02C0)) [(0, 0x12FF), (3, 0x127E)] 0x0204 0x01002 = true ∧
    gives (exec (.cmpb (.short (-1)) 3) (st [(3, 0x12FF)] 0x0200)) [] 0x0240 0x01002 = true ∧
    gives (exec (.cmpb (.short 0) 3) (st [] 0x0221)) [] 0x0261 0x01002 = true := by decide

/-- V42, V43. -/
theorem test_cmpw :
    gives (exec (.cmpw (.reg 0) 3) (st [(0, 0x8000), (3, 0x7FFF)] 0x0200)) [] 0x0204 0x01002 = true ∧
    gives (exec (.cmpw (.reg 0) 3) (st [(0, 0x7FFF), (3, 0x8000)] 0x0200)) [] 0x0280 0x01002 = true := by decide

/-- X4. -/
theorem test_andb :
    gives (exec (.andb (.reg 0) 11) (st [(0, 0x1292), (11, 0x3477)] 0x0221)) [(11, 0x3412)] 0x0221 0x01002 = true := by decide

/-- V51. -/
theorem test_andw :
    gives (exec (.andw (.short (-16)) 2) (st [(2, 0x1234)] 0x0221)) [(2, 0x1230)] 0x0221 0x01002 = true := by decide

/-- X31. -/
theorem test_orb :
    gives (exec (.orb (.reg 5) 7) (st [(5, 0x12D8), (7, 0x340B)] 0x0221)) [(7, 0x34DB)] 0x0221 0x01002 = true := by decide

/-- V52. -/
theorem test_orw :
    gives (exec (.orw (.medium 0x8000) 7) (st [(7, 0x0001)] 0x0221)) [(7, 0x8001)] 0x0221 0x01004 = true := by decide

/-- X44. -/
theorem test_xorb :
    gives (exec (.xorb (.reg 1) 2) (st [(1, 0x12F0), (2, 0x3495)] 0x0221)) [(2, 0x3465)] 0x0221 0x01002 = true := by decide

/-- V53. -/
theorem test_xorw :
    gives (exec (.xorw (.short (-1)) 2) (st [(2, 0x1234)] 0x0221)) [(2, 0xEDCB)] 0x0221 0x01002 = true := by decide

/-- The condition table of spec/10_state.md R30, both outcomes of each; R148. -/
theorem test_scond :
    gives (exec (.seq 2) (st [(2, 0xABCD)] 0x02A5)) [(2, 0x0000)] 0x02A5 0x01002 = true ∧
    gives (exec (.seq 2) (st [(2, 0xABCD)] 0x0240)) [(2, 0x0001)] 0x0240 0x01002 = true ∧
    gives (exec (.sne 2) (st [(2, 0xABCD)] 0x02A5)) [(2, 0x0001)] 0x02A5 0x01002 = true ∧
    gives (exec (.sne 2) (st [(2, 0xABCD)] 0x0240)) [(2, 0x0000)] 0x0240 0x01002 = true ∧
    gives (exec (.scs 2) (st [(2, 0xABCD)] 0x02E4)) [(2, 0x0000)] 0x02E4 0x01002 = true ∧
    gives (exec (.scs 2) (st [(2, 0xABCD)] 0x0201)) [(2, 0x0001)] 0x0201 0x01002 = true ∧
    gives (exec (.scc 2) (st [(2, 0xABCD)] 0x02E4)) [(2, 0x0001)] 0x02E4 0x01002 = true ∧
    gives (exec (.scc 2) (st [(2, 0xABCD)] 0x0201)) [(2, 0x0000)] 0x0201 0x01002 = true ∧
    gives (exec (.shi 2) (st [(2, 0xABCD)] 0x02E1)) [(2, 0x0000)] 0x02E1 0x01002 = true ∧
    gives (exec (.shi 2) (st [(2, 0xABCD)] 0x0204)) [(2, 0x0001)] 0x0204 0x01002 = true ∧
    gives (exec (.sls 2) (st [(2, 0xABCD)] 0x02E1)) [(2, 0x0001)] 0x02E1 0x01002 = true ∧
    gives (exec (.sls 2) (st [(2, 0xABCD)] 0x0204)) [(2, 0x0000)] 0x0204 0x01002 = true ∧
    gives (exec (.sgt 2) (st [(2, 0xABCD)] 0x0265)) [(2, 0x0000)] 0x0265 0x01002 = true ∧
    gives (exec (.sgt 2) (st [(2, 0xABCD)] 0x0280)) [(2, 0x0001)] 0x0280 0x01002 = true ∧
    gives (exec (.sle 2) (st [(2, 0xABCD)] 0x0265)) [(2, 0x0001)] 0x0265 0x01002 = true ∧
    gives (exec (.sle 2) (st [(2, 0xABCD)] 0x0280)) [(2, 0x0000)] 0x0280 0x01002 = true ∧
    gives (exec (.sfs 2) (st [(2, 0xABCD)] 0x02C5)) [(2, 0x0000)] 0x02C5 0x01002 = true ∧
    gives (exec (.sfs 2) (st [(2, 0xABCD)] 0x0220)) [(2, 0x0001)] 0x0220 0x01002 = true ∧
    gives (exec (.sfc 2) (st [(2, 0xABCD)] 0x02C5)) [(2, 0x0001)] 0x02C5 0x01002 = true ∧
    gives (exec (.sfc 2) (st [(2, 0xABCD)] 0x0220)) [(2, 0x0000)] 0x0220 0x01002 = true ∧
    gives (exec (.slo 2) (st [(2, 0xABCD)] 0x02A1)) [(2, 0x0001)] 0x02A1 0x01002 = true ∧
    gives (exec (.slo 2) (st [(2, 0xABCD)] 0x0240)) [(2, 0x0000)] 0x0240 0x01002 = true ∧
    gives (exec (.slo 2) (st [(2, 0xABCD)] 0x0204)) [(2, 0x0000)] 0x0204 0x01002 = true ∧
    gives (exec (.shs 2) (st [(2, 0xABCD)] 0x02A1)) [(2, 0x0000)] 0x02A1 0x01002 = true ∧
    gives (exec (.shs 2) (st [(2, 0xABCD)] 0x0240)) [(2, 0x0001)] 0x0240 0x01002 = true ∧
    gives (exec (.shs 2) (st [(2, 0xABCD)] 0x0204)) [(2, 0x0001)] 0x0204 0x01002 = true ∧
    gives (exec (.slt 2) (st [(2, 0xABCD)] 0x0225)) [(2, 0x0001)] 0x0225 0x01002 = true ∧
    gives (exec (.slt 2) (st [(2, 0xABCD)] 0x0240)) [(2, 0x0000)] 0x0240 0x01002 = true ∧
    gives (exec (.slt 2) (st [(2, 0xABCD)] 0x0280)) [(2, 0x0000)] 0x0280 0x01002 = true ∧
    gives (exec (.sge 2) (st [(2, 0xABCD)] 0x0225)) [(2, 0x0000)] 0x0225 0x01002 = true ∧
    gives (exec (.sge 2) (st [(2, 0xABCD)] 0x0240)) [(2, 0x0001)] 0x0240 0x01002 = true ∧
    gives (exec (.sge 2) (st [(2, 0xABCD)] 0x0280)) [(2, 0x0001)] 0x0280 0x01002 = true := by decide

/-- The condition table of spec/10_state.md R30, both outcomes of each; R170. -/
theorem test_bcond :
    gives (exec (.beq (.short (-256))) (st [] 0x02A5)) [] 0x02A5 0x01002 = true ∧
    gives (exec (.beq (.short (-256))) (st [] 0x0240)) [] 0x0240 0x00F00 = true ∧
    gives (exec (.bne (.short (-256))) (st [] 0x02A5)) [] 0x02A5 0x00F00 = true ∧
    gives (exec (.bne (.short (-256))) (st [] 0x0240)) [] 0x0240 0x01002 = true ∧
    gives (exec (.bcs (.short (-256))) (st [] 0x02E4)) [] 0x02E4 0x01002 = true ∧
    gives (exec (.bcs (.short (-256))) (st [] 0x0201)) [] 0x0201 0x00F00 = true ∧
    gives (exec (.bcc (.short (-256))) (st [] 0x02E4)) [] 0x02E4 0x00F00 = true ∧
    gives (exec (.bcc (.short (-256))) (st [] 0x0201)) [] 0x0201 0x01002 = true ∧
    gives (exec (.bhi (.short (-256))) (st [] 0x02E1)) [] 0x02E1 0x01002 = true ∧
    gives (exec (.bhi (.short (-256))) (st [] 0x0204)) [] 0x0204 0x00F00 = true ∧
    gives (exec (.bls (.short (-256))) (st [] 0x02E1)) [] 0x02E1 0x00F00 = true ∧
    gives (exec (.bls (.short (-256))) (st [] 0x0204)) [] 0x0204 0x01002 = true ∧
    gives (exec (.bgt (.short (-256))) (st [] 0x0265)) [] 0x0265 0x01002 = true ∧
    gives (exec (.bgt (.short (-256))) (st [] 0x0280)) [] 0x0280 0x00F00 = true ∧
    gives (exec (.ble (.short (-256))) (st [] 0x0265)) [] 0x0265 0x00F00 = true ∧
    gives (exec (.ble (.short (-256))) (st [] 0x0280)) [] 0x0280 0x01002 = true ∧
    gives (exec (.bfs (.short (-256))) (st [] 0x02C5)) [] 0x02C5 0x01002 = true ∧
    gives (exec (.bfs (.short (-256))) (st [] 0x0220)) [] 0x0220 0x00F00 = true ∧
    gives (exec (.bfc (.short (-256))) (st [] 0x02C5)) [] 0x02C5 0x00F00 = true ∧
    gives (exec (.bfc (.short (-256))) (st [] 0x0220)) [] 0x0220 0x01002 = true ∧
    gives (exec (.blo (.short (-256))) (st [] 0x02A1)) [] 0x02A1 0x00F00 = true ∧
    gives (exec (.blo (.short (-256))) (st [] 0x0240)) [] 0x0240 0x01002 = true ∧
    gives (exec (.blo (.short (-256))) (st [] 0x0204)) [] 0x0204 0x01002 = true ∧
    gives (exec (.bhs (.short (-256))) (st [] 0x02A1)) [] 0x02A1 0x01002 = true ∧
    gives (exec (.bhs (.short (-256))) (st [] 0x0240)) [] 0x0240 0x00F00 = true ∧
    gives (exec (.bhs (.short (-256))) (st [] 0x0204)) [] 0x0204 0x00F00 = true ∧
    gives (exec (.blt (.short (-256))) (st [] 0x0225)) [] 0x0225 0x00F00 = true ∧
    gives (exec (.blt (.short (-256))) (st [] 0x0240)) [] 0x0240 0x01002 = true ∧
    gives (exec (.blt (.short (-256))) (st [] 0x0280)) [] 0x0280 0x01002 = true ∧
    gives (exec (.bge (.short (-256))) (st [] 0x0225)) [] 0x0225 0x01002 = true ∧
    gives (exec (.bge (.short (-256))) (st [] 0x0240)) [] 0x0240 0x00F00 = true ∧
    gives (exec (.bge (.short (-256))) (st [] 0x0280)) [] 0x0280 0x00F00 = true := by decide

/-- The condition table of spec/10_state.md R30, both outcomes of each; R175. -/
theorem test_jcond :
    gives (exec (.jeq 3) (st [(3, 0x8004)] 0x02A5)) [(3, 0x8004)] 0x02A5 0x01002 = true ∧
    gives (exec (.jeq 3) (st [(3, 0x8004)] 0x0240)) [(3, 0x8004)] 0x0240 0x10008 = true ∧
    gives (exec (.jne 3) (st [(3, 0x8004)] 0x02A5)) [(3, 0x8004)] 0x02A5 0x10008 = true ∧
    gives (exec (.jne 3) (st [(3, 0x8004)] 0x0240)) [(3, 0x8004)] 0x0240 0x01002 = true ∧
    gives (exec (.jcs 3) (st [(3, 0x8004)] 0x02E4)) [(3, 0x8004)] 0x02E4 0x01002 = true ∧
    gives (exec (.jcs 3) (st [(3, 0x8004)] 0x0201)) [(3, 0x8004)] 0x0201 0x10008 = true ∧
    gives (exec (.jcc 3) (st [(3, 0x8004)] 0x02E4)) [(3, 0x8004)] 0x02E4 0x10008 = true ∧
    gives (exec (.jcc 3) (st [(3, 0x8004)] 0x0201)) [(3, 0x8004)] 0x0201 0x01002 = true ∧
    gives (exec (.jhi 3) (st [(3, 0x8004)] 0x02E1)) [(3, 0x8004)] 0x02E1 0x01002 = true ∧
    gives (exec (.jhi 3) (st [(3, 0x8004)] 0x0204)) [(3, 0x8004)] 0x0204 0x10008 = true ∧
    gives (exec (.jls 3) (st [(3, 0x8004)] 0x02E1)) [(3, 0x8004)] 0x02E1 0x10008 = true ∧
    gives (exec (.jls 3) (st [(3, 0x8004)] 0x0204)) [(3, 0x8004)] 0x0204 0x01002 = true ∧
    gives (exec (.jgt 3) (st [(3, 0x8004)] 0x0265)) [(3, 0x8004)] 0x0265 0x01002 = true ∧
    gives (exec (.jgt 3) (st [(3, 0x8004)] 0x0280)) [(3, 0x8004)] 0x0280 0x10008 = true ∧
    gives (exec (.jle 3) (st [(3, 0x8004)] 0x0265)) [(3, 0x8004)] 0x0265 0x10008 = true ∧
    gives (exec (.jle 3) (st [(3, 0x8004)] 0x0280)) [(3, 0x8004)] 0x0280 0x01002 = true ∧
    gives (exec (.jfs 3) (st [(3, 0x8004)] 0x02C5)) [(3, 0x8004)] 0x02C5 0x01002 = true ∧
    gives (exec (.jfs 3) (st [(3, 0x8004)] 0x0220)) [(3, 0x8004)] 0x0220 0x10008 = true ∧
    gives (exec (.jfc 3) (st [(3, 0x8004)] 0x02C5)) [(3, 0x8004)] 0x02C5 0x10008 = true ∧
    gives (exec (.jfc 3) (st [(3, 0x8004)] 0x0220)) [(3, 0x8004)] 0x0220 0x01002 = true ∧
    gives (exec (.jlo 3) (st [(3, 0x8004)] 0x02A1)) [(3, 0x8004)] 0x02A1 0x10008 = true ∧
    gives (exec (.jlo 3) (st [(3, 0x8004)] 0x0240)) [(3, 0x8004)] 0x0240 0x01002 = true ∧
    gives (exec (.jlo 3) (st [(3, 0x8004)] 0x0204)) [(3, 0x8004)] 0x0204 0x01002 = true ∧
    gives (exec (.jhs 3) (st [(3, 0x8004)] 0x02A1)) [(3, 0x8004)] 0x02A1 0x01002 = true ∧
    gives (exec (.jhs 3) (st [(3, 0x8004)] 0x0240)) [(3, 0x8004)] 0x0240 0x10008 = true ∧
    gives (exec (.jhs 3) (st [(3, 0x8004)] 0x0204)) [(3, 0x8004)] 0x0204 0x10008 = true ∧
    gives (exec (.jlt 3) (st [(3, 0x8004)] 0x0225)) [(3, 0x8004)] 0x0225 0x10008 = true ∧
    gives (exec (.jlt 3) (st [(3, 0x8004)] 0x0240)) [(3, 0x8004)] 0x0240 0x01002 = true ∧
    gives (exec (.jlt 3) (st [(3, 0x8004)] 0x0280)) [(3, 0x8004)] 0x0280 0x01002 = true ∧
    gives (exec (.jge 3) (st [(3, 0x8004)] 0x0225)) [(3, 0x8004)] 0x0225 0x01002 = true ∧
    gives (exec (.jge 3) (st [(3, 0x8004)] 0x0240)) [(3, 0x8004)] 0x0240 0x10008 = true ∧
    gives (exec (.jge 3) (st [(3, 0x8004)] 0x0280)) [(3, 0x8004)] 0x0280 0x10008 = true := by decide

/-- X6, V64. -/
theorem test_ashub :
    gives (exec (.ashub (.reg 4) 6) (st [(4, 0x12FE), (6, 0x12F8)] 0x0221)) [(6, 0x12FE)] 0x0221 0x01002 = true ∧
    gives (exec (.ashub (.short (-7)) 5) (st [(5, 0x1280)] 0x0221)) [(5, 0x12FF)] 0x0221 0x01002 = true := by decide

/-- V61, V62, V65. -/
theorem test_ashuw :
    gives (exec (.ashuw (.medium 0xFFF1) 5) (st [(5, 0x4000)] 0x0200)) [(5, 0x0000)] 0x0200 0x01004 = true ∧
    gives (exec (.ashuw (.short 15) 5) (st [(5, 0x0003)] 0x0200)) [(5, 0x8000)] 0x0200 0x01002 = true ∧
    gives (exec (.ashuw (.reg 4) 5) (st [(4, 0x01FF), (5, 0x8000)] 0x0200)) [(5, 0xC000)] 0x0200 0x01002 = true := by decide

/-- X22, X23. -/
theorem test_lshb :
    gives (exec (.lshb (.short 4) 1) (st [(1, 0x12FE)] 0x0221)) [(1, 0x12E0)] 0x0221 0x01002 = true ∧
    gives (exec (.lshb (.reg 5) 7) (st [(5, 0x12FF), (7, 0x12FE)] 0x0221)) [(7, 0x127F)] 0x0221 0x01002 = true := by decide

/-- V69, V72. -/
theorem test_lshw :
    gives (exec (.lshw (.medium 0xFFF1) 1) (st [(1, 0x8000)] 0x0200)) [(1, 0x0001)] 0x0200 0x01004 = true ∧
    gives (exec (.lshw (.short 8) 1) (st [(1, 0x12AB)] 0x0200)) [(1, 0xAB00)] 0x0200 0x01002 = true := by decide

/-- V66, V73: a count out of range leaves the high byte, the flags, the length and every other register as they are. -/
theorem test_shift_out_of_range :
    next (exec (.ashub (.short 8) 5) (st [(1, 7), (5, 0x1234)] 0x0221)) (fun t =>
      t.reg 1 == 7 && t.psr.word 0 == 0x0221 && t.pc == 0x01002 && t.draws == 1) = true ∧
    (∃ (t : State) (v : Byte), exec (.lshb (.short (-8)) 1) (st [(1, 0x12AB)] 0x0221) = .next t ∧ t.reg 1 = 0x12#8 ++ v) :=
  ⟨by decide, _, _, rfl, rfl⟩

/-- V80, V81. -/
theorem test_tbit :
    gives (exec (.tbit (.short 15) 1) (st [(1, 0x7FFF)] 0x0220)) [(1, 0x7FFF)] 0x0200 0x01002 = true ∧
    gives (exec (.tbit (.reg 2) 1) (st [(2, 0x000F), (1, 0x8000)] 0x0200)) [] 0x0220 0x01002 = true := by decide

/-- V82: an offset above 15 changes no register and no flag but F. -/
theorem test_tbit_out_of_range :
    next (exec (.tbit (.reg 2) 1) (st [(2, 0x0010), (1, 0x8000)] 0x02C5)) (fun t =>
      t.reg 1 == 0x8000 && { t.psr with f := false } == Psr.ofWord 0x02C5 && t.pc == 0x01002 && t.draws == 1) = true := by
  decide

/-- V4, V5. -/
theorem test_movb :
    gives (exec (.movb (.medium 0x1234) 2) (st [(2, 0xABCD)] 0x0221)) [(2, 0xAB34)] 0x0221 0x01004 = true ∧
    gives (exec (.movb (.reg 0) 6) (st [(0, 0x1234), (6, 0xABCD)] 0x0221)) [(6, 0xAB34)] 0x0221 0x01002 = true := by decide

/-- V2, X24. -/
theorem test_movw :
    gives (exec (.movw (.short (-16)) 2) (st [(2, 0x1234)] 0x0221)) [(2, 0xFFF0)] 0x0221 0x01002 = true ∧
    gives (exec (.movw (.reg 0) 6) (st [(0, 0x1234)] 0x0221)) [(6, 0x1234)] 0x0221 0x01002 = true := by decide

/-- V6, X27. -/
theorem test_movxb :
    gives (exec (.movxb 8 0) (st [(8, 0x0080)] 0x0200)) [(0, 0xFF80)] 0x0200 0x01002 = true ∧
    gives (exec (.movxb 8 0) (st [(8, 0x1270)] 0x0200)) [(0, 0x0070)] 0x0200 0x01002 = true := by decide

/-- V7. -/
theorem test_movzb :
    gives (exec (.movzb 3 3) (st [(3, 0xABCD)] 0x0200)) [(3, 0x00CD)] 0x0200 0x01002 = true := by decide

/-- V90, V91, V92, V93. -/
theorem test_lpr :
    gives (exec (.lpr 1 .psr) (st [(1, 0xFFFF)] 0x0200)) [(1, 0xFFFF)] 0x0EE7 0x01002 = true ∧
    gives (exec (.lpr 1 .psr) (st [(1, 0x0A02)] 0x0600)) [] 0x0A02 0x01002 = true ∧
    next (exec (.lpr 1 .isp) (st [(1, 0xFFFF)] 0x0200)) (fun t => t.isp == 0x0FFFE && t.intbase == State.reset.intbase) = true ∧
    next (exec (.lpr 1 .intbase) (st [(1, 0x0101)] 0x0200)) (fun t => t.intbase == 0x00100 && t.isp == State.reset.isp) = true := by decide

/-- V94, V95, V96; X35 with the value of conflict C1. -/
theorem test_spr :
    next (exec (.spr .isp 0) { st [] 0x0200 with isp := 0x01FFC }) (fun t => t.reg 0 == 0x1FFC) = true ∧
    next (exec (.spr .intbase 0) { st [] 0x0200 with intbase := 0x00100 }) (fun t => t.reg 0 == 0x0100) = true ∧
    (∃ (t : State) (v : BitVec 4), exec (.spr .psr 0) (st [] 0x0845) = .next t ∧
      t.reg 0 = v ++ 1#1 ++ 0#1 ++ 0#1 ++ 0#1 ++ 0x45#8) :=
  ⟨by decide, by decide, _, (st [] 0x0845).unspecified.extractLsb' 0 4, rfl, rfl⟩

/-- V106, V107. -/
theorem test_br :
    gives (exec (.br (.short 4)) (st [] 0x0200 0x1FFFE)) [] 0x0200 0x00002 = true ∧
    gives (exec (.br (.medium 0x0FFFE)) (st [] 0x0200 0x10004)) [] 0x0200 0x00002 = true := by decide

/-- V104, V103. -/
theorem test_bge_wraps :
    gives (exec (.bge (.short (-2))) (st [] 0x0240 0x00000)) [] 0x0240 0x1FFFE = true ∧
    gives (exec (.beq (.medium 0x00100)) (st [] 0x0200)) [] 0x0200 0x01004 = true := by decide

/-- X9, V109. -/
theorem test_bal :
    gives (exec (.bal 14 0x00F6C) (st [] 0x0200 0x09098)) [(14, 0x484E)] 0x0200 0x0A004 = true ∧
    gives (exec (.bal 3 0x1FFFC) (st [(3, 0x0007)] 0x0200 0x1FFFC)) [(3, 0x0000)] 0x0200 0x1FFF8 = true := by decide

/-- V110. -/
theorem test_jump :
    gives (exec (.jump 14) (st [(14, 0xFFFF)] 0x0200)) [] 0x0200 0x1FFFE = true := by decide

/-- X16, V112. -/
theorem test_jal :
    gives (exec (.jal 14 3) (st [(3, 0x1004)] 0x0200 0x09098)) [(14, 0x484D)] 0x0200 0x02008 = true ∧
    gives (exec (.jal 3 3) (st [(3, 0x1004)] 0x0200 0x09098)) [(3, 0x484D)] 0x0200 0x02008 = true := by decide

/-- X18, V131. -/
theorem test_loadb :
    gives (exec (.loadb (.relShort 9 5) 7) (st [(5, 0x2000), (7, 0xABCD)] 0x0221 0x01000 [(0x02009, 0x17)])) [(7, 0xAB17)] 0x0221 0x01002 = true ∧
    gives (exec (.loadb (.relShort 9 5) 7) (st [(5, 0x2000)] 0x0200 0x01000 [(0x02009, 0x80)])) [(7, 0x0080)] 0x0200 0x01002 = true := by decide

/-- X20, V122, V123, V124. -/
theorem test_loadw :
    gives (exec (.loadw (.far 0x20000 4) 7) (st [(4, 0x0002), (5, 0xABCD)] 0x0200 0x01000 [(0x30002, 0x55), (0x30003, 0xAA)])) [(7, 0xAA55)] 0x0200 0x01004 = true ∧
    gives (exec (.loadw (.relMedium 0x3FFFF 5) 6) (st [(5, 0x2000)] 0x0200 0x01000 [(0x01FFF, 0x34), (0x02000, 0x12)])) [(6, 0x1234)] 0x0200 0x01004 = true ∧
    gives (exec (.loadw (.relShort 2 5) 6) (st [(5, 0xFFFF)] 0x0200 0x01000 [(0x10001, 0x34), (0x10002, 0x12)])) [(6, 0x1234)] 0x0200 0x01002 = true ∧
    gives (exec (.loadw (.relShort 0 5) 5) (st [(5, 0x2000)] 0x0200 0x01000 [(0x02000, 0xEF), (0x02001, 0xBE)])) [(5, 0xBEEF)] 0x0200 0x01002 = true := by decide

/-- X37, V128. -/
theorem test_storb :
    next (exec (.storb 7 (.far 0x20000 4)) (st [(7, 0x1255), (4, 2), (5, 0xABCD)] 0x0221)) (fun t =>
      holds t [(0x30001, 0x00), (0x30002, 0x55), (0x30003, 0x00)] && t.psr.word 0 == 0x0221 && t.pc == 0x01004) = true ∧
    next (exec (.storb 7 (.abs 0x3FFFF)) (st [(7, 0x12AB)] 0x0200)) (fun t => holds t [(0x3FFFF, 0xAB), (0, 0)]) = true := by
  decide

/-- X38, V126: unaligned, and the sum modulo 2^18. -/
theorem test_storw :
    next (exec (.storw 3 (.relShort 9 5)) (st [(3, 0xAA55), (5, 0x2000)] 0x0221)) (fun t =>
      holds t [(0x2008, 0x00), (0x2009, 0x55), (0x200A, 0xAA), (0x200B, 0x00)] && t.psr.word 0 == 0x0221 &&
        t.pc == 0x01002) = true ∧
    next (exec (.storw 7 (.far 4 2)) (st [(7, 0xA55A), (2, 0xFFFE), (3, 0xFFFF)] 0x0200)) (fun t =>
      holds t [(1, 0x00), (2, 0x5A), (3, 0xA5), (4, 0x00)]) = true := by decide

/-- Whether the answer is this fault. -/
def faults (r : Result) (f : Fault) : Bool :=
  match r with
  | .fault g => g == f
  | _ => false

/-- Whether the answer is this refusal. -/
def refuses (r : Result) (f : Refusal) : Bool :=
  match r with
  | .refused g => g == f
  | _ => false

/-- V129, V130. -/
theorem test_load_store_stops :
    faults (exec (.storw 7 (.abs 0x3FFFF)) (st [] 0x0200)) .wordAtTop ∧
    refuses (exec (.loadb (.relShort 0 5) 6) (st [(5, 0xFC00)] 0x0200)) .reservedRegion ∧
    refuses (exec (.loadw (.relShort 0 5) 6) (st [(5, 0xFBFF)] 0x0200)) .reservedRegion := by decide

/-- The state of a machine with other parameters (spec/00_scope.md R4). -/
def under (f : Config.Params → Config.Params) (s : State) : State := { s with params := f s.params }

/-- A machine whose platform decodes memory in 0xFC00..0xFFFF (D20). -/
def decodedReserved : Config.Params → Config.Params := fun p => { p with reservedRegionAccess := .memory }

/-- A machine whose platform has a device in 0xFC00..0xFFFF (D20). -/
def deviceReserved : Config.Params → Config.Params := fun p => { p with reservedRegionAccess := .device }

/-- The other values of ADDR_WRAP, WORD_AT_TOP and RESERVED_REGION_ACCESS (D2, D3, D20): V126 is refused; V129 writes its high
byte to address 0; V130 reads the device, and a store to it changes no memory. -/
theorem test_load_store_parameters :
    refuses (exec (.storw 7 (.far 4 2))
      (under (fun p => { p with addrWrap := .refuse }) (st [(7, 0xA55A), (2, 0xFFFE), (3, 0xFFFF)] 0x0200))) .addressPastTop ∧
    next (exec (.storw 7 (.abs 0x3FFFF)) (under (fun p => { p with wordAtTop := .wrap }) (st [(7, 0xA55A)] 0x0200))) (fun t =>
      holds t [(0x3FFFF, 0x5A), (0, 0xA5)]) = true ∧
    next (exec (.loadb (.relShort 0 5) 6) (under deviceReserved (st [(5, 0xFC00), (6, 0xAB00)] 0x0200))) (fun t =>
      t.draws == 1 && t.pc == 0x01002) = true ∧
    next (exec (.storw 6 (.relShort 0 5)) (under deviceReserved (st [(5, 0xFBFF), (6, 0xAB12)] 0x0200))) (fun t =>
      t.mem == [(0xFBFF, 0x12)] && t.stale == [(0xFBFF, 0)]) = true := by decide

/-- V140. -/
theorem test_di :
    gives (exec (.di) (st [] 0x0A00)) [] 0x0800 0x01002 = true := by decide

/-- V141. -/
theorem test_ei :
    gives (exec (.ei) (st [] 0x0800)) [] 0x0A00 0x01002 = true := by decide

/-- V144. -/
theorem test_wait : next (exec .wait (st [] 0x0200)) (fun t => t.waiting && t.pc == 0x01002) = true := by decide

/-- A state with the ISP and the INTBASE of the exception vectors. -/
def ex (psr : Word) (pc : Addr) (mem : Memory) : State := { st [] psr pc mem with isp := 0x02000, intbase := 0x00100 }

/-- A run of the step at a boundary at which the environment presents `b`. -/
def stepWith (b : Boundary) (s : State) : Result := step { s with inputs := [b] }

/-- V-E1: the step of `excp svc` copies T to P and pushes it. -/
theorem test_excp_svc :
    next (step (ex 0x0A03 0x01000 [(0x0010A, 0x05), (0x0010B, 0x40), (0x01000, 0xEA), (0x01001, 0x7B)])) (fun t =>
      holds t [(0x01FFC, 0x00), (0x01FFD, 0x08), (0x01FFE, 0x03)] &&
        t.isp == 0x01FFC && t.psr.word 0 == 0x0A01 && t.pc == 0x0800A) = true := by decide

/-- V113: a reserved vector raises UND. -/
theorem test_excp_reserved :
    next (exec (.excp 9) (ex 0x0200 0x00400 [(0x00115, 0x40)])) (fun t => t.pc == 0x08000 && t.isp == 0x01FFC) = true := by
  decide

/-- V-E2: the undefined word 5625. -/
theorem test_und :
    next (step (ex 0x0200 0x00400 [(0x00115, 0x40), (0x00400, 0x25), (0x00401, 0x56)])) (fun t =>
      holds t [(0x01FFC, 0x00), (0x01FFD, 0x02)] &&
        t.isp == 0x01FFC && t.psr.word 0 == 0x0200 && t.pc == 0x08000) = true := by decide

/-- X32; V114 on a machine whose platform decodes memory there. -/
theorem test_retx :
    next (exec .retx { st [] 0x0200 0x0F034 [(0x01000, 0x04), (0x01001, 0x90), (0x01002, 0x45), (0x01003, 0x08)] with
      isp := 0x01000 }) (fun t => t.pc == 0x12008 && t.isp == 0x01004 && t.psr.word 0 == 0x0845) = true ∧
    next (exec .retx { under decodedReserved
        (st [] 0x0200 0x0F034 [(0x0FFFC, 0xFF), (0x0FFFD, 0xFF), (0x0FFFE, 0xFF), (0x0FFFF, 0xFF)]) with
      isp := 0x0FFFC }) (fun t => t.pc == 0x1FFFE && t.isp == 0x00000 && t.psr.word 0 == 0x0EE7) = true := by decide

/-- V-E3: a maskable interrupt with the vector byte 17. -/
theorem test_interrupt_maskable :
    next (stepWith { Boundary.quiet with int := true, icu := 17 } (ex 0x0A40 0x01234 [(0x00123, 0x20)])) (fun t =>
      holds t [(0x01FFC, 0x1A), (0x01FFD, 0x09), (0x01FFE, 0x40)] &&
        t.isp == 0x01FFC && t.psr.word 0 == 0x0240 && t.pc == 0x04000) = true := by decide

/-- V-E4, V-E8: NMI and ISE are accepted whatever E and I are. -/
theorem test_interrupt_nmi_ise :
    next (stepWith { Boundary.quiet with nmi := true } (ex 0x0040 0x01234 [(0x00103, 0x30)])) (fun t =>
      t.psr.word 0 == 0x0040 && t.pc == 0x06000) = true ∧
    next (stepWith { Boundary.quiet with ise := true } (ex 0x0000 0x01234 [(0x0011F, 0x70)])) (fun t =>
      t.psr.word 0 == 0x0000 && t.pc == 0x0E000) = true := by decide

/-- V-E5: the trace trap with the default TRC_VECTOR clears P before the push. -/
theorem test_trace :
    next (step (ex 0x0602 0x01002 [(0x00113, 0x30)])) (fun t =>
      holds t [(0x01FFC, 0x01), (0x01FFD, 0x08), (0x01FFE, 0x02)] &&
        t.psr.word 0 == 0x0200 && t.pc == 0x06000) = true := by decide

/-- The PSR that V-E1 and V-E5 push: P is a copy of T for the supervisor call and 0 for the trace trap. -/
theorem test_pushed_psr :
    ((Psr.ofWord 0x0E03).pushed .svc).word 0 = 0x0E03 ∧ ((Psr.ofWord 0x0602).pushed .trc).word 0 = 0x0202 := by decide

/-- V-E6 on a machine whose platform decodes memory in 0xFC00..0xFFFF: ISP wraps modulo 2^16, the frame does not. -/
theorem test_isp_wraps :
    next (exec (.excp 5) { under decodedReserved (st [] 0x0200) with isp := 0x00002 }) (fun t =>
      holds t [(0x0FFFE, 0x00), (0x0FFFF, 0x08)] && t.isp == 0x0FFFE) = true := by decide

/-- V-E7: a maskable request is not accepted with E or I clear; the NOP at the PC runs. -/
theorem test_interrupt_masked :
    next (stepWith { Boundary.quiet with int := true, icu := 17 } (ex 0x0800 0x01000 [(0x01001, 0x02)])) (fun t =>
      t.pc == 0x01002 && t.isp == 0x02000) = true ∧
    next (stepWith { Boundary.quiet with int := true, icu := 17 } (ex 0x0200 0x01000 [(0x01001, 0x02)])) (fun t =>
      t.pc == 0x01002 && t.isp == 0x02000) = true := by decide

/-- A frame or a table entry that touches the reserved range is refused whole, by default (spec/60_exceptions.md R237, D22);
ISP_WRAP refuses the wrap (D11); on a device the frame changes no memory (D20). -/
theorem test_reserved_frame :
    refuses (exec (.excp 5) { st [] 0x0200 with isp := 0x00002 }) .reservedRegion ∧
    refuses (exec (.excp 5) { st [] 0x0200 with intbase := 0x0FBF6 }) .reservedRegion ∧
    refuses (exec .retx { st [] 0x0200 with isp := 0x0FBFE }) .reservedRegion ∧
    refuses (stepWith { Boundary.quiet with nmi := true } { ex 0x0A00 0x01000 [] with isp := 0x0FC02 }) .reservedRegion ∧
    refuses (exec (.excp 5) (under (fun p => { p with ispWrap := .refuse }) { st [] 0x0200 with isp := 0x00002 })) .ispPastEnd ∧
    next (exec (.excp 5) { under deviceReserved (st [] 0x0200) with isp := 0x0FC04 }) (fun t =>
      t.mem == [] && t.isp == 0x0FC00) = true := by decide

/-- V159, V115 and the condition 1111 under each value of UNLISTED_ENCODING (D8, D14): refused, trapped as UND, or with fixed
fields ignored (RETX of the frame at 0x2000; BAL by 2 for the displacement 3; no meaning). -/
theorem test_unlisted_encoding :
    refuses (step (ex 0x0200 0x01000 [(0x01001, 0x78)])) (.rejected .unlistedFixedField) ∧
    next (step (under (fun p => { p with unlistedEncoding := .raiseUnd }) (ex 0x0200 0x00400 [(0x00115, 0x40), (0x00401, 0x78)])))
      (fun t => t.pc == 0x08000 && t.isp == 0x01FFC && holds t [(0x01FFD, 0x02)]) = true ∧
    next (step (under (fun p => { p with unlistedEncoding := .ignoreFields }) (ex 0x0200 0x00400 [(0x00401, 0x78), (0x02001, 0x10)])))
      (fun t => t.pc == 0x02000 && t.isp == 0x02004) = true ∧
    next (step (under (fun p => { p with unlistedEncoding := .ignoreFields })
        (ex 0x0200 0x00400 [(0x00400, 0x6E), (0x00401, 0x34), (0x00402, 0x03)])))
      (fun t => t.pc == 0x00402 && t.reg 3 == 0x0202) = true ∧
    refuses (step (under (fun p => { p with unlistedEncoding := .ignoreFields }) (ex 0x0200 0x01000 [(0x01000, 0xE0), (0x01001, 0x41)])))
      (.rejected .unlistedCondition) := by decide

/-- R100: the medium branch pattern has length 4 with the unlisted condition 1111 too (0x15EE, 0x15FE), so its second word is
fetched before UNLISTED_ENCODING decides: at 0x1FFFE the fetch is refused, elsewhere it raises UND. -/
theorem test_unlisted_condition_length :
    isLong 0x15EE = true ∧ isLong 0x15FE = true ∧ isLong 0x15EF = false ∧ isLong 0x41E0 = false ∧
    refuses (step (under (fun p => { p with unlistedEncoding := .raiseUnd }) (ex 0x0200 0x1FFFE [(0x1FFFE, 0xEE), (0x1FFFF, 0x15)])))
      .fetchPastTop ∧
    next (step (under (fun p => { p with unlistedEncoding := .raiseUnd })
        (ex 0x0200 0x1FFFC [(0x00115, 0x40), (0x1FFFC, 0xFE), (0x1FFFD, 0x15)])))
      (fun t => t.pc == 0x08000 && t.isp == 0x01FFC) = true := by decide

/-- The other values of PC_WRAP, ICU_VECTOR_RANGE, WAIT_WAKE and STALE_FETCH (D4, D12, D19, D25): V162's neighbour at 0x1FFFE
takes its second word from 0; the vector byte 2 is used as it is; a masked request ends the wait and the NOP runs; the
fetch of a byte just stored is refused. -/
theorem test_cycle_parameters :
    refuses (step (ex 0x0200 0x1FFFE [(0x1FFFE, 0x11), (0x1FFFF, 0x39)])) .fetchPastTop ∧
    next (step (under (fun p => { p with pcWrap := .moduloSplit }) (ex 0x0200 0x1FFFE [(0, 0x17), (0x1FFFE, 0x11), (0x1FFFF, 0x39)])))
      (fun t => t.reg 8 == 0x0017 && t.pc == 0x00002) = true ∧
    refuses (stepWith { Boundary.quiet with int := true, icu := 2 } (ex 0x0A00 0x01000 [])) .icuVectorRange ∧
    next (stepWith { Boundary.quiet with int := true, icu := 2 }
        (under (fun p => { p with icuVectorRange := .asIs }) (ex 0x0A00 0x01000 [(0x00105, 0x20)])))
      (fun t => t.pc == 0x04000) = true ∧
    next (stepWith { Boundary.quiet with int := true }
        (under (fun p => { p with waitWake := .anyRequest }) { ex 0x0200 0x01000 [(0x01001, 0x02)] with waiting := true }))
      (fun t => !t.waiting && t.pc == 0x01002 && t.isp == 0x02000) = true ∧
    refuses (step (under (fun p => { p with staleFetch := .refuse }) { ex 0x0200 0x01000 [(0x01001, 0x02)] with stale := [(0x01001, 0)] }))
      .staleFetch := by decide

/-- V-R1: a reset of a running core. -/
theorem test_reset :
    next (stepWith { Boundary.quiet with reset := true } (ex 0x0A45 0x01234 [])) (fun t =>
      t.reg 0 == 0x091A && t.pc == 0 && t.psr.word 0 == 0x0200 && t.cfg == 0) =
      true := by decide

/-- P5: the core stays waiting without a request and is woken by an accepted one. -/
theorem test_waiting :
    next (step { ex 0x0A00 0x00016 [] with waiting := true }) (fun t => t.waiting && t.pc == 0x00016) = true ∧
    next (stepWith { Boundary.quiet with int := true, icu := 0x20 } { ex 0x0A00 0x00016 [(0x00141, 0x02)] with waiting := true })
      (fun t => !t.waiting && t.pc == 0x00400 && holds t [(0x01FFC, 0x0B)]) = true := by decide

/-- An instruction placed by `withFetchWord` is the one the very next step runs. -/
theorem test_withFetchWord :
    next (step (State.reset.withFetchWord 32 0x00173911)) (fun t => t.reg 8 == 0x0017 && t.pc == 0x00004) = true := by decide

/-- A byte stored is noted with its old value until a serializing instruction (spec/20_memory.md R66, R67). -/
theorem test_stale :
    next (exec (.storb 7 (.abs 0x01004)) (st [(7, 0x12AB)] 0x0200)) (fun t => t.stale == [(0x01004, 0x00)] &&
      next (exec (.lpr 1 .intbase) t) (fun u => u.stale == [])) = true := by decide

/-! ## Each statement with hypotheses has a state and operands that meet them -/

/-- A canonical state with a program, for the witnesses. -/
def w0 : State := st [(1, 0xFFFF), (4, 0x0010), (5, 0x2000)] 0x0A40 0x01000 [(0x01001, 0x02), (0x02000, 0x11)]

/-- Four registers apart, and a pair that is doubled or cleared (ra = rc, rb = rd). -/
theorem witness_MultiWordAdditionAndSubtraction :
    ((0 : Reg) ≠ 1 ∧ (0 : Reg) ≠ 3) ∧ ((0 : Reg) ≠ 1 ∧ (0 : Reg) ≠ 1) := by decide

/-- Counts at both ends of both ranges. -/
theorem witness_ArithmeticShiftResults :
    (w0.srcVal .byte (.short 7)).toInt = 7 ∧ (w0.srcVal .byte (.short (-7))).toInt = -7 ∧
    (w0.srcVal .byte (.short 15)).toInt = 15 ∧ (w0.srcVal .byte (.medium 0xFFF1)).toInt = -15 := by decide

/-- Counts at both ends of both ranges and 0. -/
theorem witness_LogicalShiftResults :
    (w0.srcVal .byte (.medium 0x1207)).toInt = 7 ∧ (w0.srcVal .byte (.short (-7))).toInt = -7 ∧
    (w0.srcVal .byte (.short 15)).toInt = 15 ∧ (w0.srcVal .byte (.medium 0xFFF1)).toInt = -15 ∧
    (w0.srcVal .byte (.short 0)).toInt = 0 ∧ (w0.srcVal .byte (.reg 1)).toInt = -1 := by decide

/-- Counts just outside both ranges. -/
theorem witness_ShiftOutOfRangeFrame :
    (w0.srcVal .byte (.short 8)).toInt = 8 ∧ (w0.srcVal .byte (.short (-8))).toInt = -8 ∧
    (w0.srcVal .byte (.reg 4)).toInt = 16 ∧ (w0.srcVal .byte (.short (-16))).toInt = -16 := by decide

/-- Offsets at the bound and just above it. -/
theorem witness_TestBitFlag :
    (w0.srcVal .word (.short 15)).toNat ≤ 15 ∧ 15 < (w0.srcVal .word (.reg 4)).toNat ∧
    (w0.srcVal .word (.reg 4)).toNat = 16 := by decide

theorem witness_StoreThenLoadProcessorRegister : w0.Inv := by decide

theorem witness_BranchTargetIsModular :
    w0.pcLegal ∧ (Disp.short (-256)).wf = true ∧ (Disp.medium 0x1FFFE).wf = true := by decide

/-- Every pair register but SP, RA included. -/
theorem witness_EffectiveAddresses : (Reg.ra ≠ Reg.sp) ∧ (4 : Reg) ≠ Reg.sp := by decide

/-- Operands that end just below the reserved range, begin just above it, and end at the top of the address space; in the
reserved range where memory is decoded there; the word at the top; both ends of a device. -/
theorem witness_LoadResults :
    accessible w0 (.abs 0x0FBFF) 1 ∧ accessible w0 (.abs 0x10000) 1 ∧ accessible w0 (.abs 0x3FFFF) 1 ∧
    accessible w0 (.abs 0x0FBFE) 2 ∧ accessible w0 (.abs 0x10000) 2 ∧ accessible w0 (.abs 0x3FFFE) 2 ∧
    accessible w0 (.relShort 0 5) 2 ∧ accessible (under decodedReserved w0) (.abs 0x0FBFF) 2 ∧
    (let s := under (fun p => { p with wordAtTop := .wrap }) w0
     sumPermitted s (.abs 0x3FFFF) ∧ (s.effectiveAddr (.abs 0x3FFFF)).toNat = 0x3FFFF ∧ s.params.wordAtTop = .wrap) ∧
    (let s := under deviceReserved w0
     s.params.reservedRegionAccess = .device ∧ ([0x0FBFF#18, 0x0FC00#18, 0x0FFFF#18].all fun a =>
       sumPermitted s (.abs a) ∧ 0xFBFF ≤ (s.effectiveAddr (.abs a)).toNat ∧ (s.effectiveAddr (.abs a)).toNat ≤ 0xFFFF) = true) := by
  decide

/-- The same operands for stores, and a far-relative one. -/
theorem witness_StoreResults :
    w0.mem.wf = true ∧ accessible w0 (.abs 0x0FBFF) 1 ∧ accessible w0 (.abs 0x3FFFF) 1 ∧ accessible w0 (.abs 0x0FBFE) 2 ∧
    accessible w0 (.abs 0x3FFFE) 2 ∧ accessible w0 (.far 0 4) 2 ∧
    (let s := under (fun p => { p with wordAtTop := .wrap }) w0
     s.mem.wf = true ∧ sumPermitted s (.abs 0x3FFFF) ∧ (s.effectiveAddr (.abs 0x3FFFF)).toNat = 0x3FFFF ∧
      s.params.wordAtTop = .wrap) ∧
    (let s := under deviceReserved w0
     s.mem.wf = true ∧ s.params.reservedRegionAccess = .device ∧ ([0x0FBFF#18, 0x0FC00#18, 0x0FFFF#18].all fun a =>
       sumPermitted s (.abs a) ∧ 0xFBFF ≤ (s.effectiveAddr (.abs a)).toNat ∧ (s.effectiveAddr (.abs a)).toNat ≤ 0xFFFF) = true) := by
  decide

/-- Each clause at the ends of its range: the sum past the top, the word at the top, both ends of the reserved range for bytes
and for words, and the operands just outside. -/
theorem witness_LoadStoreStops :
    (¬ sumPermitted (under (fun p => { p with addrWrap := .refuse }) w0) (.relMedium 0x30001 1)) ∧
    sumPermitted (under (fun p => { p with addrWrap := .refuse }) w0) (.relMedium 0x30000 1) ∧
    (sumPermitted w0 (.relMedium 0x30001 1) ∧ ¬ wordPermitted w0 (w0.effectiveAddr (.abs 0x3FFFF)) ∧
      wordPermitted w0 (w0.effectiveAddr (.abs 0x3FFFE))) ∧
    (¬ permitted w0 (w0.effectiveAddr (.abs 0x0FC00)).toNat 1 ∧ ¬ permitted w0 (w0.effectiveAddr (.abs 0x0FFFF)).toNat 1 ∧
      permitted w0 (w0.effectiveAddr (.abs 0x0FBFF)).toNat 1 ∧ permitted w0 (w0.effectiveAddr (.abs 0x10000)).toNat 1) ∧
    (¬ permitted w0 (w0.effectiveAddr (.abs 0x0FBFF)).toNat 2 ∧ ¬ permitted w0 (w0.effectiveAddr (.abs 0x0FFFF)).toNat 2 ∧
      permitted w0 (w0.effectiveAddr (.abs 0x0FBFE)).toNat 2 ∧ permitted w0 (w0.effectiveAddr (.abs 0x10000)).toNat 2) := by
  decide

theorem witness_StoreThenLoadReturnsWord : w0.mem.wf = true ∧ accessible w0 (.abs 0x3FFFE) 2 := by decide

/-- The clauses for a named vector, for another one and for an undefined word; the highest and the lowest frame below the
reserved range, and a frame across the wrap where memory is decoded there. -/
theorem witness_TrapInstructionEntry :
    w0.mem.wf = true ∧ ((5 : BitVec 4) = 5 ∨ (5 : BitVec 4) = 6) ∧ entersInMemory w0 5 ∧ entersInMemory w0 10 ∧
    entersInMemory { w0 with isp := 0x0FC00 } 10 ∧ entersInMemory { w0 with isp := 0x00004 } 10 ∧
    entersInMemory { under decodedReserved w0 with isp := 0x00002 } 10 ∧
    ¬ ((9 : BitVec 4) = 5 ∨ (9 : BitVec 4) = 6 ∨ (9 : BitVec 4) = 7 ∨ (9 : BitVec 4) = 8 ∨ (9 : BitVec 4) = 10) := by decide

theorem witness_ReservedVectorRaisesUnd :
    w0.mem.wf = true ∧ entersInMemory w0 10 ∧
    ¬ ((11 : BitVec 4) = 5 ∨ (11 : BitVec 4) = 6 ∨ (11 : BitVec 4) = 7 ∨ (11 : BitVec 4) = 8 ∨ (11 : BitVec 4) = 10) := by
  decide

/-- The highest frame below the reserved range, the lowest one, and the highest one where memory is decoded there. -/
theorem witness_ReturnFromExceptionResult :
    (let s := { w0 with isp := 0x0FBFC }
     tableLegal s.isp ∧ inMemory s s.isp.toNat 4 ∧ popPermitted s) ∧
    (let s := { w0 with isp := 0x00000 }
     tableLegal s.isp ∧ inMemory s s.isp.toNat 4 ∧ popPermitted s) ∧
    (let s := { under decodedReserved w0 with isp := 0x0FFFE }
     tableLegal s.isp ∧ inMemory s s.isp.toNat 4 ∧ popPermitted s) := by decide

theorem witness_EntryThenReturnRestores :
    (let s := { w0 with isp := 0x0FC00, intbase := 0x0FA00 }
     s.Inv ∧ entersInMemory s (vectorOf s.params .trc) ∧ entersInMemory s (vectorOf s.params (.int 127))) ∧
    (let s := { under decodedReserved w0 with isp := 0x00002, intbase := 0x0FFFE }
     s.Inv ∧ entersInMemory s (vectorOf s.params .trc)) := by decide

/-- A state whose four bytes at the PC are given. -/
def at4 (pc : Addr) (a b c d : Byte) : State :=
  { State.reset with
    pc := pc
    mem := Memory.write (Memory.write (Memory.write (Memory.write [] pc.toNat a) (pc.toNat + 1) b) (pc.toNat + 2) c)
      (pc.toNat + 3) d }

/-- The hypotheses of the statement about a step, for the instruction `i`. -/
def fetchable (s : State) (i : Instr) : Bool :=
  decide (s.runsInstr ∧ s.pcLegal ∧ fetchesMemory s i.len ∧
    (s.pc.toNat + i.len ≤ 0x20000 ∨ s.params.pcWrap = .moduloSplit)) &&
  (match decode [s.mem.read (codeByte s 0), s.mem.read (codeByte s 1), s.mem.read (codeByte s 2), s.mem.read (codeByte s 3)] with
   | .ok (j, _) => j == i
   | .error _ => false)

/-- Short and long instructions at the ends of the code space and of the reserved range; with a store elsewhere not yet
serialized; in the reserved range where memory is decoded there; and split between 0x1FFFE and 0. -/
theorem witness_StepRunsDecodedInstruction :
    fetchable (at4 0x00000 0x00 0x02 0 0) .nop = true ∧
    fetchable (at4 0x1FFFE 0x00 0x02 0 0) .nop = true ∧
    fetchable (at4 0x1FFFC 0x11 0x39 0x17 0x00) (.movw (.medium 0x17) 8) = true ∧
    fetchable (at4 0x0FBFC 0x11 0x39 0x17 0x00) (.movw (.medium 0x17) 8) = true ∧
    fetchable (at4 0x10000 0x11 0x39 0x17 0x00) (.movw (.medium 0x17) 8) = true ∧
    fetchable { at4 0x01000 0x00 0x02 0 0 with stale := [(0x01002, 7)] } .nop = true ∧
    fetchable (under decodedReserved (at4 0x0FFFE 0x11 0x39 0x17 0x00)) (.movw (.medium 0x17) 8) = true ∧
    fetchable (under (fun p => { p with pcWrap := .moduloSplit })
      { st [] 0x0200 0x1FFFE with mem := [(0, 0x17), (0x1FFFE, 0x11), (0x1FFFF, 0x39)] }) (.movw (.medium 0x17) 8) = true := by
  decide

/-- The hypotheses of the statement about undefined words at the ends of the ranges of the PC. -/
theorem witness_UndefinedWordTraps :
    (let s := at4 0x1FFFE 0x25 0x56 0 0
     s.mem.wf = true ∧ s.runsInstr ∧ s.pcLegal ∧ fetchesMemory s 2 ∧ entersInMemory s.started 10 ∧
      wordAt s.mem s.pc.toNat &&& 0xFE01 = 0x5601) ∧
    (let s := at4 0x0FBFE 0xCF 0x15 0 0
     s.mem.wf = true ∧ s.runsInstr ∧ s.pcLegal ∧ fetchesMemory s 2 ∧ entersInMemory s.started 10 ∧
      wordAt s.mem s.pc.toNat &&& 0xDE01 = 0x1401) := by decide

/-- Words that meet each of the eight match and mask pairs. -/
theorem witness_UndefinedWordTraps_patterns :
    (0x17FF#16 &&& 0xFE00 = 0x1600) ∧ (0x3401#16 &&& 0xDE01 = 0x1401) ∧ (0x25FF#16 &&& 0xDE00 = 0x0400) ∧
    (0x6401#16 &&& 0xDE01 = 0x4401) ∧ (0x6C00#16 &&& 0xFE01 = 0x6C00) ∧ (0x6600#16 &&& 0xF801 = 0x6000) ∧
    (0x7600#16 &&& 0xFC01 = 0x7400) ∧ (0x5601#16 &&& 0xFE01 = 0x5601) := by decide

/-- A state at whose boundary the environment presents `b`. -/
def facing (b : Boundary) (s : State) : State := { s with inputs := [b] }

/-- The maskable request alone, with I and E 1 and with E 0. -/
theorem witness_MaskableAcceptedExactlyWhenEnabled :
    (let s := facing { Boundary.quiet with int := true, icu := 17 } (st [] 0x0A00)
     s.boundary.int = true ∧ s.boundary.ise = false ∧ s.boundary.nmi = false ∧ s.psr.i = true ∧ s.psr.e = true) ∧
    (let s := facing { Boundary.quiet with int := true, icu := 17 } (st [] 0x0800)
     s.boundary.int = true ∧ s.boundary.ise = false ∧ s.boundary.nmi = false ∧ s.psr.e = false) := by decide

theorem witness_NonMaskableAlwaysAccepted :
    (let s := facing { Boundary.quiet with nmi := true } (st [] 0x0000)
     s.boundary.nmi = true ∧ s.boundary.ise = false ∧ s.boundary.int = false) ∧
    (let s := facing { Boundary.quiet with ise := true } (st [] 0x0000)
     s.boundary.ise = true ∧ s.boundary.nmi = false ∧ s.boundary.int = false) := by decide

/-- Each kind of request, with the vector bytes at and just outside the ends of the stated range; frames and entries in memory, and
just inside the reserved range. -/
theorem witness_InterruptEntry :
    w0.mem.wf = true ∧ ([1, 15, 16, 127, 255].all fun n => entersInMemory w0 n) = true ∧
    (w0.params.reservedRegionAccess = .refuse ∧ w0.params.ispWrap = .modulo ∧ w0.params.icuVectorRange = .refuse) ∧
    (tableLegal w0.intbase ∧ entryReserved { w0 with isp := 0x0FC02 } 1 ∧ entryReserved { w0 with isp := 0x00002 } 1 ∧
      entryReserved { w0 with intbase := 0x0FB02 } 127) ∧
    (let s := facing { Boundary.quiet with nmi := true } w0
     s.boundary.reset = false ∧ acceptedInterrupt s.boundary s = some .nmi) ∧
    (let s := facing { Boundary.quiet with ise := true } w0
     s.boundary.reset = false ∧ acceptedInterrupt s.boundary s = some .ise) ∧
    (∀ v ∈ [15#8, 16#8, 127#8, 128#8],
      let s := facing { Boundary.quiet with int := true, icu := v } w0
      s.boundary.reset = false ∧ acceptedInterrupt s.boundary s = some (.int v)) := by decide

theorem witness_TraceTrapEntry :
    (let s := ex 0x0602 0x01002 [(0x00113, 0x30)]
     (s.mem.wf = true ∧ s.boundary.reset = false ∧ acceptedInterrupt s.boundary s = none ∧ s.waiting = false ∧
      s.psr.p = true) ∧ entersInMemory s s.params.trcVector.val ∧ entryReserved { s with isp := 0x0FC02 } s.params.trcVector.val ∧
      s.params.reservedRegionAccess = .refuse ∧ s.params.ispWrap = .modulo ∧ tableLegal s.intbase) := by decide

/-- A waiting state at a quiet boundary, and one at which a masked maskable request stands. -/
theorem witness_WaitingIdles :
    (let s := { st [] 0x0200 with waiting := true }
     s.waiting = true ∧ s.boundary.reset = false ∧ acceptedInterrupt s.boundary s = none) ∧
    (let s := facing { Boundary.quiet with int := true, icu := 17 } { st [] 0x0200 with waiting := true }
     s.waiting = true ∧ s.boundary.reset = false ∧ acceptedInterrupt s.boundary s = none ∧
      s.params.waitWake = .acceptedOnly ∧ s.boundary.int = true ∧
      (under (fun p => { p with waitWake := .anyRequest }) s).params.waitWake = .anyRequest) := by decide

/-- A step that ends the wait and a step that begins one. -/
theorem witness_WaitingEndsOnlyByInterruptOrReset :
    (let s := facing { Boundary.quiet with nmi := true } { st [] 0x0200 with waiting := true }
     s.waiting = true ∧ next (step s) (fun t => !t.waiting) = true) ∧
    (let s := at4 0x01000 0xFE 0x7F 0 0
     s.waiting = false ∧ next (step s) (fun t => t.waiting) = true) := by decide

theorem witness_ResetSequenceResult : (facing { Boundary.quiet with reset := true } w0).boundary.reset = true := by decide

/-- States that meet the invariant and step to a next state: an instruction and an interrupt. -/
theorem witness_StepKeepsInvariant :
    w0.Inv ∧ next (step w0) (fun _ => true) = true ∧
    (facing { Boundary.quiet with nmi := true } w0).Inv ∧
    next (step (facing { Boundary.quiet with nmi := true } w0)) (fun _ => true) = true := by decide

/-- Whether the instruction answers a next state in the state. -/
def runs (i : Instr) (s : State) : Bool := next (exec i s) fun _ => true

/-- An instruction outside the comparisons, both comparisons, LPR to the PSR and RETX. -/
theorem witness_OnlyCompareWritesZeroNegativeLow :
    runs (.addw (.reg 1) 2) w0 = true ∧ runs (.cmpb (.reg 1) 2) w0 = true ∧ runs (.cmpw (.reg 1) 2) w0 = true ∧
    runs (.lpr 1 .psr) w0 = true ∧ runs .retx w0 = true := by decide

/-- Instructions that write C and F, that write F, that write E, a trap, and one that writes no flag. -/
theorem witness_PsrWriters :
    runs (.subcw (.reg 1) 2) w0 = true ∧ runs (.tbit (.reg 4) 2) w0 = true ∧ runs .di w0 = true ∧
    runs (.excp 5) w0 = true ∧ runs (.movw (.reg 1) 2) w0 = true := by decide

theorem witness_OnlyStoresAndTrapsWriteMemory : runs (.loadw (.relShort 0 5) 2) w0 = true ∧ runs .retx w0 = true := by decide

theorem witness_OnlyLoadsReadMemory : runs (.storw 1 (.relShort 0 5)) w0 = true ∧ runs (.jal 14 5) w0 = true := by decide

theorem witness_DedicatedRegisterWriters :
    runs (.lpr 1 .isp) w0 = true ∧ runs (.lpr 1 .intbase) w0 = true ∧ runs (.spr .isp 1) w0 = true := by decide

/-- An instruction with a destination, seen from another register, and one without. -/
theorem witness_RegisterWriters :
    (runs (.loadb (.relShort 0 5) 2) w0 = true ∧ (Instr.loadb (.relShort 0 5) 2).destination ≠ some 5) ∧
    (runs (.storw 1 (.relShort 0 5)) w0 = true ∧ (Instr.storw 1 (.relShort 0 5)).destination ≠ some 1) := by decide

/-- Each clause for traps and for RETX: with permitted accesses, with ISP past its end, in the reserved range, and a table entry at
the top of the address space. -/
theorem witness_AllButLoadsAndStoresComplete :
    (∀ m r, Instr.excp 5 ≠ .loadb m r ∧ Instr.excp 5 ≠ .loadw m r ∧ Instr.excp 5 ≠ .storb r m ∧ Instr.excp 5 ≠ .storw r m) ∧
    entryPermitted w0 5 ∧
    (let s := { under (fun p => { p with ispWrap := .refuse }) w0 with isp := 0x00002 }
     ¬ pushPermitted s) ∧
    (let s := { w0 with isp := 0x00002 }
     pushPermitted s ∧ ¬ permitted s (frameAddr s) 4) ∧
    (let s := { w0 with intbase := 0x0FBF6 }
     pushPermitted s ∧ permitted s (frameAddr s) 4 ∧ wordPermitted s (entryAddr s 5) ∧ ¬ permitted s (entryAddr s 5).toNat 2) ∧
    (let s := { w0 with intbase := 0x3FFF5 }
     pushPermitted s ∧ permitted s (frameAddr s) 4 ∧ ¬ wordPermitted s (entryAddr s 5)) ∧
    (tableLegal w0.isp ∧ permitted w0 w0.isp.toNat 4 ∧ popPermitted w0) ∧
    (let s := { under decodedReserved (under (fun p => { p with ispWrap := .refuse }) w0) with isp := 0x0FFFC }
     tableLegal s.isp ∧ permitted s s.isp.toNat 4 ∧ ¬ popPermitted s) ∧
    (let s := { w0 with isp := 0x0FBFE }
     tableLegal s.isp ∧ ¬ permitted s s.isp.toNat 4) := by
  refine ⟨fun _ _ => ⟨nofun, nofun, nofun, nofun⟩, ?_, ?_, ?_, ?_⟩ <;> decide

/-- The ends of the code space and of the reserved range; states with every store serialized and with one noted, under both values
of STALE_FETCH. -/
theorem witness_FetchSeesOldOrNewByte :
    ([0x00000#18, 0x0FBFE#18, 0x10000#18, 0x1FFFE#18].all fun a => a.toNat + 1 < 0x20000 ∧ inMemory w0 a.toNat 2) = true ∧
    (w0.params.staleFetch = .oldOrNew ∧ w0.earlier 0x10000 = [] ∧ w0.earlier 0x10001 = []) ∧
    (let s := under (fun p => { p with staleFetch := .refuse }) { w0 with stale := [(0x10001, 7)] }
     s.params.staleFetch = .refuse ∧ inMemory s 0x10000 2 ∧ s.earlier 0x10001 ≠ []) := by decide

/-- Both ends of the reserved range, the two long instructions, and a first word with an earlier value noted. -/
theorem witness_StepFetchStops :
    (let s := at4 0x0FC00 0 0 0 0
     s.runsInstr ∧ s.pcLegal ∧ s.params.reservedRegionAccess = .refuse ∧ 0xFC00 ≤ s.pc.toNat) ∧
    (let s := at4 0x0FFFE 0 0 0 0
     s.runsInstr ∧ s.pcLegal ∧ s.pc.toNat ≤ 0xFFFF) ∧
    (let s := { st [] 0x0200 0x1FFFE with mem := [(0x1FFFE, 0x11), (0x1FFFF, 0x39)] }
     s.runsInstr ∧ s.pcLegal ∧ fetchesMemory s 2 ∧ isLong (wordAt s.mem s.pc.toNat) = true ∧ s.params.pcWrap = .modulo) ∧
    (let s := at4 0x0FBFE 0x11 0x39 0x17 0x00
     s.runsInstr ∧ s.pcLegal ∧ fetchesMemory s 2 ∧ isLong (wordAt s.mem s.pc.toNat) = true) ∧
    (let s := under (fun p => { p with staleFetch := .refuse }) { at4 0x01000 0x00 0x02 0 0 with stale := [(0x01001, 7)] }
     s.runsInstr ∧ s.pcLegal ∧ s.params.staleFetch = .refuse ∧ inMemory s s.pc.toNat 2 ∧ s.earlier (s.pc.toNat + 1) ≠ []) := by
  decide

/-- The hypotheses of the statement about unlisted encodings. -/
def unlisted (s : State) : Bool :=
  let w := wordAt s.mem s.pc.toNat
  let v := s.mem.read (codeByte s 3) ++ s.mem.read (codeByte s 2)
  decide (s.runsInstr ∧ s.pcLegal ∧ fetchesMemory s 2 ∧ entersInMemory s.started 10 ∧ s.mem.wf = true ∧
    (isLong w = true → (s.pc.toNat + 4 ≤ 0x20000 ∨ s.params.pcWrap = .moduloSplit) ∧ fetchesMemory s 4)) && rejected w v

/-- An encoding of each kind whose fixed fields can be ignored, and one with no such field, under each value of UNLISTED_ENCODING;
a long one at the top of the code space. -/
theorem witness_UnlistedEncodingStep :
    ([Config.UnlistedEncoding.refuse, .raiseUnd, .ignoreFields].all fun u =>
      let f := fun p : Config.Params => { p with unlistedEncoding := u }
      unlisted (under f (at4 0x01000 0x00 0x78 0 0)) && unlisted (under f (at4 0x01000 0x00 0x7A 0 0)) &&
      unlisted (under f (at4 0x01000 0x00 0x7C 0 0)) && unlisted (under f (at4 0x01000 0x00 0x7E 0 0)) &&
      unlisted (under f (at4 0x1FFFC 0x6E 0x34 0x03 0)) && unlisted (under f (at4 0x1FFFC 0xEE 0x15 0x03 0)) && unlisted (under f (at4 0x1FFFE 0xE0 0x41 0 0))) = true := by decide

theorem witness_DecodeEncodeRoundTrip :
    (Instr.loadw (.far 0x3FFFF 14) 15).wf = true ∧ (Instr.bal 14 0x1FFFE).wf = true ∧ (Instr.addw (.short (-16)) 0).wf = true := by
  decide

theorem witness_EncodeDecodeRoundTrip :
    (match decode [0xE9, 0xBC, 0x00, 0x00, 0xAA] with
     | .ok (i, rest) => i == .loadw (.far 0x20000 4) 7 && rest == [0xAA]
     | .error _ => false) = true := by decide

end Sys2Proof.Tests
end

section
/-! What one instruction can do, said once (`Effect`, `exec_effect`), and the statements about the registers, the PSR and the
invariant that follow from it (spec/10_state.md). -/

namespace Sys2Proof

/-! ## Every instruction is a whole number of words (R81, R100) -/

theorem Src.len_even (x : Src) : x.len % 2 = 0 := by cases x <;> simp [Src.len]

theorem MemOp.len_even (m : MemOp) : m.len % 2 = 0 := by cases m <;> simp [MemOp.len]

theorem Disp.len_even (d : Disp) : d.len % 2 = 0 := by cases d <;> simp [Disp.len]

theorem Instr.len_even (i : Instr) : i.len % 2 = 0 := by
  cases i <;> simp only [Instr.len, Src.len_even, MemOp.len_even, Disp.len_even]

end Sys2Proof

namespace Sys2Proof.Machine

open Sys2Proof

/-! ## What one instruction can do -/

/-- ADDi, ADDCi, SUBi and SUBCi, the instructions that write C and F (spec/10_state.md R32). -/
def isSum (i : Instr) : Prop :=
  ∃ src rd, i = .addb src rd ∨ i = .addw src rd ∨ i = .addcb src rd ∨ i = .addcw src rd ∨
    i = .subb src rd ∨ i = .subw src rd ∨ i = .subcb src rd ∨ i = .subcw src rd

/-- EXCP and the undefined op codes, the instructions that are a trap (spec/60_exceptions.md R210, R213). -/
def isTrap (i : Instr) : Prop := (∃ v, i = .excp v) ∨ ∃ p, i = .und p

/-- `Effect s i t`: the ways in which the instruction `i`, executed in `s`, can answer `t`. Each names what it writes and no
more, so that a frame fact has one case for each kind of write. That `exec` answers in one of these ways is
`exec_effect`. -/
inductive Effect (s : State) : Instr → State → Prop
  /-- Only the PC, to the next instruction. -/
  | advances {i : Instr} : Effect s i (s.advance i.len)
  /-- Only the PC, to a code address. -/
  | jumps {i : Instr} (target : Word) : Effect s i { s with pc := fromHalf target }
  /-- The link register and the PC. -/
  | links {i : Instr} {link : Reg} (home target : Word) (hd : i.destination = some link) :
      Effect s i { s.setReg link home with pc := fromHalf target }
  /-- The destination operand; `k` free values are drawn. -/
  | writes {i : Instr} {rd : Reg} (w : Width) (v : BitVec w.bits) (k : Nat) (hd : i.destination = some rd) :
      Effect s i (((s.writeLow rd w v).drawn k).advance i.len)
  /-- The destination operand, C and F. -/
  | sums {i : Instr} {rd : Reg} (w : Width) (x : Sum w.bits) (hi : isSum i) (hd : i.destination = some rd) :
      Effect s i (s.writeSum rd w x i.len)
  /-- Z, N and L. -/
  | compares {i : Instr} {n : Nat} (s1 s2 : BitVec n) (hi : ∃ src rd, i = .cmpb src rd ∨ i = .cmpw src rd) :
      Effect s i ({ s with psr := s.psr.withCompare s1 s2 }.advance i.len)
  /-- F; `k` free values are drawn. -/
  | tests {offset : Src} {rs : Reg} (f : Bool) (k : Nat) :
      Effect s (.tbit offset rs) (({ s with psr := { s.psr with f := f } }.drawn k).advance offset.len)
  /-- E. -/
  | enables {i : Instr} (e : Bool) (hi : i = .ei ∨ i = .di) :
      Effect s i ({ s with psr := { s.psr with e := e } }.advance i.len)
  /-- The waiting state. -/
  | waits : Effect s .wait ({ s with waiting := true }.advance 2)
  /-- A processor register. -/
  | loadsProc {rs : Reg} {dest : ProcReg} : Effect s (.lpr rs dest) ((s.loadProc dest (s.reg rs)).serialize.advance 2)
  /-- Memory, whose canonical form is kept, and the noted earlier values. -/
  | stores {i : Instr} (mem : Memory) (stale : List Host.Cell)
      (hi : ∃ rs m, i = .storb rs m ∨ i = .storw rs m) (hw : s.mem.wf = true → mem.wf = true) :
      Effect s i ({ s with mem := mem, stale := stale }.advance i.len)
  /-- A trap. -/
  | traps {i : Instr} {t : State} {e : Exc} (hi : isTrap i) (he : e.isInterrupt = false)
      (h : enterException e s = .ok t) : Effect s i t
  /-- The return from an exception. -/
  | returns {t : State} (h : returnFromException s = .ok t) : Effect s .retx t

variable {s t u : State} {i : Instr}

/-- An effect on the state that is answered. -/
theorem Effect.of_next (hu : Effect s i u) (h : Host.Outcome.next (φ := Fault) (ρ := Refusal) u = .next t) :
    Effect s i t :=
  Host.Outcome.next.inj h ▸ hu

/-- Bcond (R170). -/
theorem branchOp_effect (c : Cond) (d : Disp) (hl : i.len = d.len) : Effect s i (branchOp c d s) := by
  rw [branchOp]
  split
  · exact .jumps _
  · exact hl ▸ .advances

/-- Jcond (R175). -/
theorem jumpOp_effect (c : Cond) (target : Reg) (hl : i.len = 2) : Effect s i (jumpOp c target s) := by
  rw [jumpOp]
  split
  · exact .jumps _
  · exact hl ▸ .advances

/-- ASHUi and LSHi, in range and out of range (R155, R156). -/
theorem shiftOp_effect (w : Width) (right : BitVec w.bits → Nat → BitVec w.bits) (count : Src) (rd : Reg)
    (hl : i.len = count.len) (hd : i.destination = some rd) : Effect s i (shiftOp w right count rd s) := by
  simp only [shiftOp]
  rw [← hl]
  split
  · exact .writes w _ 1 hd
  · exact .writes w _ 0 hd

/-- TBIT, with an offset in range and out of range (R160). -/
theorem tbit_effect {offset : Src} {rs : Reg} (h : execTbit offset rs s = .next t) : Effect s (.tbit offset rs) t := by
  simp only [execTbit] at h
  split at h
  · exact .of_next (.tests ((s.reg rs).getLsbD _) 0) h
  · exact .of_next (.tests _ 1) h

/-- SPR (R166). -/
theorem spr_effect {src : ProcReg} {rd : Reg} (h : execSpr src rd s = .next t) : Effect s (.spr src rd) t := by
  cases src with
  | psr => exact .of_next (.writes .word _ 1 rfl) h
  | intbase | isp => exact .of_next (.writes .word _ 0 rfl) h

/-- Free values drawn before a register is written are drawn after it as well. -/
theorem writeLow_drawn (k : Nat) (r : Reg) (w : Width) (v : BitVec w.bits) :
    (s.drawn k).writeLow r w v = (s.writeLow r w v).drawn k := by
  cases w <;> rfl

/-- LOADB (R190). -/
theorem loadb_effect {m : MemOp} {rd : Reg} (h : execLoadb m rd s = .next t) : Effect s (.loadb m rd) t := by
  obtain ⟨-, -, h⟩ := bind_eq_ok.1 (finish_eq_next.1 h)
  obtain ⟨v, hv, h⟩ := bind_eq_ok.1 h
  obtain ⟨k, hk⟩ := readAt_state s (s.effectiveAddr m)
  obtain ⟨-, rfl⟩ := loadByte_ok.1 hv
  obtain rfl := Except.ok.inj h
  rw [hk, writeLow_drawn]
  exact .writes .byte _ k rfl

/-- LOADW (R190). -/
theorem loadw_effect {m : MemOp} {rd : Reg} (h : execLoadw m rd s = .next t) : Effect s (.loadw m rd) t := by
  obtain ⟨-, -, h⟩ := bind_eq_ok.1 (finish_eq_next.1 h)
  obtain ⟨v, hv, h⟩ := bind_eq_ok.1 h
  obtain ⟨k, hk⟩ := loadWord_state hv
  obtain rfl := Except.ok.inj h
  rw [hk, writeLow_drawn]
  exact .writes .word _ k rfl

/-- STORB (R191). -/
theorem storb_effect {rs : Reg} {m : MemOp} (h : execStorb rs m s = .next t) : Effect s (.storb rs m) t := by
  obtain ⟨-, -, h⟩ := bind_eq_ok.1 (finish_eq_next.1 h)
  obtain ⟨u, hu, h⟩ := bind_eq_ok.1 h
  obtain ⟨-, rfl⟩ := storeByte_ok.1 hu
  obtain rfl := Except.ok.inj h
  rw [writeAt_frame]
  exact .stores _ _ ⟨rs, m, .inl rfl⟩ (wf_writeAt _ _)

/-- STORW (R191). -/
theorem storw_effect {rs : Reg} {m : MemOp} (h : execStorw rs m s = .next t) : Effect s (.storw rs m) t := by
  obtain ⟨-, -, h⟩ := bind_eq_ok.1 (finish_eq_next.1 h)
  obtain ⟨u, hu, h⟩ := bind_eq_ok.1 h
  obtain ⟨hf, hw⟩ := storeWord_frame hu
  obtain rfl := Except.ok.inj h
  rw [hf]
  exact .stores _ _ ⟨rs, m, .inr rfl⟩ hw

/-- The trap of an EXCP is no interrupt, whatever its vector (R174, R210). -/
theorem trapOf_isInterrupt (v : BitVec 4) : (trapOf v).isInterrupt = false := by
  unfold trapOf
  split <;> rfl

/-- Whatever `exec` answers, it answers as one of the effects of the instruction. -/
theorem exec_effect (h : exec i s = .next t) : Effect s i t := by
  cases i with
  | nop => exact .of_next .advances h
  | addub src rd | mulb src rd | xorb src rd | andb src rd | orb src rd | movb src rd =>
    exact .of_next (.writes .byte _ 0 rfl) h
  | adduw src rd | mulw src rd | xorw src rd | andw src rd | orw src rd | movw src rd =>
    exact .of_next (.writes .word _ 0 rfl) h
  | movxb rs rd | movzb rs rd => exact .of_next (.writes .word _ 0 rfl) h
  | seq rd | sne rd | scs rd | scc rd | shi rd | sls rd | sgt rd | sle rd | sfs rd | sfc rd | slo rd | shs rd | slt rd
  | sge rd => exact .of_next (.writes .word _ 0 rfl) h
  | addb src rd | addcb src rd | subb src rd | subcb src rd =>
    exact .of_next (.sums .byte _ ⟨src, rd, by simp⟩ rfl) h
  | addw src rd | addcw src rd | subw src rd | subcw src rd =>
    exact .of_next (.sums .word _ ⟨src, rd, by simp⟩ rfl) h
  | ashub count rd | lshb count rd => exact .of_next (shiftOp_effect .byte _ count rd rfl rfl) h
  | ashuw count rd | lshw count rd => exact .of_next (shiftOp_effect .word _ count rd rfl rfl) h
  | cmpb src rd => exact .of_next (.compares _ _ ⟨src, rd, .inl rfl⟩) h
  | cmpw src rd => exact .of_next (.compares _ _ ⟨src, rd, .inr rfl⟩) h
  | tbit offset rs => exact tbit_effect h
  | lpr rs dest => exact .of_next .loadsProc h
  | spr src rd => exact spr_effect h
  | retx => exact .returns (finish_eq_next.1 h)
  | excp v => exact .traps (.inl ⟨v, rfl⟩) (trapOf_isInterrupt v) (finish_eq_next.1 h)
  | und p => exact .traps (.inr ⟨p, rfl⟩) rfl (finish_eq_next.1 h)
  | di => exact .of_next (.enables _ (.inr rfl)) h
  | ei => exact .of_next (.enables _ (.inl rfl)) h
  | wait => exact .of_next .waits h
  | beq d | bne d | bcs d | bcc d | bhi d | bls d | bgt d | ble d | bfs d | bfc d | blo d | bhs d | blt d | bge d =>
    exact .of_next (branchOp_effect _ d rfl) h
  | jeq r | jne r | jcs r | jcc r | jhi r | jls r | jgt r | jle r | jfs r | jfc r | jlo r | jhs r | jlt r | jge r =>
    exact .of_next (jumpOp_effect _ r rfl) h
  | br d => exact .of_next (.jumps _) h
  | jump r => exact .of_next (.jumps _) h
  | bal link d => exact .of_next (.links _ _ rfl) h
  | jal link r => exact .of_next (.links _ _ rfl) h
  | loadb m rd => exact loadb_effect h
  | loadw m rd => exact loadw_effect h
  | storb rs m => exact storb_effect h
  | storw rs m => exact storw_effect h

/-! ## The invariant -/

/-- An advance by a whole number of words keeps the invariant (R14, R17). -/
theorem State.Inv.advance (h : s.Inv) {len : Nat} (hl : len % 2 = 0) : (s.advance len).Inv :=
  ⟨nextPc_legal h.1 hl, h.2⟩

/-- A write of the PC with a code address keeps the invariant (R14, R15). -/
theorem State.Inv.jump (h : s.Inv) (target : Word) : { s with pc := fromHalf target }.Inv :=
  ⟨fromHalf_legal target, h.2⟩

/-- A write of a general register keeps the invariant. -/
theorem State.Inv.writeLow (h : s.Inv) (r : Reg) (w : Width) (v : BitVec w.bits) : (s.writeLow r w v).Inv := by
  cases w <;> exact h

/-- A write of a processor register keeps the invariant: ISP and INTBASE take table addresses (R20, R21). -/
theorem State.Inv.loadProc (h : s.Inv) (dest : ProcReg) (v : Word) : (s.loadProc dest v).Inv := by
  obtain ⟨hpc, hisp, hbase, hcfg, hmem⟩ := h
  cases dest with
  | psr => exact ⟨hpc, hisp, hbase, hcfg, hmem⟩
  | intbase => exact ⟨hpc, hisp, tableAddr_legal v, hcfg, hmem⟩
  | isp => exact ⟨hpc, tableAddr_legal v, hbase, hcfg, hmem⟩

/-- A write of memory that keeps its canonical form keeps the invariant. -/
theorem State.Inv.store (h : s.Inv) {mem : Memory} {stale : List Host.Cell} (hw : s.mem.wf = true → mem.wf = true) :
    { s with mem := mem, stale := stale }.Inv := by
  obtain ⟨hpc, hisp, hbase, hcfg, hmem⟩ := h
  exact ⟨hpc, hisp, hbase, hcfg, hw hmem⟩

/-- An exception entry keeps the invariant: ISP moves by 4 and the PC takes a code address (R220). -/
theorem State.Inv.of_enterException (h : s.Inv) {e : Exc} (he : enterException e s = .ok t) : t.Inv := by
  obtain ⟨hpc, hisp, hbase, hcfg, hmem⟩ := h
  obtain ⟨ht, ⟨target, htarget⟩, hw⟩ := enterException_ok he
  rw [ht, htarget]
  exact ⟨fromHalf_legal target, movedIsp_legal hisp (by decide), hbase, hcfg, hw hmem⟩

/-- The return from an exception keeps the invariant: ISP moves by 4 and the PC takes a code address (R178). -/
theorem State.Inv.of_returnFromException (h : s.Inv) (hr : returnFromException s = .ok t) : t.Inv := by
  obtain ⟨hpc, hisp, hbase, hcfg, hmem⟩ := h
  obtain ⟨ht, target, htarget⟩ := returnFromException_ok hr
  rw [ht, htarget]
  exact ⟨fromHalf_legal target, movedIsp_legal hisp (by decide), hbase, hcfg, hmem⟩

/-- A reset establishes the constant bits of PC, ISP and INTBASE and of CFG and keeps memory (R260). -/
theorem State.Inv.of_resetSequence (h : s.Inv) : (resetSequence s).Inv := by
  obtain ⟨-, -, -, -, hmem⟩ := h
  exact ⟨⟨BitVec.getLsbD_zero, BitVec.getLsbD_zero⟩, tableAddr_legal _, tableAddr_legal _, rfl, hmem⟩

/-- Every effect of an instruction keeps the invariant. -/
theorem State.Inv.effect (h : s.Inv) (he : Effect s i t) : t.Inv := by
  cases he with
  | advances => exact h.advance i.len_even
  | jumps target => exact h.jump target
  | links home target => exact (h.writeLow _ .word home).jump target
  | writes w v k => exact State.Inv.advance (h.writeLow _ w v) i.len_even
  | sums w x => exact State.Inv.advance (h.writeLow _ w x.value) i.len_even
  | compares s1 s2 => exact State.Inv.advance h i.len_even
  | @tests offset rs f k => exact State.Inv.advance h (Instr.tbit offset rs).len_even
  | enables e => exact State.Inv.advance h i.len_even
  | waits => exact State.Inv.advance h Instr.wait.len_even
  | @loadsProc rs dest => exact State.Inv.advance (h.loadProc dest _) (Instr.lpr rs dest).len_even
  | stores mem stale hi hw => exact (h.store hw).advance i.len_even
  | traps hi hint he => exact h.of_enterException he
  | returns hr => exact h.of_returnFromException hr

/-- The fetch of an instruction keeps the invariant. -/
theorem State.Inv.of_fetchInstr (h : s.Inv) {j : Option Instr} (hf : fetchInstr s = .ok (j, u)) : u.Inv := by
  obtain ⟨⟨k, rfl⟩, -⟩ := fetchInstr_ok hf
  exact h

/-- Settles O46: the invariant does not speak of the PSR, the waiting state and the coming boundaries, which is all that a
step changes before the reset, the exception entry or the instruction of the boundary, and each of those keeps it. -/
theorem stepKeepsInvariant : Obligations.StepKeepsInvariant := by
  intro s t h hstep
  have hb : { s.nextBoundary with waiting := false }.Inv := h
  have hp : { s.nextBoundary with waiting := false, psr := { s.psr with p := s.psr.t } }.Inv := h
  rcases cycle_cases hstep with ⟨-, rfl⟩ | ⟨-, e, -, -, he⟩ | ⟨-, -, ⟨-, -, rfl⟩ | ⟨-, ⟨-, he⟩ | ⟨-, i, u, hf, ran⟩⟩⟩
  · exact State.Inv.of_resetSequence h
  · exact hb.of_enterException he
  · exact h
  · exact hb.of_enterException he
  · have hu : u.Inv := hp.of_fetchInstr hf
    rcases ran with ⟨j, -, hj⟩ | ⟨-, he⟩
    · exact hu.effect (exec_effect hj)
    · exact hu.of_enterException he

/-! ## The general registers -/

/-- An exception entry writes no general register (R16, R220). -/
theorem enterException_reg {e : Exc} (h : enterException e s = .ok t) (r : Reg) : t.reg r = s.reg r := by
  rw [(enterException_ok h).1]
  rfl

/-- The return from an exception writes no general register (R16, R178). -/
theorem returnFromException_reg (h : returnFromException s = .ok t) (r : Reg) : t.reg r = s.reg r := by
  rw [(returnFromException_ok h).1]
  rfl

/-- An effect writes no general register but the destination or link register of its instruction (R11, R12). -/
theorem Effect.reg_other (h : Effect s i t) {r : Reg} (hr : i.destination ≠ some r) : t.reg r = s.reg r := by
  have other {rd : Reg} (hd : i.destination = some rd) : rd ≠ r := fun e => hr (e ▸ hd)
  cases h with
  | advances | jumps | compares | tests | enables | waits | stores => rfl
  | links home target hd => exact reg_setReg_other s (other hd) home
  | writes w v k hd => exact reg_writeLow_other s (other hd) w v
  | sums w x hi hd => exact reg_writeLow_other s (other hd) w x.value
  | loadsProc => simp
  | traps hi hint he => exact enterException_reg he r
  | returns hr => exact returnFromException_reg hr r

/-- Settles O52: a register an instruction changes is the one it names as its destination or link. -/
theorem registerWriters : Obligations.RegisterWriters :=
  fun _ _ _ _ h hr => (exec_effect h).reg_other hr

/-! ## The PSR -/

/-- What a trap leaves in the PSR: T and P cleared and the rest as it was, I too (R220, R222). -/
theorem enterException_psr {e : Exc} (he : e.isInterrupt = false) (h : enterException e s = .ok t) :
    t.psr = { s.psr with t := false, p := false } := by
  rw [(enterException_ok h).1]
  simp [Psr.entered, he]


/-- What an instruction can do to the PSR (R32). LPR to the PSR and RETX can write any named bit. -/
inductive PsrEffect (r : Psr) : Instr → Psr → Prop
  | keeps {i : Instr} : PsrEffect r i r
  /-- A sum or a difference writes C and F. -/
  | sums {i : Instr} (c f : Bool) (hi : isSum i) : PsrEffect r i { r with c := c, f := f }
  /-- A comparison writes Z, N and L. -/
  | compares {i : Instr} (z n l : Bool) (hi : ∃ src rd, i = .cmpb src rd ∨ i = .cmpw src rd) :
      PsrEffect r i { r with z := z, n := n, l := l }
  /-- TBIT writes F. -/
  | tests {offset : Src} {rs : Reg} (f : Bool) : PsrEffect r (.tbit offset rs) { r with f := f }
  /-- EI and DI write E. -/
  | enables {i : Instr} (e : Bool) (hi : i = .ei ∨ i = .di) : PsrEffect r i { r with e := e }
  /-- A trap clears T and P. -/
  | traps {i : Instr} (hi : isTrap i) : PsrEffect r i { r with t := false, p := false }
  | loadsPsr {rs : Reg} {q : Psr} : PsrEffect r (.lpr rs .psr) q
  | returns {q : Psr} : PsrEffect r .retx q

/-- Every effect of an instruction is on the PSR one that R32 lists. -/
theorem Effect.psr (h : Effect s i t) : PsrEffect s.psr i t.psr := by
  cases h with
  | advances | jumps | links | waits | stores => exact .keeps
  | writes w v k => simpa using PsrEffect.keeps
  | sums w x hi => exact .sums _ _ hi
  | compares s1 s2 hi => exact .compares _ _ _ hi
  | tests f k => exact .tests f
  | enables e hi => exact .enables e hi
  | @loadsProc rs dest =>
    cases dest with
    | psr => exact .loadsPsr
    | intbase | isp => exact .keeps
  | traps hi hint he => exact enterException_psr hint he ▸ .traps hi
  | returns => exact .returns

/-- EXCP and the undefined op codes clear T and P (R102, R220). -/
theorem exec_trap_psr (hi : isTrap i) (h : exec i s = .next t) : t.psr.t = false ∧ t.psr.p = false := by
  rcases hi with ⟨v, rfl⟩ | ⟨p, rfl⟩
  · simp [enterException_psr (trapOf_isInterrupt v) (finish_eq_next.1 h)]
  · simp [enterException_psr (e := .und) rfl (finish_eq_next.1 h)]

/-- Settles O48: each effect on the PSR changes the bits its own instructions write and no other. -/
theorem psrWriters : Obligations.PsrWriters := by
  intro i s t h hretx hlpr sum trap
  have htrap : trap → t.psr.t = false ∧ t.psr.p = false := fun hi => exec_trap_psr hi h
  have hp := (exec_effect h).psr
  generalize t.psr = q at hp htrap ⊢
  cases hp with
  | keeps | compares => exact ⟨fun _ => rfl, fun _ _ => rfl, fun _ _ => rfl, fun _ => ⟨rfl, rfl⟩, htrap, rfl⟩
  | sums c f hi =>
    exact ⟨fun hn => absurd hi hn, fun hn => absurd hi hn, fun _ _ => rfl, fun _ => ⟨rfl, rfl⟩, htrap, rfl⟩
  | @tests offset rs f =>
    exact ⟨fun _ => rfl, fun _ hn => absurd rfl (hn offset rs), fun _ _ => rfl, fun _ => ⟨rfl, rfl⟩, htrap, rfl⟩
  | enables e hi =>
    exact ⟨fun _ => rfl, fun _ _ => rfl, fun hei hdi => absurd hi (not_or.2 ⟨hei, hdi⟩), fun _ => ⟨rfl, rfl⟩, htrap, rfl⟩
  | traps hi => exact ⟨fun _ => rfl, fun _ _ => rfl, fun _ _ => rfl, fun hn => absurd hi hn, htrap, rfl⟩
  | @loadsPsr rs => exact absurd rfl (hlpr rs)
  | returns => exact absurd rfl hretx

/-! ## The condition codes and the state after reset -/

/-- Settles O12: each code is the code of its condition, and each condition is read off the flags. -/
theorem conditionTable : Obligations.ConditionTable := by
  intro s
  exact ⟨⟨condOf_code .eq, rfl⟩, ⟨condOf_code .ne, rfl⟩, ⟨condOf_code .cs, rfl⟩, ⟨condOf_code .cc, rfl⟩,
    ⟨condOf_code .hi, rfl⟩, ⟨condOf_code .ls, rfl⟩, ⟨condOf_code .gt, rfl⟩, ⟨condOf_code .le, rfl⟩,
    ⟨condOf_code .fs, rfl⟩, ⟨condOf_code .fc, rfl⟩, ⟨condOf_code .lo, rfl⟩, ⟨condOf_code .hs, rfl⟩,
    ⟨condOf_code .lt, rfl⟩, ⟨condOf_code .ge, rfl⟩, rfl, rfl⟩

/-- The state after reset meets the invariant (R39). -/
theorem reset_inv : State.reset.Inv := by decide

/-- Settles O45: the fields of `State.reset`, and the invariant by `reset_inv`. -/
theorem resetValuesAndInvariant : Obligations.ResetValuesAndInvariant :=
  ⟨rfl, rfl, rfl, rfl, rfl, reset_inv, rfl⟩

end Sys2Proof.Machine
end

section
/-! Where an access to memory and a fetch have a meaning and what they answer there, said once, and the statements about memory
that follow from it (spec/20_memory.md). -/

namespace Sys2Proof

/-! ## The length of a first word whose fixed fields are ignored (spec/30_encoding.md R100, R108) -/

/-- Ignoring the fixed fields of a word that has a second word leaves it one that has (R108, D8): of such words only the low
nibble of a medium branch or BAL is a fixed field, and `isLong` asks for the listed one. -/
theorem isLong_listedFirst {w : Word} (h : isLong w = true) : isLong (listedFirst w) = true := by
  rw [listedFirst]
  split
  · exact h
  · split
    · rename_i hm
      rw [isLong, topOf_pack, hm.1]
      simp only [opOf_pack, b0Of_pack, f1Of_pack, hm.2, if_true]
      rw [extract_append_lo _ _ 0 3 (by decide), extract_all]
      rfl
    · split
      · rename_i hs
        rw [isLong, hs.1] at h
        cases h
      · exact h

end Sys2Proof

namespace Sys2Proof.Machine

open Sys2Proof

variable {s t : State} {a : Addr} {m : MemOp} {r : Reg} {i : Instr}

/-- A first word that has a second word is decoded as one, whatever UNLISTED_ENCODING is (R108). -/
theorem isLong_firstWord {w : Word} (h : isLong w = true) : isLong (s.firstWord w) = true := by
  rw [State.firstWord]
  split
  · exact isLong_listedFirst h
  · exact h
  · exact h

/-! ## Where an access has a meaning (spec/20_memory.md R52, R55, R56, R60) -/

/-- The sum that makes an effective address has a meaning exactly where ADDR_WRAP gives it one (R60, D2). -/
theorem checkSum_ok {u : Unit} : checkSum s m = .ok u ↔ sumPermitted s m := by
  simp only [checkSum, sumPermitted]
  cases s.params.addrWrap <;> simp

/-- A sum with a meaning passes its check (R60, D2). -/
theorem checkSum_permitted (h : sumPermitted s m) : checkSum s m = .ok () := checkSum_ok.2 h

/-- A sum without a meaning is refused (R60, D2). -/
theorem checkSum_refused (h : ¬ sumPermitted s m) : checkSum s m = .error (.refusal .addressPastTop) := by
  cases hc : checkSum s m with
  | ok u => exact absurd (checkSum_ok.1 hc) h
  | error e =>
    rw [checkSum] at hc
    split at hc <;> cases hc
    rfl

/-- A byte access is not refused exactly where it is permitted (R52, D20). -/
theorem refuses_eq_false_iff : s.refuses a = false ↔ permitted s a.toNat 1 := by
  refine ⟨fun h => ?_, refuses_of_permitted⟩
  simp only [State.refuses, isReserved, Bool.and_eq_false_iff, decide_eq_false_iff_not] at h
  rcases h with h | h | h
  · exact .inr (.inr h)
  · exact .inl (by omega)
  · exact .inr (.inl (by omega))

/-- A word access is permitted where the access to each of its bytes is. -/
theorem permitted_of_bytes (h0 : permitted s a.toNat 1) (h1 : permitted s (a + 1).toNat 1) : permitted s a.toNat 2 := by
  by_cases ha : a = 0x3FFFF#18
  · subst ha
    exact .inr (.inl (by decide))
  · rw [succ_toNat ha] at h1
    rcases h0 with h0 | h0 | h0
    · rcases h1 with h1 | h1 | h1
      · exact .inl h1
      · omega
      · exact .inr (.inr h1)
    · exact .inr (.inl h0)
    · exact .inr (.inr h0)

/-- A permitted byte access passes its check (R52). -/
theorem checkByte_permitted (h : permitted s a.toNat 1) : checkByte s a = .ok () := checkByte_ok.2 (refuses_of_permitted h)

/-- A byte access that is not permitted is refused (R52, D20). -/
theorem checkByte_refused (h : ¬ permitted s a.toNat 1) : checkByte s a = .error (.refusal .reservedRegion) := by
  rcases checkByte_cases s a with ⟨hr, -⟩ | ⟨-, he⟩
  · exact absurd (refuses_eq_false_iff.1 hr) h
  · exact he

/-- A permitted word access passes its check (R52, R55). -/
theorem checkWord_permitted (hw : wordPermitted s a) (h : permitted s a.toNat 2) : checkWord s a = .ok () :=
  checkWord_ok.2 (allowsWord_of_permitted h hw)

/-- A word access without its second byte is a fault (R55, D3). -/
theorem checkWord_fault (h : ¬ wordPermitted s a) : checkWord s a = .error (.fault .wordAtTop) := by
  rw [wordPermitted_iff, not_not] at h
  rw [checkWord, if_pos h]

/-- A word access with both its bytes that is not permitted is refused (R52, D20). -/
theorem checkWord_refused (hw : wordPermitted s a) (h : ¬ permitted s a.toNat 2) :
    checkWord s a = .error (.refusal .reservedRegion) := by
  rcases checkWord_cases s a with ⟨⟨-, h0, h1⟩, -⟩ | ⟨ht, -⟩ | ⟨-, -, he⟩
  · exact absurd (permitted_of_bytes (refuses_eq_false_iff.1 h0) (refuses_eq_false_iff.1 h1)) h
  · exact absurd ht (wordPermitted_iff.1 hw)
  · exact he

/-- A code address is not the last of the address space, so the word there has both its bytes (R55, R57). -/
theorem wordPermitted_of_code (ha : a.toNat < 0x20000) : wordPermitted s a := by
  refine .inl fun e => ?_
  subst e
  exact absurd ha (by decide)

/-! ## Loads and stores (spec/48_load_store.md R190, R191) -/

/-- LOADB: the two checks, then the byte to the register (R190). -/
theorem exec_loadb_eq (m : MemOp) (r : Reg) (s : State) :
    exec (.loadb m r) s = finish (do
      checkSum s m
      checkByte s (s.effectiveAddr m)
      let v := s.readAt (s.effectiveAddr m)
      return (v.2.writeLow r .byte v.1).advance m.len) := by
  simp only [exec, execLoadb, loadByte, bind_assoc, pure_bind]

/-- LOADW: the two checks, then the word to the register (R190). -/
theorem exec_loadw_eq (m : MemOp) (r : Reg) (s : State) :
    exec (.loadw m r) s = finish (do
      checkSum s m
      checkWord s (s.effectiveAddr m)
      let lo := s.readAt (s.effectiveAddr m)
      let hi := lo.2.readAt (s.effectiveAddr m + 1)
      return (hi.2.writeLow r .word (hi.1 ++ lo.1)).advance m.len) := by
  simp only [exec, execLoadw, loadWord, bind_assoc, pure_bind]

/-- STORB: the two checks, then the low byte of the register to memory (R191). -/
theorem exec_storb_eq (r : Reg) (m : MemOp) (s : State) :
    exec (.storb r m) s = finish (do
      checkSum s m
      checkByte s (s.effectiveAddr m)
      return (s.writeAt (s.effectiveAddr m) (s.low r .byte)).advance m.len) := by
  simp only [exec, execStorb, storeByte, bind_assoc, pure_bind]

/-- STORW: the two checks, then the two bytes of the register to memory (R191). -/
theorem exec_storw_eq (r : Reg) (m : MemOp) (s : State) :
    exec (.storw r m) s = finish (do
      checkSum s m
      checkWord s (s.effectiveAddr m)
      return ((s.writeAt (s.effectiveAddr m) ((s.reg r).extractLsb' 0 8)).writeAt (s.effectiveAddr m + 1)
        ((s.reg r).extractLsb' 8 8)).advance m.len) := by
  simp only [exec, execStorw, storeWord, bind_assoc, pure_bind]

/-- A load or a store of a byte is its two checks and an answer. -/
theorem exec_byteAccess (s : State) (h : i = .loadb m r ∨ i = .storb r m) :
    ∃ t, exec i s = finish (do checkSum s m; checkByte s (s.effectiveAddr m); return t) := by
  rcases h with rfl | rfl
  · exact ⟨_, exec_loadb_eq m r s⟩
  · exact ⟨_, exec_storb_eq r m s⟩

/-- A load or a store of a word is its two checks and an answer. -/
theorem exec_wordAccess (s : State) (h : i = .loadw m r ∨ i = .storw r m) :
    ∃ t, exec i s = finish (do checkSum s m; checkWord s (s.effectiveAddr m); return t) := by
  rcases h with rfl | rfl
  · exact ⟨_, exec_loadw_eq m r s⟩
  · exact ⟨_, exec_storw_eq r m s⟩

/-- Settles O28: a load or a store is the check of the sum, the check of the access and an answer, and each check stops exactly
where its parameter says. -/
theorem loadStoreStops : Obligations.LoadStoreStops := by
  intro s m r
  refine ⟨fun i hi => ?_, fun i hi => ?_⟩
  · obtain ⟨t, ht⟩ := exec_byteAccess s hi
    rw [ht]
    refine ⟨fun hs => ?_, fun hs hp => ?_, fun hs hp => ⟨t, ?_⟩⟩
    · rw [checkSum_refused hs]; rfl
    · rw [checkSum_permitted hs, checkByte_refused hp]; rfl
    · rw [checkSum_permitted hs, checkByte_permitted hp]; rfl
  · obtain ⟨t, ht⟩ := exec_wordAccess s hi
    rw [ht]
    refine ⟨fun hs => ?_, fun hs hw => ?_, fun hs hw hp => ?_, fun hs hw hp => ⟨t, ?_⟩⟩
    · rw [checkSum_refused hs]; rfl
    · rw [checkSum_permitted hs, checkWord_fault hw]; rfl
    · rw [checkSum_permitted hs, checkWord_refused hw hp]; rfl
    · rw [checkSum_permitted hs, checkWord_permitted hw hp]; rfl

/-- The effective address depends on the general registers alone (R192 to R195). -/
theorem effectiveSum_congr (h : t.regs = s.regs) (m : MemOp) : t.effectiveSum m = s.effectiveSum m := by
  cases m <;> simp only [State.effectiveSum, State.reg, h]

/-- The word of an accessible operand has both its bytes. -/
theorem wordPermitted_of_accessible (h : accessible s m 2) : wordPermitted s (s.effectiveAddr m) := by
  obtain ⟨-, -, htop⟩ := h
  refine .inl fun e => ?_
  rw [e] at htop
  exact absurd htop (by decide)

/-- STORW to an operand in memory: the register is the word there, and nothing else changes but the noted earlier values and
the PC (R191). -/
theorem exec_storw_accessible (h : accessible s m 2) (r : Reg) :
    ∃ stale, exec (.storw r m) s =
      .next ({ s with mem := s.mem.writeWord (s.effectiveAddr m) (s.reg r), stale := stale }.advance m.len) := by
  have hw := wordPermitted_of_accessible h
  obtain ⟨hsum, hmem, -⟩ := h
  obtain ⟨u, hu, e⟩ := storeWord_inMemory ((s.reg r).extractLsb' 0 8) ((s.reg r).extractLsb' 8 8) hmem hw
  rw [word_of_halves] at e
  have hf := (storeWord_frame hu).1
  rw [e] at hf
  refine ⟨u.stale, ?_⟩
  simp only [exec, execStorw, checkSum_permitted hsum, hu, ← hf]
  rfl

/-- LOADW of an operand in memory: the word there is in the register, and nothing else changes but the PC (R190). -/
theorem exec_loadw_accessible (h : accessible s m 2) (r : Reg) :
    exec (.loadw m r) s =
      .next ((s.setReg r (s.mem.readWord (s.effectiveAddr m))).advance m.len) := by
  have hw := wordPermitted_of_accessible h
  obtain ⟨hsum, hmem, -⟩ := h
  simp only [exec, execLoadw, checkSum_permitted hsum, loadWord_inMemory hmem hw]
  rfl

/-- Settles O29: the store leaves the registers and the parameters as they are, so the load accesses the same address, where
memory now holds the stored word. -/
theorem storeThenLoadReturnsWord : Obligations.StoreThenLoadReturnsWord := by
  intro s m rs rd hwf hacc
  obtain ⟨stale, ht⟩ := exec_storw_accessible hacc rs
  generalize hT : ({ s with mem := s.mem.writeWord (s.effectiveAddr m) (s.reg rs), stale := stale }.advance m.len) = t at ht
  have hsum : t.effectiveSum m = s.effectiveSum m := effectiveSum_congr (by rw [← hT]; rfl) m
  have haddr : t.effectiveAddr m = s.effectiveAddr m := by rw [State.effectiveAddr, hsum, State.effectiveAddr]
  have hparams : t.params = s.params := by rw [← hT]; rfl
  have hacc' : accessible t m 2 := by
    rw [accessible, sumPermitted, inMemory, hsum, haddr, hparams]
    exact hacc
  refine ⟨t, _, ht, exec_loadw_accessible hacc' rd, ?_⟩
  rw [reg_advance, reg_setReg_same, haddr, ← hT]
  exact Memory.readWord_writeWord _ _ hwf

/-! ## Which instructions write memory (spec/20_memory.md R60, R61, R64) -/

/-- Settles O49: of the effects an instruction can have only a store and a trap write memory. -/
theorem onlyStoresAndTrapsWriteMemory : Obligations.OnlyStoresAndTrapsWriteMemory := by
  intro i s t h hstore hexcp hund
  cases exec_effect h with
  | advances | jumps | links | compares | tests | enables | waits => rfl
  | writes w v k => simp
  | sums w x => exact writeLow_mem s _ w x.value
  | loadsProc => simp
  | stores mem stale hi =>
    obtain ⟨r, m, rfl | rfl⟩ := hi
    · exact absurd rfl (hstore r m).1
    · exact absurd rfl (hstore r m).2
  | traps hi =>
    rcases hi with ⟨v, rfl⟩ | ⟨p, rfl⟩
    · exact absurd rfl (hexcp v)
    · exact absurd rfl (hund p)
  | returns hr => rw [(returnFromException_ok hr).1]

/-! ## Which instructions read memory (spec/20_memory.md R60, R61) -/

/-- The answer `o` is a next state that differs from `t` in memory and in the noted earlier values only. -/
def AnswersAlike (t : State) (o : Result) : Prop := ∃ mem stale, o = .next { t with mem := mem, stale := stale }

/-- An operation that answers the same state but for memory answers alike. -/
theorem AnswersAlike.of_next {u v : State} {mem : Memory} (h : Host.Outcome.next (φ := Fault) (ρ := Refusal) u = .next t)
    (hv : v = { u with mem := mem }) : AnswersAlike t (.next v) := by
  obtain rfl := Host.Outcome.next.inj h
  exact ⟨mem, u.stale, by rw [hv]⟩

/-- Bcond reads no memory (R170). -/
theorem branchOp_setMem (c : Cond) (d : Disp) (s : State) (mem : Memory) :
    branchOp c d { s with mem := mem } = { branchOp c d s with mem := mem } := by
  simp only [branchOp]
  split <;> rfl

/-- Jcond reads no memory (R175). -/
theorem jumpOp_setMem (c : Cond) (target : Reg) (s : State) (mem : Memory) :
    jumpOp c target { s with mem := mem } = { jumpOp c target s with mem := mem } := by
  simp only [jumpOp]
  split <;> rfl

/-- A source operand reads no memory (R113). -/
theorem srcVal_setMem (s : State) (w : Width) (src : Src) (mem : Memory) :
    ({ s with mem := mem } : State).srcVal w src = s.srcVal w src := by
  cases src <;> rfl

/-- ASHUi and LSHi read no memory (R155, R156). -/
theorem shiftOp_setMem (w : Width) (right : BitVec w.bits → Nat → BitVec w.bits) (count : Src) (rd : Reg) (s : State)
    (mem : Memory) :
    shiftOp w right count rd { s with mem := mem } = { shiftOp w right count rd s with mem := mem } := by
  simp only [shiftOp, srcVal_setMem]
  cases w <;> split <;> rfl

/-- TBIT reads no memory (R160). -/
theorem execTbit_alike {offset : Src} {rs : Reg} (mem : Memory) (h : execTbit offset rs s = .next t) :
    AnswersAlike t (execTbit offset rs { s with mem := mem }) := by
  simp only [execTbit, srcVal_setMem] at h ⊢
  split at h <;> rename_i hoff
  · rw [if_pos hoff]
    exact .of_next h rfl
  · rw [if_neg hoff]
    exact .of_next h rfl

/-- A store of a byte writes no field but memory and the noted earlier values, whatever memory holds (R56). -/
theorem writeAt_setMem (s : State) (a : Addr) (v : Byte) (mem : Memory) (stale : List Host.Cell) :
    ∃ mem' stale', ({ s with mem := mem, stale := stale } : State).writeAt a v =
      { s.writeAt a v with mem := mem', stale := stale' } :=
  ⟨_, _, by rw [writeAt_frame { s with mem := mem, stale := stale } a v, writeAt_frame s a v]⟩

/-- The check of the sum does not depend on what memory holds (R60). -/
theorem checkSum_setMem (s : State) (m : MemOp) (mem : Memory) : checkSum { s with mem := mem } m = checkSum s m := by
  cases m <;> rfl

/-- The effective address does not depend on what memory holds (R192 to R195). -/
theorem effectiveAddr_setMem (s : State) (m : MemOp) (mem : Memory) :
    ({ s with mem := mem } : State).effectiveAddr m = s.effectiveAddr m := by
  cases m <;> rfl

/-- The same checks before two states that differ in memory and in the noted earlier values only answer alike. -/
theorem AnswersAlike.of_checks {c d : Except Stop Unit} {u v : State} (h : finish (do c; d; return u) = .next t)
    (hv : ∃ mem stale, v = { u with mem := mem, stale := stale }) : AnswersAlike t (finish (do c; d; return v)) := by
  obtain ⟨_, hc, h⟩ := bind_eq_ok.1 (finish_eq_next.1 h)
  obtain ⟨hd, rfl⟩ := bind_ok.1 h
  obtain ⟨mem, stale, rfl⟩ := hv
  exact ⟨mem, stale, by rw [hc, hd]; rfl⟩

/-- STORB reads no memory (R191). -/
theorem exec_storb_alike (mem : Memory) (h : exec (.storb r m) s = .next t) :
    AnswersAlike t (exec (.storb r m) { s with mem := mem }) := by
  rw [exec_storb_eq] at h ⊢
  rw [checkSum_setMem, effectiveAddr_setMem]
  obtain ⟨mem', stale', he⟩ := writeAt_setMem s (s.effectiveAddr m) (s.low r .byte) mem s.stale
  exact .of_checks h ⟨mem', stale', congrArg (State.advance · m.len) he⟩

/-- STORW reads no memory (R191). -/
theorem exec_storw_alike (mem : Memory) (h : exec (.storw r m) s = .next t) :
    AnswersAlike t (exec (.storw r m) { s with mem := mem }) := by
  rw [exec_storw_eq] at h ⊢
  rw [checkSum_setMem, effectiveAddr_setMem]
  obtain ⟨mem0, stale0, he0⟩ := writeAt_setMem s (s.effectiveAddr m) ((s.reg r).extractLsb' 0 8) mem s.stale
  obtain ⟨mem1, stale1, he1⟩ := writeAt_setMem (s.writeAt (s.effectiveAddr m) ((s.reg r).extractLsb' 0 8))
    (s.effectiveAddr m + 1) ((s.reg r).extractLsb' 8 8) mem0 stale0
  refine .of_checks h ⟨mem1, stale1, congrArg (State.advance · m.len) (Eq.trans ?_ he1)⟩
  exact congrArg (State.writeAt · (s.effectiveAddr m + 1) _) he0

/-- An instruction other than LOADi, RETX and the traps answers alike whatever memory holds: only loads read it, and a store
writes nothing else. -/
theorem exec_alike (mem : Memory) (h : exec i s = .next t) (hload : ∀ o r, i ≠ .loadb o r ∧ i ≠ .loadw o r)
    (hretx : i ≠ .retx) (htrap : ¬ isTrap i) : AnswersAlike t (exec i { s with mem := mem }) := by
  cases i with
  | nop | di | ei | wait => exact .of_next h rfl
  | addb src rd | addw src rd | addub src rd | adduw src rd | mulb src rd | mulw src rd | xorb src rd | xorw src rd
  | cmpb src rd | cmpw src rd | andb src rd | andw src rd | addcb src rd | addcw src rd | movb src rd | movw src rd
  | subcb src rd | subcw src rd | orb src rd | orw src rd | subb src rd | subw src rd => exact .of_next h rfl
  | movxb rs rd | movzb rs rd => exact .of_next h rfl
  | seq rd | sne rd | scs rd | scc rd | shi rd | sls rd | sgt rd | sle rd | sfs rd | sfc rd | slo rd | shs rd | slt rd
  | sge rd => exact .of_next h rfl
  | ashub count rd | lshb count rd => exact .of_next h (shiftOp_setMem .byte _ count rd s mem)
  | ashuw count rd | lshw count rd => exact .of_next h (shiftOp_setMem .word _ count rd s mem)
  | tbit offset rs => exact execTbit_alike mem h
  | lpr rs dest => cases dest <;> exact .of_next h rfl
  | spr src rd => cases src <;> exact .of_next h rfl
  | beq d | bne d | bcs d | bcc d | bhi d | bls d | bgt d | ble d | bfs d | bfc d | blo d | bhs d | blt d | bge d =>
    exact .of_next h (branchOp_setMem _ d s mem)
  | jeq r | jne r | jcs r | jcc r | jhi r | jls r | jgt r | jle r | jfs r | jfc r | jlo r | jhs r | jlt r | jge r =>
    exact .of_next h (jumpOp_setMem _ r s mem)
  | br _ | bal _ _ | jump _ | jal _ _ => exact .of_next h rfl
  | storb rs m => exact exec_storb_alike mem h
  | storw rs m => exact exec_storw_alike mem h
  | loadb m rd => exact absurd rfl (hload m rd).1
  | loadw m rd => exact absurd rfl (hload m rd).2
  | retx => exact absurd rfl hretx
  | excp v => exact absurd (.inl ⟨v, rfl⟩) htrap
  | und p => exact absurd (.inr ⟨p, rfl⟩) htrap

/-- Settles O50: answers alike agree in every register and in the operating state. -/
theorem onlyLoadsReadMemory : Obligations.OnlyLoadsReadMemory := by
  intro i s t mem h hload hretx hexcp hund
  have htrap : ¬ isTrap i := by
    rintro (⟨v, hv⟩ | ⟨p, hp⟩)
    · exact hexcp v hv
    · exact hund p hp
  obtain ⟨mem', stale', hu⟩ := exec_alike mem h hload hretx htrap
  exact ⟨_, hu, rfl, rfl, rfl, rfl, rfl, rfl, rfl⟩

/-! ## What a fetch sees (spec/20_memory.md R57, R66, R67) -/

/-- The earlier values of a byte are those noted for its address (R66). -/
theorem mem_earlier {x : Nat} {v : Byte} : v ∈ s.earlier x ↔ (x, v) ∈ s.stale := by
  simp [State.earlier]

/-- Where STALE_FETCH is oldOrNew a fetch of a byte always answers (R66). -/
theorem fetchByte_answers (h : s.params.staleFetch = .oldOrNew) (a : Addr) : ∃ p, fetchByte s a = .ok p := by
  simp only [fetchByte, h]
  split <;> exact ⟨_, rfl⟩

/-- Where STALE_FETCH is oldOrNew a fetch of a byte in memory answers the present value or an earlier one and changes nothing
but the number of values drawn (R66). -/
theorem fetchByte_oldOrNew (hs : s.params.staleFetch = .oldOrNew) (hd : s.onDevice a = false) :
    ∃ v k, fetchByte s a = .ok (v, s.drawn k) ∧ (v = s.mem.read a.toNat ∨ (a.toNat, v) ∈ s.stale) := by
  obtain ⟨⟨v, u⟩, h⟩ := fetchByte_answers hs a
  obtain ⟨k, rfl⟩ := fetchByte_state h
  exact ⟨v, k, h, (fetchByte_value hd h).imp_right mem_earlier.1⟩

/-- Where STALE_FETCH is refuse a fetch of a byte with an earlier value noted is refused (R66, D25). -/
theorem fetchByte_stale (hs : s.params.staleFetch = .refuse) (he : s.earlier a.toNat ≠ []) :
    fetchByte s a = .error (.refusal .staleFetch) := by
  rw [fetchByte]
  split
  · exact absurd ‹_› he
  · rw [hs]

/-- A fetch of an instruction word past the top of the code space is refused (R57, D4). -/
theorem fetch16_past_top (ha : 0x20000 ≤ a.toNat) : fetch16 s a = .error (.refusal .fetchPastTop) := by
  rw [fetch16, if_pos ha]

/-- A fetch of an instruction word that is not permitted is refused (R52, D20). -/
theorem fetch16_reserved (ha : a.toNat < 0x20000) (h : ¬ permitted s a.toNat 2) :
    fetch16 s a = .error (.refusal .reservedRegion) := by
  rw [fetch16, if_neg (Nat.not_le.2 ha), checkWord_refused (wordPermitted_of_code ha) h]
  rfl

/-- A fetch of an instruction word in the code space and in memory is a fetch of its two bytes, the low one first (R57, D1). -/
theorem fetch16_bytes (ha : a.toNat < 0x20000) (h : inMemory s a.toNat 2) :
    fetch16 s a = (do
      let lo ← fetchByte s a
      let hi ← fetchByte lo.2 (a + 1)
      return (wordOfBytes lo.1 hi.1, hi.2)) := by
  have hw : checkWord s a = .ok () := checkWord_ok.2 (allowsWord_of_inMemory h (wordPermitted_of_code ha))
  rw [fetch16, if_neg (Nat.not_le.2 ha), hw]
  rfl

/-- The second byte of a code word is at the next address (R57). -/
theorem succ_toNat_of_code (ha : a.toNat < 0x20000) : (a + 1).toNat = a.toNat + 1 :=
  succ_toNat fun e => absurd ha (by rw [e]; decide)

/-- A fetch of an instruction word in memory with every store to it serialized answers the word and changes nothing (R57,
R67). -/
theorem fetch16_wordAt (ha : a.toNat < 0x20000) (h : inMemory s a.toNat 2) (e0 : s.earlier a.toNat = [])
    (e1 : s.earlier (a.toNat + 1) = []) : fetch16 s a = .ok (wordAt s.mem a.toNat, s) := by
  obtain ⟨h0, h1⟩ := inMemory_bytes h
  have hw := allowsWord_of_inMemory h (wordPermitted_of_code ha)
  rw [← succ_toNat_of_code ha] at e1
  rw [fetch16_serialized ha hw (onDevice_of_inMemory h0) (onDevice_of_inMemory h1) e0 e1, succ_toNat_of_code ha]
  rfl

/-- Where STALE_FETCH is oldOrNew each byte of a word fetched from memory is the present one or an earlier one (R66). -/
theorem fetch16_oldOrNew (hs : s.params.staleFetch = .oldOrNew) (ha : a.toNat < 0x20000) (h : inMemory s a.toNat 2) :
    ∃ lo hi k, fetch16 s a = .ok (hi ++ lo, s.drawn k) ∧ (lo = s.mem.read a.toNat ∨ (a.toNat, lo) ∈ s.stale) ∧
      (hi = s.mem.read (a.toNat + 1) ∨ (a.toNat + 1, hi) ∈ s.stale) := by
  obtain ⟨h0, h1⟩ := inMemory_bytes h
  obtain ⟨lo, k, hlo, vlo⟩ := fetchByte_oldOrNew hs (onDevice_of_inMemory h0)
  obtain ⟨hi, l, hhi, vhi⟩ := fetchByte_oldOrNew (s := s.drawn k) hs (onDevice_of_inMemory h1)
  rw [succ_toNat_of_code ha] at vhi
  refine ⟨lo, hi, k + l, ?_, vlo, vhi⟩
  simp only [fetch16_bytes ha h, hlo, bind, Except.bind, hhi, drawn_drawn]
  rfl

/-- Where STALE_FETCH is refuse a fetch of a word in memory with an earlier value noted for a byte is refused (R66, D25). -/
theorem fetch16_stale (hs : s.params.staleFetch = .refuse) (ha : a.toNat < 0x20000) (h : inMemory s a.toNat 2)
    (he : s.earlier a.toNat ≠ [] ∨ s.earlier (a.toNat + 1) ≠ []) : fetch16 s a = .error (.refusal .staleFetch) := by
  rw [fetch16_bytes ha h]
  by_cases e0 : s.earlier a.toNat = []
  · have e1 : s.earlier (a + 1).toNat ≠ [] := by
      rw [succ_toNat_of_code ha]
      exact he.resolve_left (absurd e0)
    simp only [fetchByte_serialized e0, readAt_memory (onDevice_of_inMemory (inMemory_bytes h).1), bind, Except.bind,
      fetchByte_stale hs e1]
  · rw [fetchByte_stale hs e0]
    rfl

/-- Settles O54: a fetch of a word in memory is a fetch of its two bytes. -/
theorem fetchSeesOldOrNewByte : Obligations.FetchSeesOldOrNewByte := by
  intro s a htop h
  have ha : a.toNat < 0x20000 := by omega
  exact ⟨fun hs => fetch16_oldOrNew hs ha h, fetch16_wordAt ha h, fun hs => fetch16_stale hs ha h⟩

/-! ## The fetch of a step (spec/20_memory.md R57, spec/60_exceptions.md R218) -/

/-- The fetch of an instruction stops where the fetch of its first word does. -/
theorem fetchInstr_first_stops {e : Stop} (h : fetch16 s s.pc = .error e) : fetchInstr s = .error e := by
  rw [fetchInstr, h]
  rfl

/-- The fetch of an instruction of two words stops where the fetch of the second word does. -/
theorem fetchInstr_second_stops {e : Stop} {w : Word} (h1 : fetch16 s s.pc = .ok (w, s)) (hl : isLong w = true)
    (h2 : fetch16 s s.secondAddr = .error e) : fetchInstr s = .error e := by
  have hs : fetchSecond (s.firstWord w) s = .error e := by rw [fetchSecond, if_pos (isLong_firstWord hl), h2]
  simp only [fetchInstr, h1, bind, Except.bind, hs]

/-- A step that begins an instruction stops where the fetch of the instruction does (R218). -/
theorem step_fetch_stops {e : Stop} (hr : s.runsInstr) (h : fetchInstr s.started = .error e) :
    step s = finish (.error e) := by
  have h' : fetchInstr { s.nextBoundary with psr := { s.nextBoundary.psr with p := s.nextBoundary.psr.t } } = .error e := h
  rw [step_of_runsInstr hr, runInstr, h']

/-- A legal PC is an even address in the code space (R14). -/
theorem pcLegal_toNat (h : s.pcLegal) : s.pc.toNat < 0x20000 ∧ s.pc.toNat % 2 = 0 := by
  have hlt := (toHalf s.pc).isLt
  rw [← fromHalf_toHalf h, fromHalf_toNat]
  omega

/-- The first word at a legal PC, where a fetch sees memory as it is (R57, R67). -/
theorem fetch16_pc (hpc : s.pcLegal) (h : fetchesMemory s 2) : fetch16 s s.pc = .ok (wordAt s.mem s.pc.toNat, s) := by
  obtain ⟨hlt, heven⟩ := pcLegal_toNat hpc
  have c0 : codeByte s 0 = s.pc.toNat := by rw [codeByte]; omega
  have c1 : codeByte s 1 = s.pc.toNat + 1 := by rw [codeByte]; omega
  obtain ⟨m0, e0⟩ := h 0 (by decide)
  obtain ⟨m1, e1⟩ := h 1 (by decide)
  rw [c0] at m0 e0
  rw [c1] at m1 e1
  refine fetch16_wordAt hlt ?_ e0 e1
  rcases m1 with m1 | m1 | m1
  · exact .inl m1
  · exact .inr (.inl (by omega))
  · exact .inr (.inr m1)

/-- Below the top of the code space the second word is the next one, whatever PC_WRAP is (R57). -/
theorem secondAddr_toNat (h : s.pc.toNat + 2 < 0x20000) : s.secondAddr.toNat = s.pc.toNat + 2 := by
  rw [State.secondAddr]
  split
  · rw [BitVec.toNat_add]
    simp
    omega
  · rw [State.nextPc, BitVec.toNat_ofNat]
    omega

/-- Settles O55: the fetch of the first or of the second word stops, so the fetch of the instruction does, and so the step. -/
theorem stepFetchStops : Obligations.StepFetchStops := by
  intro s hrun hpc
  obtain ⟨hlt, heven⟩ := pcLegal_toNat hpc
  have first {e : Stop} (h : fetch16 s.started s.started.pc = .error e) : step s = finish (.error e) :=
    step_fetch_stops hrun (fetchInstr_first_stops h)
  refine ⟨fun hres hlo hhi => ?_, fun hmem hlong => ?_, fun hs hmem he => ?_⟩
  · refine first (fetch16_reserved hlt ?_)
    rintro (h | h | h)
    · have : s.pc.toNat + 2 ≤ 0xFC00 := h
      omega
    · have : 0x10000 ≤ s.pc.toNat := h
      omega
    · exact h hres
  · have second {e : Stop} (h : fetch16 s.started s.started.secondAddr = .error e) : step s = finish (.error e) :=
      step_fetch_stops hrun (fetchInstr_second_stops (fetch16_pc (s := s.started) hpc hmem) hlong h)
    refine ⟨fun hwrap htop => second (fetch16_past_top ?_), fun hres htop => ?_⟩
    · have hpc' : s.pc = 0x1FFFE#18 := BitVec.eq_of_toNat_eq htop
      have : s.started.secondAddr = 0x1FFFE#18 + 2 := by
        rw [← hpc']
        simp only [State.secondAddr, State.started, hwrap]
      rw [this]
      decide
    · have h2 : s.started.secondAddr.toNat = 0xFC00 := by
        rw [secondAddr_toNat (s := s.started) (by change s.pc.toNat + 2 < _; omega)]
        change s.pc.toNat + 2 = _
        omega
      refine second (fetch16_reserved (by omega) ?_)
      rw [h2]
      rintro (h | h | h)
      · omega
      · omega
      · exact h hres
  · exact first (fetch16_stale hs hlt hmem he)

end Sys2Proof.Machine
end

section
/-! The decoder and the encoder say the same (spec/30_encoding.md): the table of formats as a relation between words and
instructions (`Listed`), which the decoder accepts exactly and the encoder writes out. -/

namespace Sys2Proof

variable {top : BitVec 2} {i : BitVec 1} {op f2 f1 : BitVec 4} {b0 : BitVec 1} {w v : Word} {ins : Instr} {src : Src}
  {rd : Reg} {cond : BitVec 4}

/-! ## The words of an instruction (R81, R100) -/

/-- The words the decoder looks at where the first word is `w` and `v` follows it (R100). -/
def instrWords (w v : Word) : List Word := if isLong w then [w, v] else [w]

/-- A first word without a second one is the whole instruction. -/
theorem instrWords_short (h : isLong w = false) (v : Word) : instrWords w v = [w] := by simp [instrWords, h]

/-- A first word with a second one is followed by it. -/
theorem instrWords_long (h : isLong w = true) (v : Word) : instrWords w v = [w, v] := by simp [instrWords, h]

/-- Two words are the same exactly where their six fields are (R82). -/
theorem pack_eq_iff : pack top i op f2 f1 b0 = w ↔
    top = topOf w ∧ i = iOf w ∧ op = opOf w ∧ f2 = f2Of w ∧ f1 = f1Of w ∧ b0 = b0Of w := by
  constructor
  · rintro rfl
    simp
  · rintro ⟨rfl, rfl, rfl, rfl, rfl, rfl⟩
    exact pack_fields w

/-- The fields of NOP's own row of the opcode table, which as ADDUB would be `$0, R0` (R107). -/
theorem pack_eq_nop : pack top i op f2 f1 b0 = 0x0200#16 ↔
    top = 0 ∧ i = 0 ∧ op = 1 ∧ f2 = 0 ∧ f1 = 0 ∧ b0 = 0 := pack_eq_iff

/-- A word but NOP's is decoded by its fields (R82, R107). -/
theorem decodeWords_pack (h : pack top i op f2 f1 b0 ≠ 0x0200#16) :
    decodeWords (pack top i op f2 f1 b0) v = decodeFields top i op f2 f1 b0 v := by
  simp [decodeWords, h]

/-- One bit is 0 or 1. -/
theorem bit_cases (b : BitVec 1) : b = 0#1 ∨ b = 1#1 := by
  revert b
  decide

/-- The four values of bits 15 and 14 (R100). -/
theorem bit_pair_cases (b : BitVec 2) : b = 0b00#2 ∨ b = 0b01#2 ∨ b = 0b10#2 ∨ b = 0b11#2 := by
  revert b
  decide

/-! ## The length of a first word, by its fields (R100) -/

/-- The words 00 that have a second word: the medium immediates, the medium branches and BAL (R100). -/
theorem isLong_pack00 : isLong (pack 0b00#2 i op f2 f1 b0) =
    if op = 0b1010#4 then decide (b0 = 0#1 ∧ f1.extractLsb' 0 3 = 0b111#3)
    else if op = 0b0010#4 ∨ (op = 0b1011#4 ∧ i = 0#1) then false
    else decide (f1 ++ b0 = 0b10001#5) := by
  simp only [isLong, topOf_pack, iOf_pack, opOf_pack, f1Of_pack, b0Of_pack]

/-- The words 01 have no second word (R100). -/
theorem isLong_pack01 : isLong (pack 0b01#2 i op f2 f1 b0) = false := by
  simp only [isLong, topOf_pack]

/-- The loads and stores that have a second word: those in a long format (R90 to R92, R100). -/
theorem isLong_pack_mem (h : top = 0b10#2 ∨ top = 0b11#2) :
    isLong (pack top i op f2 f1 b0) = decide (b0 = 1#1 ∧ op.extractLsb' 3 1 = 1#1) := by
  rw [isLong, topOf_pack, opOf_pack, b0Of_pack]
  rcases h with rfl | rfl <;> rfl

/-! ## The basic instructions (R83 to R86) -/

/-- The operation codes of the basic instructions are none of those Table A-2 and the branches take (R100, R103). -/
theorem basicInstr_op (h : basicInstr i op src rd = some ins) :
    op ≠ 0b1010#4 ∧ op ≠ 0b0010#4 ∧ ¬ (op = 0b1011#4 ∧ i = 0#1) := by
  refine ⟨?_, ?_, ?_⟩
  · rintro rfl
    rcases bit_cases i with rfl | rfl <;> cases h
  · rintro rfl
    rcases bit_cases i with rfl | rfl <;> cases h
  · rintro ⟨rfl, rfl⟩
    cases h

/-- A basic instruction is encoded with its operation code and its operands (R84 to R86). -/
theorem encodeWords_of_basicInstr (h : basicInstr i op src rd = some ins) : encodeWords ins = encodeBasic i op src rd := by
  simp only [basicInstr] at h
  split at h <;> cases h <;> rfl

/-- The words of a basic instruction are NOP's exactly for ADDUB of the short immediate 0 to R0 (R107). -/
theorem encodeBasic_eq_nop :
    encodeBasic i op src rd = [0x0200#16] ↔ i = 0 ∧ op = 1 ∧ src = .short 0 ∧ rd = 0 := by
  cases src with
  | reg rs => simp [encodeBasic, pack_eq_nop]
  | medium imm => simp [encodeBasic]
  | short imm =>
    have h0 : imm.extractLsb' 1 4 = 0 ∧ imm.extractLsb' 0 1 = 0 ↔ imm = 0 := by
      revert imm
      decide
    simp only [encodeBasic, List.cons.injEq, and_true, pack_eq_nop, h0, Src.short.injEq]
    tauto

/-- A basic instruction is well formed exactly where its operand is and its words are not NOP's (R85, R107). -/
theorem basicInstr_wf (h : basicInstr i op src rd = some ins) :
    ins.wf = true ↔ src.wf = true ∧ encodeBasic i op src rd ≠ [0x0200#16] := by
  rw [ne_eq, encodeBasic_eq_nop]
  simp only [basicInstr] at h
  split at h <;> cases h <;> simp [Instr.wf, imp_iff_not_or]

/-! ## The conditional instructions and the special format (R87, R95, R96, R98, R106) -/

/-- A Bcond or a BR is encoded with its condition field and its displacement, and is well formed where that is even. -/
theorem branchInstr_ok {d : Disp} (h : branchInstr cond d = .ok ins) :
    encodeWords ins = encodeBranch cond d ∧ ins.wf = d.wf := by
  rw [branchInstr] at h
  split at h
  · subst cond
    cases h
    exact ⟨rfl, rfl⟩
  · split at h
    · rename_i c hc
      rw [← code_of_condOf hc]
      cases h
      cases c <;> exact ⟨rfl, rfl⟩
    · cases h

/-- A Jcond or a JUMP is encoded with its condition field and its target, and is well formed. -/
theorem jumpInstr_ok {target : Reg} (h : jumpInstr cond target = .ok ins) :
    encodeWords ins = encodeJump cond target ∧ ins.wf = true := by
  rw [jumpInstr] at h
  split at h
  · subst cond
    cases h
    exact ⟨rfl, rfl⟩
  · split at h
    · rename_i c hc
      rw [← code_of_condOf hc]
      cases h
      cases c <;> exact ⟨rfl, rfl⟩
    · cases h

/-- An instruction of the special format is encoded with its three fields, and is well formed. -/
theorem decodeSpecial_ok (h : decodeSpecial op f2 f1 = .ok ins) :
    encodeWords ins = encodeSpecial op f2 f1 ∧ ins.wf = true := by
  simp only [decodeSpecial] at h
  split at h
  case h_4 =>
    split at h <;> cases h
    rename_i c hc
    rw [← code_of_condOf hc]
    cases c <;> exact ⟨rfl, rfl⟩
  case h_5 | h_6 =>
    split at h <;> cases h
    rename_i p hp
    rw [← code_of_procRegOf hp]
    exact ⟨rfl, rfl⟩
  case h_9 | h_12 =>
    split at h <;> cases h
    obtain ⟨rfl, rfl⟩ := ‹f2 = 0b1111#4 ∧ f1 = 0b1111#4›
    exact ⟨rfl, rfl⟩
  case h_10 =>
    split at h <;> cases h
    subst f2
    exact ⟨rfl, rfl⟩
  case h_11 =>
    obtain ⟨-, -, hf, -⟩ := decodeSpecial_fields (op := 0b1110#4) h
    obtain ⟨rfl | rfl, rfl⟩ := hf rfl <;> cases h <;> exact ⟨rfl, rfl⟩
  case h_13 =>
    cases h
    have hop : 0b00#2 ++ op.extractLsb' 0 2 = op := by
      revert op
      decide
    exact ⟨congrArg (encodeSpecial · f2 f1) hop, rfl⟩
  all_goals
    cases h
    exact ⟨rfl, rfl⟩

/-! ## Loads and stores (R88 to R92) -/

/-- The memory operand the decoder reads is well formed (R89, R91). -/
theorem memOpOf_wf (op f1 : BitVec 4) (b0 : BitVec 1) (w2 : Word) : (memOpOf op f1 b0 w2).wf = true := by
  rw [memOpOf]
  split
  · split
    · rfl
    · split
      · rfl
      · rename_i h
        simpa [MemOp.wf] using h
  · rename_i h
    simp only [MemOp.wf]
    revert op b0
    decide

/-- The operation code of a long load or store holds the form and the high bits of the displacement (R90 to R92). -/
theorem long_op_fields (form : BitVec 2) (disp : BitVec 18) :
    (form ++ disp.extractLsb' 16 2).extractLsb' 3 1 = form.extractLsb' 1 1 ∧
      (form ++ disp.extractLsb' 16 2).extractLsb' 2 1 = form.extractLsb' 0 1 ∧
      (form ++ disp.extractLsb' 16 2).extractLsb' 0 2 ++ disp.extractLsb' 0 16 = disp := by
  refine ⟨extract_append_hi _ _ 3 1 (by decide), extract_append_hi _ _ 2 1 (by decide), ?_⟩
  rw [extract_append_lo _ _ 0 2 (by decide), extract_all, extract_adjacent disp 0 16 2, extract_all]

/-- An operation code of a long load or store is its form and the high bits of the displacement (R90 to R92). -/
theorem long_op_eq (h : op.extractLsb' 3 1 = 1#1) :
    (op.extractLsb' 2 1 = 0#1 → 0b10#2 ++ op.extractLsb' 0 2 = op) ∧
      (op.extractLsb' 2 1 ≠ 0#1 → 0b11#2 ++ op.extractLsb' 0 2 = op) := by
  revert op
  decide

/-- Every well-formed memory operand is one the decoder reads. -/
theorem memOpOf_surjective {m : MemOp} (h : m.wf = true) : ∃ op f1 b0 w2, memOpOf op f1 b0 w2 = m := by
  cases m with
  | relShort disp base =>
    refine ⟨disp.extractLsb' 1 4, base, disp.extractLsb' 0 1, 0, ?_⟩
    have hs : ¬ (disp.extractLsb' 0 1 = 1#1 ∧ (disp.extractLsb' 1 4).extractLsb' 3 1 = 1#1) := by
      simp only [MemOp.wf] at h
      revert disp
      decide
    rw [memOpOf, if_neg hs, extract_adjacent disp 0 1 4, extract_all]
  | relMedium disp base =>
    refine ⟨0b10#2 ++ disp.extractLsb' 16 2, base, 1, disp.extractLsb' 0 16, ?_⟩
    obtain ⟨h3, h2, hd⟩ := long_op_fields 0b10#2 disp
    rw [memOpOf, h3, h2, hd]
    simp
  | far disp pair =>
    refine ⟨0b11#2 ++ disp.extractLsb' 16 2, pair, 1, disp.extractLsb' 0 16, ?_⟩
    obtain ⟨h3, h2, hd⟩ := long_op_fields 0b11#2 disp
    have hp : pair ≠ 0b1111#4 := by simpa [MemOp.wf] using h
    rw [memOpOf, h3, h2, hd]
    simp [hp]
  | abs addr =>
    refine ⟨0b11#2 ++ addr.extractLsb' 16 2, 0b1111#4, 1, addr.extractLsb' 0 16, ?_⟩
    obtain ⟨h3, h2, hd⟩ := long_op_fields 0b11#2 addr
    rw [memOpOf, h3, h2, hd]
    simp

/-- A load or a store is encoded with the fields its memory operand is read from. -/
theorem encodeMem_memOpOf (h : top = 0b10#2 ∨ top = 0b11#2) (w2 : Word) :
    encodeMem top i rd (memOpOf op f1 b0 w2) = instrWords (pack top i op rd f1 b0) w2 := by
  have hl := isLong_pack_mem (i := i) (op := op) (f2 := rd) (f1 := f1) (b0 := b0) h
  have hhi : (op.extractLsb' 0 2 ++ w2).extractLsb' 16 2 = op.extractLsb' 0 2 :=
    (extract_append_hi _ _ 16 2 (by decide)).trans (extract_all _)
  have hlo : (op.extractLsb' 0 2 ++ w2).extractLsb' 0 16 = w2 :=
    (extract_append_lo _ _ 0 16 (by decide)).trans (extract_all _)
  rw [memOpOf]
  split
  · rename_i hs
    rw [instrWords_long (by rw [hl, decide_eq_true hs]), hs.1]
    have hop := long_op_eq hs.2
    split
    · rw [encodeMem, hhi, hlo, hop.1 ‹_›]
    · split
      · rw [encodeMem, hhi, hlo, hop.2 ‹_›, ‹f1 = _›]
      · rw [encodeMem, hhi, hlo, hop.2 ‹_›]
  · rename_i hs
    rw [instrWords_short (by rw [hl, decide_eq_false hs]), encodeMem, extract_append_hi _ _ 1 4 (by decide),
      extract_append_lo _ _ 0 1 (by decide), extract_all, extract_all]

/-! ## The table of formats (R112) -/

/-- `Listed ws ins`: the words `ws` are the instruction `ins` in one of the formats of R112. The decoder's tables of operation
codes and conditions are taken as they are; which words a format has is said by the encoder. -/
inductive Listed : List Word → Instr → Prop
  /-- NOP's own row (R107). -/
  | nop : Listed [0x0200#16] .nop
  /-- The register and immediate formats (R84 to R86). -/
  | basic {i : BitVec 1} {op : BitVec 4} {src : Src} {rd : Reg} {ins : Instr} (h : basicInstr i op src rd = some ins)
      (hw : ins.wf = true) : Listed (encodeBasic i op src rd) ins
  /-- The special format (R87, R106). -/
  | special {op f2 f1 : BitVec 4} {ins : Instr} (h : decodeSpecial op f2 f1 = .ok ins) : Listed (encodeSpecial op f2 f1) ins
  /-- Bcond and BR (R95, R96). -/
  | branch {cond : BitVec 4} {d : Disp} {ins : Instr} (h : branchInstr cond d = .ok ins) (hd : d.wf = true) :
      Listed (encodeBranch cond d) ins
  /-- BAL (R97). -/
  | bal {link : Reg} {d : BitVec 17} (hd : (Instr.bal link d).wf = true) : Listed (encodeWords (.bal link d)) (.bal link d)
  /-- Jcond and JUMP (R98). -/
  | jump {cond : BitVec 4} {target : Reg} {ins : Instr} (h : jumpInstr cond target = .ok ins) :
      Listed (encodeJump cond target) ins
  /-- JAL (R99). -/
  | jal (link target : Reg) : Listed (encodeWords (.jal link target)) (.jal link target)
  /-- LOADB (R88 to R92). -/
  | loadb {m : MemOp} (rd : Reg) (hm : m.wf = true) : Listed (encodeWords (.loadb m rd)) (.loadb m rd)
  /-- LOADW (R88 to R92). -/
  | loadw {m : MemOp} (rd : Reg) (hm : m.wf = true) : Listed (encodeWords (.loadw m rd)) (.loadw m rd)
  /-- STORB (R88 to R92). -/
  | storb {m : MemOp} (rs : Reg) (hm : m.wf = true) : Listed (encodeWords (.storb rs m)) (.storb rs m)
  /-- STORW (R88 to R92). -/
  | storw {m : MemOp} (rs : Reg) (hm : m.wf = true) : Listed (encodeWords (.storw rs m)) (.storw rs m)
  /-- The words of Table A-2 (R103). -/
  | und (p : UndPattern) : Listed [encodeUnd p] (.und p)

/-- What stands in the table of formats is well formed and stands there with its encoding. -/
theorem Listed.encodeWords_eq {ws : List Word} (h : Listed ws ins) : ins.wf = true ∧ encodeWords ins = ws := by
  cases h with
  | basic h hw => exact ⟨hw, encodeWords_of_basicInstr h⟩
  | special h => exact (decodeSpecial_ok h).symm
  | branch h hd => exact ⟨(branchInstr_ok h).2.trans hd, (branchInstr_ok h).1⟩
  | jump h => exact (jumpInstr_ok h).symm
  | bal hd => exact ⟨hd, rfl⟩
  | loadb r hm | loadw r hm | storb r hm | storw r hm => exact ⟨hm, rfl⟩
  | nop | jal | und => exact ⟨rfl, rfl⟩

/-- Every well-formed instruction stands in the table of formats with its encoding. -/
theorem listed_encodeWords (ins : Instr) (h : ins.wf = true) : Listed (encodeWords ins) ins := by
  cases ins with
  | nop => exact .nop
  | addb | addw | addub | adduw | mulb | mulw | ashub | ashuw | lshb | lshw | xorb | xorw | cmpb | cmpw | andb | andw | addcb
  | addcw | movb | movw | subcb | subcw | orb | orw | subb | subw | tbit => exact .basic rfl h
  | movxb | movzb | seq | sne | scs | scc | shi | sls | sgt | sle | sfs | sfc | slo | shs | slt | sge | retx | excp | di | ei
  | wait => exact .special rfl
  | lpr rs dest => exact .special (by simp [decodeSpecial])
  | spr src rd => exact .special (by simp [decodeSpecial])
  | beq | bne | bcs | bcc | bhi | bls | bgt | ble | bfs | bfc | blo | bhs | blt | bge | br => exact .branch rfl h
  | bal link d => exact .bal h
  | jeq | jne | jcs | jcc | jhi | jls | jgt | jle | jfs | jfc | jlo | jhs | jlt | jge | jump => exact .jump rfl
  | jal => exact .jal _ _
  | loadb => exact .loadb _ h
  | loadw => exact .loadw _ h
  | storb => exact .storb _ h
  | storw => exact .storw _ h
  | und p => exact .und p

/-- An instruction of one word has that first word. -/
theorem instrWords_eq_one {x : Word} (h : instrWords w v = [x]) : w = x := by
  rw [instrWords] at h
  split at h <;> simp_all

/-! ## The decoder by the fields of the first word (R100) -/

/-- The immediate operand the decoder reads (R85, R86). -/
def immOf (f1 : BitVec 4) (b0 : BitVec 1) (w2 : Word) : Src :=
  if f1 ++ b0 = 0b10001#5 then .medium w2 else .short (f1 ++ b0)

/-- The immediate operand the decoder reads is well formed (R85). -/
theorem immOf_wf (f1 : BitVec 4) (b0 : BitVec 1) (w2 : Word) : (immOf f1 b0 w2).wf = true := by
  rw [immOf]
  split
  · rfl
  · rename_i h
    simpa [Src.wf] using h

/-- Every well-formed source operand is a register or an immediate operand the decoder reads (R84 to R86). -/
theorem src_cases (h : src.wf = true) : (∃ rs, src = .reg rs) ∨ ∃ f1 b0 w2, src = immOf f1 b0 w2 := by
  cases src with
  | reg rs => exact .inl ⟨rs, rfl⟩
  | medium imm => exact .inr ⟨0b1000#4, 1#1, imm, rfl⟩
  | short imm =>
    refine .inr ⟨imm.extractLsb' 1 4, imm.extractLsb' 0 1, 0, ?_⟩
    have hi : imm ≠ 0b10001#5 := by simpa [Src.wf] using h
    rw [immOf, extract_adjacent imm 0 1 4, extract_all, if_neg hi]

/-- Outside the operation codes 1010 and 0010 the words 00 are an immediate format or a byte TBIT of Table A-2. -/
theorem decode00_imm (h1 : op ≠ 0b1010#4) (h2 : op ≠ 0b0010#4) :
    decode00 i op f2 f1 b0 v = .ok ((basicInstr i op (immOf f1 b0 v) f2).getD (.und (.row1 f2 f1 b0))) := by
  simp only [decode00, if_neg h1, if_neg h2, immOf]
  cases basicInstr i op _ f2 <;> rfl

/-- The register format, or a byte TBIT of Table A-2. -/
theorem decode01Odd_reg (h1 : op ≠ 0b1010#4) (h2 : op ≠ 0b0010#4) :
    decode01Odd i op f2 f1 = .ok ((basicInstr i op (.reg f1) f2).getD (.und (.row8 f2 f1))) := by
  simp only [decode01Odd, if_neg h1, if_neg h2]
  cases basicInstr i op _ f2 <;> rfl

/-- A medium Bcond or BR with the listed low nibble and an even displacement (R96). -/
theorem decode00_branch (hn : f1.extractLsb' 0 3 = 0b111#3) (hv : v.getLsbD 0 = false) :
    decode00 0#1 0b1010#4 cond f1 0#1 v = branchInstr cond (.medium (f1.extractLsb' 3 1 ++ v)) := by
  by_cases hc : cond = 0b1111#4
  · subst hc
    simp [decode00, hn, branchInstr, condOf]
  · simp [decode00, hn, hv, hc, -BitVec.getLsbD_eq_getElem]

/-- A BAL with the listed low nibble and an even displacement (R97). -/
theorem decode00_bal (hn : f1.extractLsb' 0 3 = 0b111#3) (hv : v.getLsbD 0 = false) :
    decode00 1#1 0b1010#4 f2 f1 0#1 v = .ok (.bal f2 (f1.extractLsb' 3 1 ++ v)) := by
  simp [decode00, hn, hv, -BitVec.getLsbD_eq_getElem]

/-- The only basic instruction there is none of is TBIT on a byte (R103). -/
theorem basicInstr_none (h : basicInstr i op src rd = none) (h1 : op ≠ 0b1010#4) (h2 : op ≠ 0b0010#4) :
    op = 0b1011#4 ∧ i = 0#1 := by
  simp only [basicInstr] at h
  split at h
  case h_28 =>
    rcases bit_cases i with rfl | rfl <;>
      simp only [forall_const, BitVec.reduceEq, false_implies, imp_false, and_true, and_false] at * <;> bv_omega
  all_goals cases h

/-- The second word of an encoding of one word is not looked at (R100). -/
theorem decodeFields_short (h : isLong (pack top i op f2 f1 b0) = false) (v v' : Word) :
    decodeFields top i op f2 f1 b0 v = decodeFields top i op f2 f1 b0 v' := by
  rcases bit_pair_cases top with rfl | rfl | ht
  · change decode00 i op f2 f1 b0 v = decode00 i op f2 f1 b0 v'
    rw [isLong_pack00] at h
    by_cases h1 : op = 0b1010#4
    · subst h1
      rcases bit_cases b0 with rfl | rfl
      · have hn : f1.extractLsb' 0 3 ≠ 0b111#3 := by simpa using h
        simp [decode00, hn]
      · rfl
    · by_cases h2 : op = 0b0010#4
      · subst h2
        rfl
      · rw [decode00_imm h1 h2, decode00_imm h1 h2]
        by_cases h3 : op = 0b1011#4 ∧ i = 0#1
        · rw [h3.1, h3.2]
          rfl
        · rw [if_neg h1, if_neg (not_or.2 ⟨h2, h3⟩), decide_eq_false_iff_not] at h
          rw [immOf, immOf, if_neg h, if_neg h]
  · rfl
  · rw [isLong_pack_mem ht, decide_eq_false_iff_not] at h
    have hm : memOpOf op f1 b0 v = memOpOf op f1 b0 v' := by rw [memOpOf, memOpOf, if_neg h, if_neg h]
    rcases ht with rfl | rfl
    · simp only [decodeFields, hm]
    · simp only [decodeFields, hm]
      rfl

/-- The second word of an encoding of one word is not looked at (R100). -/
theorem decodeWords_short (h : isLong w = false) (v v' : Word) : decodeWords w v = decodeWords w v' := by
  rw [decodeWords, decodeWords, decodeFields_short (by rwa [pack_fields])]

/-! ## The encoder by the fields of the first word (R84 to R86, R95 to R97) -/

/-- The immediate formats (R85, R86). -/
theorem encodeBasic_immOf (h1 : op ≠ 0b1010#4) (h2 : op ≠ 0b0010#4) (h3 : ¬ (op = 0b1011#4 ∧ i = 0#1)) :
    encodeBasic i op (immOf f1 b0 v) rd = instrWords (pack 0b00#2 i op rd f1 b0) v := by
  have hl := isLong_pack00 (i := i) (op := op) (f2 := rd) (f1 := f1) (b0 := b0)
  rw [if_neg h1, if_neg (not_or.2 ⟨h2, h3⟩)] at hl
  rw [immOf]
  split
  · rename_i hi
    have hf : f1 = 0b1000#4 ∧ b0 = 1#1 := by
      clear hl
      revert f1 b0
      decide
    rw [instrWords_long (by rw [hl, decide_eq_true hi]), hf.1, hf.2, encodeBasic]
  · rename_i hi
    rw [instrWords_short (by rw [hl, decide_eq_false hi]), encodeBasic, extract_append_hi _ _ 1 4 (by decide),
      extract_append_lo _ _ 0 1 (by decide), extract_all, extract_all]

/-- The short format of Bcond and BR (R95). -/
theorem encodeBranch_short : encodeBranch cond (.short (op ++ f1 ++ 0#1)) = [pack 0b01#2 0#1 op cond f1 0#1] := by
  rw [encodeBranch, extract_append_hi _ _ 5 4 (by decide), extract_append_hi _ _ _ 4 (by decide),
    extract_append_hi _ _ 1 4 (by decide), extract_append_lo _ _ _ 4 (by decide), extract_append_lo _ _ 0 1 (by decide),
    extract_all, extract_all, extract_all]

/-- The parts of a medium displacement (R96, R97). -/
theorem medium_disp_parts (b : BitVec 1) (v : Word) :
    (b ++ v).extractLsb' 16 1 = b ∧ (b ++ v).extractLsb' 0 16 = v ∧ (b ++ v).getLsbD 0 = v.getLsbD 0 := by
  refine ⟨(extract_append_hi _ _ 16 1 (by decide)).trans (extract_all _),
    (extract_append_lo _ _ 0 16 (by decide)).trans (extract_all _), ?_⟩
  rw [BitVec.getLsbD_append, if_pos (by decide)]

/-- The listed low nibble and bit 4, which is bit 16 of the displacement, are operand 1 (R96, R97). -/
theorem medium_nibble (hn : f1.extractLsb' 0 3 = 0b111#3) : f1.extractLsb' 3 1 ++ 0b111#3 = f1 := by
  rw [← hn, extract_adjacent f1 0 3 1, extract_all]

/-- The medium format of Bcond and BR (R96). -/
theorem encodeBranch_medium (hn : f1.extractLsb' 0 3 = 0b111#3) :
    encodeBranch cond (.medium (f1.extractLsb' 3 1 ++ v)) = [pack 0b00#2 0#1 0b1010#4 cond f1 0#1, v] := by
  obtain ⟨h1, h2, -⟩ := medium_disp_parts (f1.extractLsb' 3 1) v
  rw [encodeBranch, h1, h2, medium_nibble hn]

/-- The format of BAL (R97). -/
theorem encodeWords_bal (hn : f1.extractLsb' 0 3 = 0b111#3) :
    encodeWords (.bal f2 (f1.extractLsb' 3 1 ++ v)) = [pack 0b00#2 1#1 0b1010#4 f2 f1 0#1, v] := by
  obtain ⟨h1, h2, -⟩ := medium_disp_parts (f1.extractLsb' 3 1) v
  rw [encodeWords, h1, h2, medium_nibble hn]

/-- Every even medium displacement is made of a listed operand 1 and an even second word (R96, R97). -/
theorem medium_disp_cases {d : BitVec 17} (h : d.getLsbD 0 = false) :
    ∃ (f1 : BitVec 4) (v : Word), f1.extractLsb' 0 3 = 0b111#3 ∧ v.getLsbD 0 = false ∧ d = f1.extractLsb' 3 1 ++ v := by
  have hd : d.extractLsb' 16 1 ++ d.extractLsb' 0 16 = d := (extract_adjacent d 0 16 1).trans (extract_all d)
  refine ⟨d.extractLsb' 16 1 ++ 0b111#3, d.extractLsb' 0 16, ?_, ?_, ?_⟩
  · exact (extract_append_lo _ _ 0 3 (by decide)).trans (extract_all _)
  · rw [← (medium_disp_parts (d.extractLsb' 16 1) _).2.2, hd, h]
  · rw [extract_append_hi _ _ 3 1 (by decide), extract_all, hd]

/-- The lowest bit as a part of a value. -/
theorem extract_zero_one {n : Nat} {x : BitVec n} (h : x.getLsbD 0 = false) : x.extractLsb' 0 1 = 0#1 := by
  apply BitVec.eq_of_getLsbD_eq
  intro k hk
  rw [BitVec.getLsbD_extractLsb', show k = 0 by omega, Nat.add_zero, h]
  rfl

/-- Every even displacement is one the decoder reads (R95, R96). -/
theorem disp_cases {d : Disp} (h : d.wf = true) :
    (∃ op f1 : BitVec 4, d = .short (op ++ f1 ++ 0#1)) ∨
      ∃ (f1 : BitVec 4) (v : Word), f1.extractLsb' 0 3 = 0b111#3 ∧ v.getLsbD 0 = false ∧
        d = .medium (f1.extractLsb' 3 1 ++ v) := by
  cases d with
  | short d =>
    have hb : d.extractLsb' 0 1 = 0#1 := extract_zero_one (by simpa only [Disp.wf, Bool.not_eq_true'] using h)
    refine .inl ⟨d.extractLsb' 5 4, d.extractLsb' 1 4, ?_⟩
    rw [extract_adjacent d 1 4 4, ← hb, extract_adjacent d 0 1 8, extract_all]
  | medium d =>
    obtain ⟨f1, v, hn, hv, rfl⟩ := medium_disp_cases (d := d) (by simpa only [Disp.wf, Bool.not_eq_true'] using h)
    exact .inr ⟨f1, v, hn, hv, rfl⟩

/-! ## The decoder accepts the table of formats, and nothing else -/

/-- The words 01 are decoded by their fields (R82). -/
theorem decodeWords_pack01 : decodeWords (pack 0b01#2 i op f2 f1 b0) v =
    if b0 = 1#1 then decode01Odd i op f2 f1 else decode01Even i op f2 f1 :=
  decodeWords_pack (by simp [pack_eq_nop])

/-- The words 00 but NOP's are decoded by their fields (R82, R107). -/
theorem decodeWords_pack00 (h : pack 0b00#2 i op f2 f1 b0 ≠ 0x0200#16) :
    decodeWords (pack 0b00#2 i op f2 f1 b0) v = decode00 i op f2 f1 b0 v :=
  decodeWords_pack h

/-- The encoding of a load or a store is decoded by the fields its memory operand is read from (R88 to R92). -/
theorem decodeWords_of_mem {m : MemOp} (ht : top = 0b10#2 ∨ top = 0b11#2) (hm : m.wf = true)
    (hd : ∀ op f1 b0 v, memOpOf op f1 b0 v = m → decodeFields top i op rd f1 b0 v = .ok ins) :
    ∃ w v, instrWords w v = encodeMem top i rd m ∧ decodeWords w v = .ok ins := by
  obtain ⟨op, f1, b0, v, rfl⟩ := memOpOf_surjective hm
  have hn : pack top i op rd f1 b0 ≠ 0x0200#16 := by
    rcases ht with rfl | rfl <;> simp [pack_eq_nop]
  exact ⟨_, v, (encodeMem_memOpOf ht v).symm, (decodeWords_pack hn).trans (hd op f1 b0 v rfl)⟩

/-- A word of Table A-2 is one word long (R100, R103). -/
theorem isLong_encodeUnd (p : UndPattern) : isLong (encodeUnd p) = false := by
  cases p with
  | row1 f2 f1 b0 => exact isLong_pack00
  | row2 i f2 f1 => exact isLong_pack00
  | row3 i f2 f1 b0 => exact isLong_pack00
  | row4 | row5 | row6 | row7 | row8 => exact isLong_pack01

/-- The special format with an operation code 00XX is row 6 of Table A-2 (R103). -/
theorem decodeSpecial_row6 (h : op.extractLsb' 2 2 = 0b00#2) :
    decodeSpecial op f2 f1 = .ok (.und (.row6 (op.extractLsb' 0 2) f2 f1)) := by
  simp only [decodeSpecial]
  split
  case h_13 => rfl
  all_goals exact absurd h (by decide)

/-- A word of Table A-2 is decoded as it, whatever follows (R103). -/
theorem decodeWords_encodeUnd (p : UndPattern) (v : Word) : decodeWords (encodeUnd p) v = .ok (.und p) := by
  cases p with
  | row1 f2 f1 b0 => exact (decodeWords_pack00 (by simp [pack_eq_nop])).trans (decode00_imm (by decide) (by decide))
  | row2 | row3 => exact decodeWords_pack00 (by simp [pack_eq_nop])
  | row4 | row5 | row8 => exact decodeWords_pack01
  | row6 opLo f2 f1 =>
    have hhi : (0b00#2 ++ opLo).extractLsb' 2 2 = 0b00#2 :=
      (extract_append_hi _ _ 2 2 (by decide)).trans (extract_all _)
    have hlo : (0b00#2 ++ opLo).extractLsb' 0 2 = opLo := (extract_append_lo _ _ 0 2 (by decide)).trans (extract_all _)
    refine decodeWords_pack01.trans ((decodeSpecial_row6 hhi).trans ?_)
    rw [hlo]
  | row7 opLo f2 f1 =>
    refine decodeWords_pack01.trans ?_
    rcases bit_cases opLo with rfl | rfl <;> rfl

/-- The words of every instruction of the table of formats are decoded as it. -/
theorem Listed.decodeWords_eq {ws : List Word} (h : Listed ws ins) :
    ∃ w v, instrWords w v = ws ∧ decodeWords w v = .ok ins := by
  cases h with
  | nop => exact ⟨0x0200#16, 0, rfl, rfl⟩
  | @basic i op src rd _ h hw =>
    obtain ⟨h1, h2, h3⟩ := basicInstr_op h
    obtain ⟨hsrc, hn⟩ := (basicInstr_wf h).1 hw
    rcases src_cases hsrc with ⟨rs, rfl⟩ | ⟨f1, b0, v, rfl⟩
    · refine ⟨_, 0, instrWords_short isLong_pack01 _, ?_⟩
      rw [decodeWords_pack01, if_pos rfl, decode01Odd_reg h1 h2, h]
      rfl
    · refine ⟨_, v, (encodeBasic_immOf h1 h2 h3).symm, ?_⟩
      rw [decodeWords_pack00 ?_, decode00_imm h1 h2, h]
      · rfl
      · intro he
        rw [encodeBasic_immOf h1 h2 h3, he] at hn
        exact hn rfl
  | @special op f2 f1 _ h =>
    refine ⟨_, 0, instrWords_short isLong_pack01 _, ?_⟩
    rw [decodeWords_pack01]
    exact h
  | @branch cond d _ h hd =>
    rcases disp_cases hd with ⟨op, f1, rfl⟩ | ⟨f1, v, hn, hv, rfl⟩
    · rw [encodeBranch_short]
      refine ⟨_, 0, instrWords_short isLong_pack01 _, ?_⟩
      rw [decodeWords_pack01]
      exact h
    · rw [encodeBranch_medium hn]
      refine ⟨_, v, instrWords_long ?_ v, ?_⟩
      · rw [isLong_pack00]
        simp [hn]
      · rw [decodeWords_pack00 (by simp [pack_eq_nop]), decode00_branch hn hv, h]
  | @bal link d hd =>
    obtain ⟨f1, v, hn, hv, rfl⟩ := medium_disp_cases (d := d) (by simpa only [Instr.wf, Bool.not_eq_true'] using hd)
    rw [encodeWords_bal hn]
    refine ⟨_, v, instrWords_long ?_ v, ?_⟩
    · rw [isLong_pack00]
      simp [hn]
    · rw [decodeWords_pack00 (by simp [pack_eq_nop]), decode00_bal hn hv]
  | @jump cond target _ h =>
    refine ⟨_, 0, instrWords_short isLong_pack01 _, ?_⟩
    rw [decodeWords_pack01]
    exact h
  | jal link target =>
    refine ⟨_, 0, instrWords_short isLong_pack01 _, ?_⟩
    rw [decodeWords_pack01]
    rfl
  | loadb rd hm => exact decodeWords_of_mem (.inl rfl) hm (by rintro _ _ _ _ rfl; rfl)
  | loadw rd hm => exact decodeWords_of_mem (.inl rfl) hm (by rintro _ _ _ _ rfl; rfl)
  | storb rs hm => exact decodeWords_of_mem (.inr rfl) hm (by rintro _ _ _ _ rfl; rfl)
  | storw rs hm => exact decodeWords_of_mem (.inr rfl) hm (by rintro _ _ _ _ rfl; rfl)
  | und p => exact ⟨encodeUnd p, 0, instrWords_short (isLong_encodeUnd p) 0, decodeWords_encodeUnd p 0⟩

/-- The words of Table A-2 stand in the table of formats, whatever follows them (R103). -/
theorem listed_encodeUnd (p : UndPattern) (v : Word) : Listed (instrWords (encodeUnd p) v) (.und p) := by
  rw [instrWords_short (isLong_encodeUnd p)]
  exact .und p

/-- A medium branch or BAL has an even displacement (R104). -/
theorem decode00_even (h : decode00 i 0b1010#4 f2 f1 0#1 v = .ok ins) : v.getLsbD 0 = false := by
  have hn := decode00_nibble h
  by_contra hv
  rw [Bool.not_eq_false] at hv
  simp only [decode00, if_true, show ¬ (0#1 = 1#1) by decide, if_false, hn, ne_eq, not_true_eq_false, hv] at h
  split at h <;> cases h

/-- The medium branches and BAL that the decoder accepts (R96, R97). -/
theorem listed_of_decode00_branch (h : decode00 i 0b1010#4 f2 f1 0#1 v = .ok ins) :
    Listed (instrWords (pack 0b00#2 i 0b1010#4 f2 f1 0#1) v) ins := by
  have hn := decode00_nibble h
  have hv := decode00_even h
  obtain ⟨-, -, hbit⟩ := medium_disp_parts (f1.extractLsb' 3 1) v
  have hd := hbit.trans hv
  rw [instrWords_long (by rw [isLong_pack00]; simp [hn])]
  rcases bit_cases i with rfl | rfl
  · rw [decode00_branch hn hv] at h
    rw [← encodeBranch_medium hn]
    exact .branch h (by rw [Disp.wf, hd]; rfl)
  · rw [decode00_bal hn hv] at h
    cases h
    rw [← encodeWords_bal hn]
    exact .bal (by rw [Instr.wf, hd]; rfl)

/-- The words 00 that the decoder accepts: the immediate formats, the medium branches, BAL, and rows 1 to 3 of Table A-2. -/
theorem listed_of_decode00 (hw : pack 0b00#2 i op f2 f1 b0 ≠ 0x0200#16) (h : decode00 i op f2 f1 b0 v = .ok ins) :
    Listed (instrWords (pack 0b00#2 i op f2 f1 b0) v) ins := by
  by_cases h1 : op = 0b1010#4
  · subst h1
    rcases bit_cases b0 with rfl | rfl
    · exact listed_of_decode00_branch h
    · cases h
      exact listed_encodeUnd (.row2 i f2 f1) v
  · by_cases h2 : op = 0b0010#4
    · subst h2
      cases h
      exact listed_encodeUnd (.row3 i f2 f1 b0) v
    · rw [decode00_imm h1 h2] at h
      cases hb : basicInstr i op (immOf f1 b0 v) f2 with
      | none =>
        obtain ⟨rfl, rfl⟩ := basicInstr_none hb h1 h2
        rw [hb] at h
        cases h
        exact listed_encodeUnd (.row1 f2 f1 b0) v
      | some j =>
        rw [hb] at h
        cases h
        have he := encodeBasic_immOf (rd := f2) (f1 := f1) (b0 := b0) (v := v) h1 h2 (basicInstr_op hb).2.2
        rw [← he]
        refine .basic hb ((basicInstr_wf hb).2 ⟨immOf_wf f1 b0 v, fun hn => hw ?_⟩)
        exact instrWords_eq_one (he.symm.trans hn)

/-- The words 01 with bit 0 set that the decoder accepts: the register formats, the jumps, and rows 4 and 8 of Table A-2. -/
theorem listed_of_decode01Odd (h : decode01Odd i op f2 f1 = .ok ins) : Listed [pack 0b01#2 i op f2 f1 1#1] ins := by
  by_cases h1 : op = 0b1010#4
  · subst h1
    rcases bit_cases i with rfl | rfl
    · exact .jump h
    · cases h
      exact .jal f2 f1
  · by_cases h2 : op = 0b0010#4
    · subst h2
      cases h
      exact .und (.row4 i f2 f1)
    · rw [decode01Odd_reg h1 h2] at h
      cases hb : basicInstr i op (.reg f1) f2 with
      | none =>
        obtain ⟨rfl, rfl⟩ := basicInstr_none hb h1 h2
        rw [hb] at h
        cases h
        exact .und (.row8 f2 f1)
      | some j =>
        rw [hb] at h
        cases h
        exact .basic (src := .reg f1) hb ((basicInstr_wf hb).2 ⟨rfl, by simp [encodeBasic_eq_nop]⟩)

/-- The words 01 with bit 0 clear that the decoder accepts: the short branches and the special format. -/
theorem listed_of_decode01Even (h : decode01Even i op f2 f1 = .ok ins) : Listed [pack 0b01#2 i op f2 f1 0#1] ins := by
  rcases bit_cases i with rfl | rfl
  · have hd : (op ++ f1 ++ 0#1).getLsbD 0 = false := by rw [BitVec.getLsbD_append]; rfl
    rw [← encodeBranch_short]
    exact .branch h (by rw [Disp.wf, hd]; rfl)
  · exact .special h

/-- The loads and the stores, all of which the decoder accepts. -/
theorem listed_of_mem (ht : top = 0b10#2 ∨ top = 0b11#2) (h : decodeFields top i op f2 f1 b0 v = .ok ins) :
    Listed (instrWords (pack top i op f2 f1 b0) v) ins := by
  rw [← encodeMem_memOpOf ht]
  have hm := memOpOf_wf op f1 b0 v
  rcases ht with rfl | rfl <;> rcases bit_cases i with rfl | rfl <;> cases h
  · exact .loadb f2 hm
  · exact .loadw f2 hm
  · exact .storb f2 hm
  · exact .storw f2 hm

/-- What the decoder accepts stands in the table of formats. -/
theorem listed_of_decodeWords (h : decodeWords w v = .ok ins) : Listed (instrWords w v) ins := by
  rw [← pack_fields w] at h ⊢
  generalize topOf w = top, iOf w = i, opOf w = op, f2Of w = f2, f1Of w = f1, b0Of w = b0 at h ⊢
  by_cases hw : pack top i op f2 f1 b0 = 0x0200#16
  · rw [hw] at h ⊢
    cases h
    exact .nop
  · rw [decodeWords_pack hw] at h
    rcases bit_pair_cases top with rfl | rfl | ht
    · exact listed_of_decode00 hw h
    · rw [instrWords_short isLong_pack01]
      rcases bit_cases b0 with rfl | rfl
      · exact listed_of_decode01Even h
      · exact listed_of_decode01Odd h
    · exact listed_of_mem ht h

/-! ## Bytes (R81) -/

/-- Decoding bytes is decoding the words they begin with. -/
theorem decode_instrWords (w v : Word) (rest : List Byte) :
    decode ((instrWords w v).flatMap bytesOfWord ++ rest) = (decodeWords w v).map fun ins => (ins, rest) := by
  cases hl : isLong w
  · simp [instrWords_short hl, bytesOfWord, decode, hl, decodeWords_short hl v 0#16]
  · simp [instrWords_long hl, bytesOfWord, decode, hl]

/-- An answer that is mapped comes from an answer. -/
theorem map_eq_ok {ε α β : Type} {x : Except ε α} {f : α → β} {y : β} : x.map f = .ok y ↔ ∃ a, x = .ok a ∧ f a = y := by
  cases x <;> simp [Except.map]

/-- What decodes begins with the words of an instruction. -/
theorem decode_ok {bs rest : List Byte} (h : decode bs = .ok (ins, rest)) :
    ∃ w v, decodeWords w v = .ok ins ∧ (instrWords w v).flatMap bytesOfWord ++ rest = bs := by
  match bs with
  | [] | [_] => cases h
  | a :: b :: tail =>
    cases hl : isLong (wordOfBytes a b) with
    | false =>
      simp only [decode, hl, Bool.false_eq_true, if_false] at h
      obtain ⟨j, hj, he⟩ := map_eq_ok.1 h
      cases he
      exact ⟨_, 0, hj, by simp [instrWords_short hl]⟩
    | true =>
      simp only [decode, hl, if_true] at h
      match tail with
      | [] | [_] => cases h
      | c :: d :: tail =>
        obtain ⟨j, hj, he⟩ := map_eq_ok.1 h
        cases he
        exact ⟨_, _, hj, by simp [instrWords_long hl]⟩

/-- Settles O56: a well-formed instruction stands in the table of formats with its encoding, and the decoder accepts the table. -/
theorem decodeEncodeRoundTrip : Obligations.DecodeEncodeRoundTrip := by
  intro ins rest hwf
  obtain ⟨w, v, hws, hd⟩ := (listed_encodeWords ins hwf).decodeWords_eq
  rw [encode, ← hws, decode_instrWords, hd]
  rfl

/-- Settles O57: the words that are decoded stand in the table of formats, whose encoding is unique. -/
theorem encodeDecodeRoundTrip : Obligations.EncodeDecodeRoundTrip := by
  intro bs ins rest h
  obtain ⟨w, v, hd, rfl⟩ := decode_ok h
  obtain ⟨hwf, hws⟩ := (listed_of_decodeWords hd).encodeWords_eq
  exact ⟨hwf, by rw [encode, hws]⟩

end Sys2Proof
end

section
/-! Which words are no instruction and which are words of Table A-2, from match and mask pairs to the fields of R82
(spec/30_encoding.md R103, R108). -/

namespace Sys2Proof

variable {top : BitVec 2} {i : BitVec 1} {op f2 f1 : BitVec 4} {b0 : BitVec 1} {w v : Word} {rd : Reg} {cond : BitVec 4}

/-! ## Match and mask pairs, by fields (R82, R103) -/

/-- The fields of a word under a mask are the fields of both under each other. -/
theorem and_fields (w m : Word) :
    topOf (w &&& m) = topOf w &&& topOf m ∧ iOf (w &&& m) = iOf w &&& iOf m ∧ opOf (w &&& m) = opOf w &&& opOf m ∧
      f2Of (w &&& m) = f2Of w &&& f2Of m ∧ f1Of (w &&& m) = f1Of w &&& f1Of m ∧ b0Of (w &&& m) = b0Of w &&& b0Of m := by
  simp only [topOf, iOf, opOf, f2Of, f1Of, b0Of, BitVec.extractLsb'_and, and_self]

/-- A word matches under a mask exactly where each of its fields matches under the mask's field. -/
theorem masked_iff (m x : Word) : pack top i op f2 f1 b0 &&& m = x ↔
    top &&& topOf m = topOf x ∧ i &&& iOf m = iOf x ∧ op &&& opOf m = opOf x ∧ f2 &&& f2Of m = f2Of x ∧
      f1 &&& f1Of m = f1Of x ∧ b0 &&& b0Of m = b0Of x := by
  have hm : pack top i op f2 f1 b0 &&& m =
      pack (top &&& topOf m) (i &&& iOf m) (op &&& opOf m) (f2 &&& f2Of m) (f1 &&& f1Of m) (b0 &&& b0Of m) := by
    refine word_ext ?_ ?_ ?_ ?_ ?_ ?_ <;> simp [and_fields]
  rw [hm, pack_eq_iff]

/-- A field whose mask is all ones is compared whole. -/
@[simp] theorem and_ones1 (x : BitVec 1) : x &&& 1#1 = x := BitVec.and_allOnes
/-- A field whose mask is all ones is compared whole. -/
@[simp] theorem and_ones2 (x : BitVec 2) : x &&& 3#2 = x := BitVec.and_allOnes
/-- A field whose mask is all ones is compared whole. -/
@[simp] theorem and_ones4 (x : BitVec 4) : x &&& 15#4 = x := BitVec.and_allOnes

/-- The masks that leave a field one or two values. -/
theorem nibble_mask_iff (x : BitVec 4) : (x &&& 7#4 = 7#4 ↔ x.extractLsb' 0 3 = 7#3) ∧
    (x &&& 14#4 = 14#4 ↔ x = 14#4 ∨ x = 15#4) ∧ (x &&& 14#4 = 8#4 ↔ x = 8#4 ∨ x = 9#4) := by
  revert x
  decide

/-! ## Where each part of the decoder finds no instruction (R108) -/

/-- The codes that are no condition (spec/10_state.md R30). -/
theorem condOf_none : condOf cond = none ↔ cond = 0b1110#4 ∨ cond = 0b1111#4 := by
  revert cond
  decide

/-- The codes that are no processor register (spec/10_state.md R34). -/
theorem procRegOf_none {c : BitVec 4} : procRegOf c = none ↔ c ≠ 0b0001#4 ∧ c ≠ 0b0011#4 ∧ c ≠ 0b1011#4 := by
  revert c
  decide

/-- An instruction with fixed fields is unlisted where these are wrong. -/
theorem ite_rejects {c : Prop} [Decidable c] {ins : Instr} {r : Reject} :
    (∃ why, (if c then .ok ins else .error r : Except Reject Instr) = .error why) ↔ ¬ c := by
  by_cases hc : c <;> simp [hc]

/-- A Bcond or a BR is unlisted for the condition field 1111 alone. -/
theorem branchInstr_rejects {d : Disp} : (∃ why, branchInstr cond d = .error why) ↔ cond = 0b1111#4 := by
  have hc := condOf_none (cond := cond)
  rw [branchInstr]
  cases hf : condOf cond <;> split <;> simp_all

/-- A Jcond or a JUMP is unlisted for the condition field 1111 alone. -/
theorem jumpInstr_rejects {target : Reg} : (∃ why, jumpInstr cond target = .error why) ↔ cond = 0b1111#4 := by
  have hc := condOf_none (cond := cond)
  rw [jumpInstr]
  cases hf : condOf cond <;> split <;> simp_all

/-- The unlisted words 00: the medium branch pattern with a wrong low nibble, with the condition field 1111, or with an odd
displacement. -/
theorem decode00_rejects : (∃ why, decode00 i op f2 f1 b0 v = .error why) ↔
    op = 0b1010#4 ∧ b0 = 0#1 ∧
      (f1.extractLsb' 0 3 ≠ 0b111#3 ∨ (i = 0#1 ∧ f2 = 0b1111#4) ∨ v.getLsbD 0 = true) := by
  by_cases h1 : op = 0b1010#4
  · subst h1
    rcases bit_cases b0 with rfl | rfl
    · simp only [decode00, if_true, show ¬ (0#1 = 1#1) by decide, if_false, true_and]
      split_ifs <;> simp_all [branchInstr_rejects]
    · simp [decode00]
  · by_cases h2 : op = 0b0010#4
    · subst h2
      simp [decode00]
    · simp [decode00_imm h1 h2, h1]

/-- The unlisted words 01 with bit 0 set: a Jcond with the condition field 1111. -/
theorem decode01Odd_rejects :
    (∃ why, decode01Odd i op f2 f1 = .error why) ↔ op = 0b1010#4 ∧ i = 0#1 ∧ f2 = 0b1111#4 := by
  by_cases h1 : op = 0b1010#4
  · subst h1
    rcases bit_cases i with rfl | rfl
    · simp [decode01Odd, jumpInstr_rejects]
    · simp [decode01Odd]
  · by_cases h2 : op = 0b0010#4
    · subst h2
      simp [decode01Odd]
    · simp [decode01Odd_reg h1 h2, h1]

/-- The unlisted words of the special format: a Scond with 1110 or 1111, a processor-register code without a register, and
wrong fixed fields. -/
theorem decodeSpecial_rejects : (∃ why, decodeSpecial op f2 f1 = .error why) ↔
    (op = 0b0111#4 ∧ (f2 = 0b1110#4 ∨ f2 = 0b1111#4)) ∨
    ((op = 0b1000#4 ∨ op = 0b1001#4) ∧ f2 ≠ 0b0001#4 ∧ f2 ≠ 0b0011#4 ∧ f2 ≠ 0b1011#4) ∨
    ((op = 0b1100#4 ∨ op = 0b1111#4) ∧ ¬ (f2 = 0b1111#4 ∧ f1 = 0b1111#4)) ∨
    (op = 0b1101#4 ∧ f2 ≠ 0b1111#4) ∨
    (op = 0b1110#4 ∧ ¬ ((f2 = 0b1110#4 ∨ f2 = 0b1111#4) ∧ f1 = 0b1111#4)) := by
  simp only [decodeSpecial]
  split
  case h_4 =>
    have hc := condOf_none (cond := f2)
    cases hf : condOf f2 <;> simp_all
  case h_5 | h_6 =>
    have hc := procRegOf_none (c := f2)
    cases hf : procRegOf f2 <;> simp_all
  case h_9 | h_10 | h_12 => simp [ite_rejects]
  case h_11 =>
    by_cases h1 : f1 = 0b1111#4
    · by_cases h2 : f2 = 0b1110#4
      · simp [h1, h2]
      · simp [h1, h2, ite_rejects]
    · simp [h1]
  all_goals simp_all

/-- NOP's own row takes no word from the unlisted ones: without it the word would be an ADDUB (R107). -/
theorem decodeWords_rejects : (∃ why, decodeWords (pack top i op f2 f1 b0) v = .error why) ↔
    ∃ why, decodeFields top i op f2 f1 b0 v = .error why := by
  by_cases hw : pack top i op f2 f1 b0 = 0x0200#16
  · obtain ⟨rfl, rfl, rfl, rfl, rfl, rfl⟩ := pack_eq_nop.1 hw
    exact ⟨nofun, nofun⟩
  · rw [decodeWords_pack hw]

/-- Settles O58: on both sides what is said of the fields of the first word, by its bits 15, 14, 13 and 0. -/
theorem unlistedEncodingsRefused : Obligations.UnlistedEncodingsRefused := by
  intro w v
  rw [← pack_fields w]
  generalize topOf w = top, iOf w = i, opOf w = op, f2Of w = f2, f1Of w = f1, b0Of w = b0
  rw [decodeWords_rejects]
  simp only [masked_iff, pack_eq_iff, topOf, iOf, opOf, f2Of, f1Of, b0Of, nibble_mask_iff, BitVec.reduceExtractLsb',
    BitVec.ofNat_eq_ofNat, BitVec.and_zero, and_ones1, and_ones2, and_ones4, true_and, and_true, ne_eq]
  rcases bit_pair_cases top with rfl | rfl | rfl | rfl
  · change _ ↔ ∃ why, decode00 i op f2 f1 b0 v = .error why
    rw [decode00_rejects]
    grind
  · rcases bit_cases b0 with rfl | rfl
    · rcases bit_cases i with rfl | rfl
      · change _ ↔ ∃ why, branchInstr f2 _ = .error why
        rw [branchInstr_rejects]
        grind
      · change _ ↔ ∃ why, decodeSpecial op f2 f1 = .error why
        rw [decodeSpecial_rejects]
        grind
    · change _ ↔ ∃ why, decode01Odd i op f2 f1 = .error why
      rw [decode01Odd_rejects]
      grind
  · rcases bit_cases i with rfl | rfl <;> simp [decodeFields]
  · rcases bit_cases i with rfl | rfl <;> simp [decodeFields]

/-! ## The words of Table A-2 (R103) -/

/-- A word that matches a pair of Table A-2 is one of its words (R103). -/
theorem undefined_of_masked (h : w &&& 0xFE00 = 0x1600 ∨ w &&& 0xDE01 = 0x1401 ∨ w &&& 0xDE00 = 0x0400 ∨
    w &&& 0xDE01 = 0x4401 ∨ w &&& 0xFE01 = 0x6C00 ∨ w &&& 0xF801 = 0x6000 ∨ w &&& 0xFC01 = 0x7400 ∨
    w &&& 0xFE01 = 0x5601) : ∃ p, w = encodeUnd p := by
  rw [← pack_fields w] at h ⊢
  generalize topOf w = top, iOf w = i, opOf w = op, f2Of w = f2, f1Of w = f1, b0Of w = b0 at h ⊢
  simp only [masked_iff, topOf, iOf, opOf, f2Of, f1Of, b0Of, BitVec.reduceExtractLsb', BitVec.ofNat_eq_ofNat,
    BitVec.and_zero, and_ones1, and_ones2, and_ones4, true_and, and_true] at h
  rcases h with h | h | h | h | h | h | h | h
  · obtain ⟨rfl, rfl, rfl⟩ := h
    exact ⟨.row1 f2 f1 b0, rfl⟩
  · obtain ⟨rfl, rfl, rfl⟩ := h
    exact ⟨.row2 i f2 f1, rfl⟩
  · obtain ⟨rfl, rfl⟩ := h
    exact ⟨.row3 i f2 f1 b0, rfl⟩
  · obtain ⟨rfl, rfl, rfl⟩ := h
    exact ⟨.row4 i f2 f1, rfl⟩
  · obtain ⟨rfl, rfl, rfl, rfl⟩ := h
    exact ⟨.row5 f2 f1, rfl⟩
  · obtain ⟨rfl, rfl, hop, rfl⟩ := h
    obtain ⟨l, rfl⟩ : ∃ l : BitVec 2, op = 0b00#2 ++ l := by
      revert op
      decide
    exact ⟨.row6 l f2 f1, rfl⟩
  · obtain ⟨rfl, rfl, hop, rfl⟩ := h
    obtain ⟨l, rfl⟩ : ∃ l : BitVec 1, op = 0b101#3 ++ l := by
      revert op
      decide
    exact ⟨.row7 l f2 f1, rfl⟩
  · obtain ⟨rfl, rfl, rfl, rfl⟩ := h
    exact ⟨.row8 f2 f1, rfl⟩

/-! ## Unlisted encodings whose fixed fields are ignored (R108, D8) -/

/-- A word of the special format, by its operation code (R87, R106). -/
theorem special_of_masked (h : w &&& 0xFE01#16 = pack 0b01#2 1#1 op 0#4 0#4 0#1) :
    w = pack 0b01#2 1#1 op (f2Of w) (f1Of w) 0#1 := by
  rw [← pack_fields w] at h ⊢
  generalize topOf w = top, iOf w = i, opOf w = o, f2Of w = f2, f1Of w = f1, b0Of w = b0 at h ⊢
  simp only [masked_iff, topOf_pack, iOf_pack, opOf_pack, f2Of_pack, f1Of_pack, b0Of_pack] at h ⊢
  obtain ⟨ht, hi, ho, -, -, hb⟩ := h
  rw [show topOf 0xFE01#16 = 3#2 from rfl, and_ones2] at ht
  rw [show iOf 0xFE01#16 = 1#1 from rfl, and_ones1] at hi
  rw [show opOf 0xFE01#16 = 15#4 from rfl, and_ones4] at ho
  rw [show b0Of 0xFE01#16 = 1#1 from rfl, and_ones1] at hb
  rw [ht, hi, ho, hb]

/-- A word of the special format is decoded by its three fields (R87). -/
theorem decodeWords_special : decodeWords (pack 0b01#2 1#1 op f2 f1 0#1) v = decodeSpecial op f2 f1 := decodeWords_pack01

/-- With its fixed fields ignored a word of the special format stays one, and R106 says which (R108). -/
theorem listedFirst_special :
    listedFirst (pack 0b01#2 1#1 0b1100#4 f2 f1 0#1) = pack 0b01#2 1#1 0b1100#4 0b1111#4 0b1111#4 0#1 ∧
      listedFirst (pack 0b01#2 1#1 0b1101#4 f2 f1 0#1) = pack 0b01#2 1#1 0b1101#4 0b1111#4 f1 0#1 ∧
      listedFirst (pack 0b01#2 1#1 0b1110#4 f2 f1 0#1) =
        pack 0b01#2 1#1 0b1110#4 (0b111#3 ++ f2.extractLsb' 0 1) 0b1111#4 0#1 ∧
      listedFirst (pack 0b01#2 1#1 0b1111#4 f2 f1 0#1) = pack 0b01#2 1#1 0b1111#4 0b1111#4 0b1111#4 0#1 := by
  simp [listedFirst]

/-- DI and EI differ in bit 5 alone (R106). -/
theorem decodeSpecial_enable (b : BitVec 1) :
    decodeSpecial 0b1110#4 (0b111#3 ++ b) 0b1111#4 = .ok (if b = 1#1 then .ei else .di) := by
  rcases bit_cases b with rfl | rfl <;> rfl

/-- A BAL, by its fixed fields (R97). -/
theorem bal_of_masked (h : w &&& 0xFE0F = 0x340E) :
    w = pack 0b00#2 1#1 0b1010#4 (f2Of w) (f1Of w) 0#1 ∧ (f1Of w).extractLsb' 0 3 = 0b111#3 := by
  rw [← pack_fields w] at h ⊢
  generalize topOf w = top, iOf w = i, opOf w = op, f2Of w = f2, f1Of w = f1, b0Of w = b0 at h ⊢
  simp only [masked_iff, topOf, iOf, opOf, f2Of, f1Of, b0Of, nibble_mask_iff, BitVec.reduceExtractLsb',
    BitVec.ofNat_eq_ofNat, BitVec.and_zero, and_ones1, and_ones2, and_ones4, true_and] at h
  obtain ⟨rfl, rfl, rfl, hn, rfl⟩ := h
  simpa using hn

/-- A second word with its lowest bit cleared (R104). -/
theorem clear_lowest_bit (v : Word) : v.extractLsb' 1 15 ++ 0#1 = v &&& 0xFFFE#16 := by
  have hv : v = v.extractLsb' 1 15 ++ v.extractLsb' 0 1 := ((extract_adjacent v 0 1 15).trans (extract_all v)).symm
  have hm : 0xFFFE#16 = BitVec.allOnes 15 ++ 0#1 := rfl
  conv => rhs; rw [hv, hm]
  rw [BitVec.and_append, BitVec.and_allOnes, BitVec.and_zero]

/-- Bit 5 of a word is the lowest bit of operand 2 (R82, R106). -/
theorem f2Of_lowest_bit (w : Word) : (f2Of w).extractLsb' 0 1 = BitVec.ofBool (w.getLsbD 5) := by
  apply BitVec.eq_of_getLsbD_eq
  intro k hk
  obtain rfl : k = 0 := by omega
  simp [f2Of]

/-- Bit 4 of a word, bit 16 of the displacement of a BAL, is the highest bit of operand 1 (R82, R97). -/
theorem f1Of_highest_bit (w : Word) : (f1Of w).extractLsb' 3 1 = w.extractLsb' 4 1 := by
  apply BitVec.eq_of_getLsbD_eq
  intro k hk
  obtain rfl : k = 0 := by omega
  simp [f1Of]

/-- A BAL keeps its first word when fixed fields are ignored, and with displacement bit 0 cleared it is decoded (R97, R104). -/
theorem bal_of_ignored_bit (hn : f1.extractLsb' 0 3 = 0b111#3) :
    listedFirst (pack 0b00#2 1#1 0b1010#4 f2 f1 0#1) = pack 0b00#2 1#1 0b1010#4 f2 f1 0#1 ∧
      isLong (pack 0b00#2 1#1 0b1010#4 f2 f1 0#1) = true ∧
      decodeWords (pack 0b00#2 1#1 0b1010#4 f2 f1 0#1) (listedSecond (pack 0b00#2 1#1 0b1010#4 f2 f1 0#1) v) =
        .ok (.bal f2 (f1.extractLsb' 3 1 ++ (v &&& 0xFFFE))) := by
  refine ⟨?_, ?_, ?_⟩
  · simp [listedFirst, medium_nibble hn]
  · rw [isLong_pack00]
    simp [hn]
  · have hs : listedSecond (pack 0b00#2 1#1 0b1010#4 f2 f1 0#1) v = v &&& 0xFFFE := by
      refine Eq.trans ?_ (clear_lowest_bit v)
      simp [listedSecond]
    rw [hs, decodeWords_pack00 (by simp [pack_eq_nop]), decode00_bal hn (by simp)]

end Sys2Proof
end

section
/-! The acknowledge sequence in memory as `entered` says it, and what a step does at words fetched as they stand in memory:
unlisted encodings, words of Table A-2 (spec/30_encoding.md R103, R108; spec/60_exceptions.md R218, R220). -/

namespace Sys2Proof.Machine

open Sys2Proof

variable {s t u : State} {a : Addr} {i : Instr} {w v : Word} {why : Reject}

/-! ## The acknowledge sequence in memory (spec/60_exceptions.md R220, R223) -/

/-- The 16-bit image of a code address is its bits 16 to 1 (spec/10_state.md R15). -/
theorem wordOfCode_eq_toHalf (a : Addr) : wordOfCode a = toHalf a := by
  apply BitVec.eq_of_getLsbD_eq
  intro k hk
  simp [wordOfCode, toHalf, hk]

/-- The code address of 16 bits (spec/10_state.md R15). -/
theorem codeOfWord_eq_fromHalf (v : Word) : codeOfWord v = fromHalf v := by
  have := v.isLt
  apply BitVec.eq_of_toNat_eq
  rw [fromHalf_toNat, codeOfWord, BitVec.toNat_shiftLeft, BitVec.toNat_setWidth, Nat.shiftLeft_eq]
  omega

/-- The two words of a frame in memory, and the bytes around it (R220, R223). -/
theorem frame_memory (s : State) (hw : s.mem.wf = true) (home status : Word) :
    let isp := movedIsp s.isp (-4#16)
    let mem := (s.mem.writeWord isp home).writeWord (isp + 2) status
    wordAt mem isp.toNat = home ∧ wordAt mem (isp.toNat + 2) = status ∧
      ∀ x, x < isp.toNat ∨ isp.toNat + 4 ≤ x → mem.read x = s.mem.read x := by
  intro isp mem
  obtain ⟨h2, n0, n2⟩ := frame_words s
  rw [← pushed_toNat] at h2
  have h1 : (isp + 1).toNat = isp.toNat + 1 := succ_toNat n0
  have h3 : (isp + 2 + 1).toNat = isp.toNat + 3 := (succ_toNat n2).trans (by rw [h2])
  have hread (x : Nat) : mem.read x =
      if x = isp.toNat + 3 then status.extractLsb' 8 8 else if x = isp.toNat + 2 then status.extractLsb' 0 8
      else if x = isp.toNat + 1 then home.extractLsb' 8 8 else if x = isp.toNat then home.extractLsb' 0 8
      else s.mem.read x := by
    rw [Memory.read_writeWord _ _ (Memory.wf_writeWord _ _ hw), Memory.read_writeWord _ _ hw, h1, h2, h3]
  refine ⟨?_, ?_, fun x hx => ?_⟩
  · simp [wordAt, hread, word_of_halves]
  · simp [wordAt, hread, word_of_halves]
  · rw [hread, if_neg (by omega), if_neg (by omega), if_neg (by omega), if_neg (by omega)]

/-- The acknowledge sequence whose frame and table entry lie in memory leads to the state that R220 says. -/
theorem enterException_entered {e : Exc} (hw : s.mem.wf = true) (h : entersInMemory s (vectorOf s.params e)) :
    ∃ t, enterException e s = .ok t ∧
      entered s t (s.psr.pushed e) (s.psr.i && !e.isInterrupt) (vectorOf s.params e) := by
  obtain ⟨hhome, hstatus, hrest⟩ := frame_memory s hw (toHalf s.pc)
    ((s.psr.pushed e).word (s.unspecified.extractLsb' 0 4))
  refine ⟨_, enterException_memory h, ?_, ?_, ?_, hrest, rfl, ?_, rfl⟩
  · rw [← pushed_toNat, BitVec.ofNat_toNat, BitVec.setWidth_eq]
  · rw [wordOfCode_eq_toHalf]
    exact hhome
  · rw [hstatus]
    exact showsPsr_word _ _
  · rw [codeOfWord_eq_fromHalf]

/-! ## A step at words fetched as they stand in memory (spec/60_exceptions.md R218, spec/20_memory.md R57) -/

/-- Where UNLISTED_ENCODING ignores fixed fields the first word is decoded with its listed ones (R108). -/
theorem firstWord_ignoreFields (hu : s.params.unlistedEncoding = .ignoreFields) (w : Word) :
    s.firstWord w = listedFirst w := by
  rw [State.firstWord, hu]

/-- Where UNLISTED_ENCODING ignores no field the first word is decoded as it is (R108). -/
theorem firstWord_kept (hu : s.params.unlistedEncoding ≠ .ignoreFields) (w : Word) : s.firstWord w = w := by
  rw [State.firstWord]
  split
  · exact absurd ‹_› hu
  · rfl
  · rfl

/-- The fetch of an instruction whose words are fetched answers what they are under UNLISTED_ENCODING (R81, R108). -/
theorem fetchInstr_ok_of_words {j : Option Instr} (h1 : fetch16 s s.pc = .ok (w, s))
    (h2 : fetchSecond (s.firstWord w) s = .ok (v, s))
    (hd : decodeUnder s.params.unlistedEncoding (s.firstWord w) v = .ok j) : fetchInstr s = .ok (j, s) := by
  simp only [fetchInstr, h1, bind, Except.bind, h2, hd]
  rfl

/-- The fetch of an instruction whose words have no meaning under UNLISTED_ENCODING is refused (R108). -/
theorem fetchInstr_rejected (h1 : fetch16 s s.pc = .ok (w, s)) (h2 : fetchSecond (s.firstWord w) s = .ok (v, s))
    (hd : decodeUnder s.params.unlistedEncoding (s.firstWord w) v = .error why) :
    fetchInstr s = .error (.refusal (.rejected why)) := by
  simp only [fetchInstr, h1, bind, Except.bind, h2, hd]

/-- The first word of the instruction of a step (R57, R218). -/
theorem fetch16_started (hpc : s.pcLegal) (h : fetchesMemory s 2) :
    fetch16 s.started s.started.pc = .ok (wordAt s.mem s.pc.toNat, s.started) :=
  fetch16_pc (s := s.started) hpc h

/-- A step that begins an instruction executes the one that is fetched (R218). -/
theorem step_of_fetched (hr : s.runsInstr) (h : fetchInstr s.started = .ok (some i, u)) : step s = exec i u := by
  have h' : fetchInstr { s.nextBoundary with psr := { s.nextBoundary.psr with p := s.nextBoundary.psr.t } } =
    .ok (some i, u) := h
  rw [step_of_runsInstr hr, runInstr, h']

/-- A step that begins an instruction traps as UND where what is fetched raises it (R108, R218). -/
theorem step_of_fetched_und (hr : s.runsInstr) (h : fetchInstr s.started = .ok (none, u)) :
    step s = finish (enterException .und u) := by
  have h' : fetchInstr { s.nextBoundary with psr := { s.nextBoundary.psr with p := s.nextBoundary.psr.t } } =
    .ok (none, u) := h
  rw [step_of_runsInstr hr, runInstr, h']

/-- The UND trap of a step whose frame and table entry lie in memory (R220). -/
theorem und_entered (hw : s.mem.wf = true) (h : entersInMemory s.started 10) :
    ∃ t, finish (enterException .und s.started) = .next t ∧ entered s.started t s.started.psr s.psr.i 10 := by
  obtain ⟨t, ht, he⟩ := enterException_entered (s := s.started) (e := .und) hw h
  have hi : (s.started.psr.i && !Exc.isInterrupt .und) = s.psr.i := Bool.and_true _
  rw [hi] at he
  exact ⟨t, finish_eq_next.2 ht, he⟩

/-- A word of Table A-2 is the UND trap (R103, R213). -/
theorem exec_und (p : UndPattern) (s : State) : exec (.und p) s = finish (enterException .und s) := rfl

/-- EXCP is the trap its vector selects (spec/47_jumps_linkage.md R174). -/
theorem exec_excp (vector : BitVec 4) (s : State) : exec (.excp vector) s = finish (enterException (trapOf vector) s) := rfl

/-- The second word of a first word that has none (R100). -/
theorem fetchSecond_short (h : isLong w = false) : fetchSecond w s = .ok (0#16, s) := by simp [fetchSecond, h]

/-- The second word at a legal PC, where a fetch sees memory as it is (R57, D4). -/
theorem fetch16_second (hpc : s.pcLegal) (htop : s.pc.toNat + 4 ≤ 0x20000 ∨ s.params.pcWrap = .moduloSplit)
    (h : fetchesMemory s 4) :
    fetch16 s s.secondAddr = .ok (s.mem.read (codeByte s 3) ++ s.mem.read (codeByte s 2), s) := by
  obtain ⟨hlt, heven⟩ := pcLegal_toNat hpc
  have c2 : s.secondAddr.toNat = codeByte s 2 := by
    rcases htop with htop | htop
    · rw [secondAddr_toNat (by omega), codeByte, Nat.mod_eq_of_lt (by omega)]
    · simp only [State.secondAddr, htop, State.nextPc, BitVec.toNat_ofNat, codeByte]
      omega
  have c3 : codeByte s 3 = s.secondAddr.toNat + 1 := by
    rw [c2, codeByte, codeByte]
    omega
  have hbound : s.secondAddr.toNat < 0x20000 := by
    rw [c2]
    exact Nat.mod_lt _ (by decide)
  have h2even : s.secondAddr.toNat % 2 = 0 := by
    rw [c2, codeByte]
    omega
  obtain ⟨m2, e2⟩ := h 2 (by decide)
  obtain ⟨m3, e3⟩ := h 3 (by decide)
  rw [← c2] at m2 e2 ⊢
  rw [c3] at m3 e3 ⊢
  refine fetch16_wordAt hbound ?_ e2 e3
  rcases m3 with m | m | m
  · exact .inl m
  · exact .inr (.inl (by omega))
  · exact .inr (.inr m)

/-- What a step fetches after a first word that is decoded as it is: the second word where there is one, else a word that is not
looked at (R81, R100). -/
theorem fetchSecond_started (hpc : s.pcLegal)
    (hlong : isLong w = true → (s.pc.toNat + 4 ≤ 0x20000 ∨ s.params.pcWrap = .moduloSplit) ∧ fetchesMemory s 4 ∧
      v = s.mem.read (codeByte s 3) ++ s.mem.read (codeByte s 2)) :
    ∃ v', fetchSecond w s.started = .ok (v', s.started) ∧ decodeWords w v' = decodeWords w v ∧ (isLong w = true → v' = v) := by
  cases hl : isLong w with
  | false => exact ⟨0#16, fetchSecond_short hl, decodeWords_short hl _ _, nofun⟩
  | true =>
    obtain ⟨htop, hmem, rfl⟩ := hlong hl
    refine ⟨_, ?_, rfl, fun _ => rfl⟩
    rw [fetchSecond, if_pos hl]
    exact fetch16_second (s := s.started) hpc htop hmem

/-- Settles O36: a word of Table A-2 is decoded as one whatever UNLISTED_ENCODING is, and its meaning is the UND trap. -/
theorem undefinedWordTraps : Obligations.UndefinedWordTraps := by
  intro s hwf hrun hpc hmem hent hmask
  obtain ⟨p, hp⟩ := undefined_of_masked hmask
  have hd := decodeWords_encodeUnd p 0#16
  rw [← hp] at hd
  have hl : isLong (wordAt s.mem s.pc.toNat) = false := hp ▸ isLong_encodeUnd p
  have hfirst : s.started.firstWord (wordAt s.mem s.pc.toNat) = wordAt s.mem s.pc.toNat := firstWord_of_decoded hd
  have hf : fetchInstr s.started = .ok (some (.und p), s.started) := by
    refine fetchInstr_ok_of_words (fetch16_started hpc hmem) (v := 0#16) ?_ ?_
    · rw [hfirst, fetchSecond_short hl]
    · rw [hfirst, decodeUnder_of_decoded _ hd]
  rw [step_of_fetched hrun hf, exec_und]
  exact und_entered hwf hent

/-- A first word of the special format whose fixed fields are ignored runs as the instruction that then stands there (R106,
R108, D8). -/
theorem step_of_listed_special {op f2 f1 g2 g1 : BitVec 4} (hu : s.params.unlistedEncoding = .ignoreFields)
    (hr : s.runsInstr) (h1 : fetch16 s.started s.started.pc = .ok (w, s.started))
    (hg : listedFirst (pack 0b01#2 1#1 op f2 f1 0#1) = pack 0b01#2 1#1 op g2 g1 0#1)
    (hw : w = pack 0b01#2 1#1 op f2 f1 0#1) (hd : decodeSpecial op g2 g1 = .ok i) : step s = exec i s.started := by
  have hu' : s.started.params.unlistedEncoding = .ignoreFields := hu
  have hfirst : s.started.firstWord w = pack 0b01#2 1#1 op g2 g1 0#1 := by rw [firstWord_ignoreFields hu', hw, hg]
  refine step_of_fetched hr (fetchInstr_ok_of_words h1 (v := 0#16) ?_ ?_)
  · rw [hfirst, fetchSecond_short isLong_pack01]
  · rw [hfirst, hu', decodeUnder, decodeWords_special, hd]
    rfl

/-- A BAL with an odd displacement runs with bit 0 of it cleared where UNLISTED_ENCODING ignores it (R104, R108, D14). -/
theorem step_of_odd_bal (hu : s.params.unlistedEncoding = .ignoreFields) (hr : s.runsInstr)
    (h1 : fetch16 s.started s.started.pc = .ok (w, s.started)) (hm : w &&& 0xFE0F = 0x340E)
    (h2 : isLong w = true → fetchSecond w s.started = .ok (v, s.started)) :
    step s = exec (.bal (w.extractLsb' 5 4) (w.extractLsb' 4 1 ++ (v &&& 0xFFFE))) s.started := by
  have hu' : s.started.params.unlistedEncoding = .ignoreFields := hu
  obtain ⟨hbal, hn⟩ := bal_of_masked hm
  obtain ⟨hlisted, hl, hd⟩ := bal_of_ignored_bit (f2 := f2Of w) (v := v) hn
  rw [← hbal] at hlisted hl hd
  have hfirst : s.started.firstWord w = w := by rw [firstWord_ignoreFields hu', hlisted]
  refine step_of_fetched hr (fetchInstr_ok_of_words h1 (hfirst.symm ▸ h2 hl) ?_)
  rw [hfirst, hu', decodeUnder, hd, f1Of_highest_bit]
  rfl

/-- Settles O59: what the decoder finds no instruction in is refused or raises UND, and ignored fixed fields make it the
instruction with the listed ones. -/
theorem unlistedEncodingStep : Obligations.UnlistedEncodingStep := by
  intro s w v why hrun hpc hmem hw hlong hd
  have h1 : fetch16 s.started s.started.pc = .ok (w, s.started) := hw ▸ fetch16_started hpc hmem
  obtain ⟨v', h2, hv', hsecond⟩ := fetchSecond_started hpc hlong
  rw [← hv'] at hd
  refine ⟨fun hu => ?_, fun hu hwf hent => ?_, fun hu => ?_⟩
  · have hu' : s.started.params.unlistedEncoding = .refuse := hu
    have hfirst : s.started.firstWord w = w := firstWord_kept (by simp [hu']) w
    refine step_fetch_stops hrun (fetchInstr_rejected h1 (hfirst.symm ▸ h2) ?_)
    rw [hfirst, hu', decodeUnder, hd]
    rfl
  · have hu' : s.started.params.unlistedEncoding = .raiseUnd := hu
    have hfirst : s.started.firstWord w = w := firstWord_kept (by simp [hu']) w
    have hf : fetchInstr s.started = .ok (none, s.started) := by
      refine fetchInstr_ok_of_words h1 (hfirst.symm ▸ h2) ?_
      rw [hfirst, hu', decodeUnder, hd]
    rw [step_of_fetched_und hrun hf]
    exact und_entered hwf hent
  · obtain ⟨hretx, hexcp, henable, hwait⟩ := listedFirst_special (f2 := f2Of w) (f1 := f1Of w)
    refine ⟨fun hm => ?_, fun hm => ?_, fun hm => ?_, fun hm => ?_, fun hm => ?_⟩
    · exact step_of_listed_special hu hrun h1 hretx (special_of_masked hm) rfl
    · exact step_of_listed_special hu hrun h1 hexcp (special_of_masked hm) rfl
    · refine step_of_listed_special hu hrun h1 henable (special_of_masked hm) ?_
      rw [f2Of_lowest_bit, decodeSpecial_enable]
      cases w.getLsbD 5 <;> rfl
    · exact step_of_listed_special hu hrun h1 hwait (special_of_masked hm) rfl
    · exact step_of_odd_bal hu hrun h1 hm fun hl => hsecond hl ▸ h2

/-! ## EXCP with a reserved vector (spec/30_encoding.md R105) -/

/-- A vector that names no trap raises UND (R102, R105). -/
theorem trapOf_reserved {v : BitVec 4} (h : ¬ (v = 5 ∨ v = 6 ∨ v = 7 ∨ v = 8 ∨ v = 10)) : trapOf v = .und := by
  revert v
  decide

/-- Settles O32: the reserved vector and UND select the same trap, whose entry is `enterException_entered`. -/
theorem reservedVectorRaisesUnd : Obligations.ReservedVectorRaisesUnd := by
  intro s v hv
  rw [exec_excp, exec_excp, trapOf_reserved hv]
  refine ⟨rfl, fun hwf hent => ?_⟩
  obtain ⟨t, ht, -, hhome, -, -, -, hpc, -⟩ := enterException_entered (e := .und) hwf hent
  exact ⟨t, finish_eq_next.2 ht, hhome, hpc⟩

/-! ## Source operands (spec/30_encoding.md R113) -/

/-- The signed value of a short immediate in either width (R85). -/
theorem srcVal_short (s : State) (w : Width) (imm : BitVec 5) : (s.srcVal w (.short imm)).toInt = imm.toInt := by
  cases w with
  | byte =>
    change ((imm.signExtend 16).setWidth 8).toInt = imm.toInt
    revert imm
    decide
  | word =>
    change ((imm.signExtend 16).setWidth 16).toInt = imm.toInt
    rw [BitVec.setWidth_eq, BitVec.toInt_signExtend_of_le (by decide)]

/-- The low byte of a word, as a narrower word (R12). -/
theorem setWidth_eq_lowByte (v : Word) : v.setWidth 8 = lowByte v := by
  rw [lowByte, BitVec.setWidth_eq_extractLsb' (by decide)]

/-- Settles O2. -/
theorem sourceOperandValues : Obligations.SourceOperandValues := by
  intro s rs imm5 imm16
  refine ⟨⟨?_, ?_⟩, ⟨srcVal_short s .word imm5, srcVal_short s .byte imm5⟩, ⟨?_, ?_⟩, rfl, rfl, rfl⟩
  · exact BitVec.setWidth_eq _
  · exact setWidth_eq_lowByte _
  · exact BitVec.setWidth_eq _
  · exact setWidth_eq_lowByte _

/-! ## Encodings written out in the spec (spec/95_test_vectors.md section 1) -/

/-- Settles O60, by running the decoder. -/
theorem wordsOfTheSpecDecode : Obligations.WordsOfTheSpecDecode := by
  unfold Obligations.WordsOfTheSpecDecode
  decide

end Sys2Proof.Machine
end

section
/-! What an instruction that writes one register leaves, as `State.result` says it (spec/10_state.md R12, R17), and the
moves (spec/40_moves.md). -/

namespace Sys2Proof.Machine

open Sys2Proof

/-! ## Results in a register -/

/-- A register write followed by the advance of the PC (R17, log 14). -/
theorem setReg_advance (s : State) (r : Reg) (v : Word) (len : Nat) :
    (s.setReg r v).advance len = s.result r v len := rfl

/-- A byte result keeps the high byte of its register (R12). -/
theorem writeLow_byte_advance (s : State) (r : Reg) (v : Byte) (len : Nat) :
    (s.writeLow r .byte v).advance len = s.result r (byteInto (s.reg r) v) len := setReg_advance s r _ len

/-- A word result replaces its register (R12). -/
theorem writeLow_word_advance (s : State) (r : Reg) (v : Word) (len : Nat) :
    (s.writeLow r .word v).advance len = s.result r v len := setReg_advance s r v len

/-- A byte operand in a register is the register's low byte (R12). -/
theorem low_byte (s : State) (r : Reg) : s.low r .byte = lowByte (s.reg r) := setWidth_eq_lowByte _

/-! ## Moves (spec/40_moves.md R120 to R122) -/

/-- MOVB copies its byte source operand into the low byte of the destination (R120). -/
theorem exec_movb (s : State) (src : Src) (rd : Reg) :
    exec (.movb src rd) s = .next (s.result rd (byteInto (s.reg rd) (s.srcVal .byte src)) src.len) :=
  congrArg Host.Outcome.next (writeLow_byte_advance s rd _ src.len)

/-- MOVW copies its word source operand into the destination (R120). -/
theorem exec_movw (s : State) (src : Src) (rd : Reg) :
    exec (.movw src rd) s = .next (s.result rd (s.srcVal .word src) src.len) :=
  congrArg Host.Outcome.next (writeLow_word_advance s rd _ src.len)

/-- MOVXB sign-extends the low byte of its source register (R121). -/
theorem exec_movxb (s : State) (rs rd : Reg) :
    exec (.movxb rs rd) s = .next (s.result rd ((lowByte (s.reg rs)).signExtend 16) 2) := by
  rw [← low_byte, ← setReg_advance]
  rfl

/-- MOVZB zero-extends the low byte of its source register (R122). -/
theorem exec_movzb (s : State) (rs rd : Reg) :
    exec (.movzb rs rd) s = .next (s.result rd ((lowByte (s.reg rs)).setWidth 16) 2) := by
  rw [← low_byte, ← setReg_advance]
  rfl

/-- Settles O1: sign extension is the word of the signed value, zero extension that of the unsigned one. -/
theorem moveResults : Obligations.MoveResults := by
  intro s src rs rd
  refine ⟨exec_movb s src rd, exec_movw s src rd, ?signExtended, ?zeroExtended⟩
  case signExtended => rw [exec_movxb, BitVec.signExtend]
  case zeroExtended => rw [exec_movzb, BitVec.ofNat_toNat]

end Sys2Proof.Machine
end

section
/-! Integer arithmetic (spec/41_integer_arithmetic.md R130 to R136): the value and the flags of sums and differences in
operations on bit vectors of any width, what ADDi, SUBi, ADDUi and MULi leave, and sums and differences over two registers. -/

namespace Sys2Proof.Machine

open Sys2Proof

variable {v w : Nat}

/-! ## Sums and differences (R130) -/

/-- A sum with its carry in, by the operations on bit vectors (R130). -/
theorem addition_eq (a b : BitVec w) (cin : Bool) :
    addition a b cin = ⟨a + b + BitVec.ofNat w cin.toNat, decide (2 ^ w ≤ a.toNat + b.toNat + cin.toNat),
      signedOut w (a.toInt + b.toInt + (cin.toNat : Int))⟩ := by
  have hvalue : BitVec.ofNat w (a.toNat + b.toNat + cin.toNat) = a + b + BitVec.ofNat w cin.toNat := by
    simp only [BitVec.ofNat_add, BitVec.ofNat_toNat, BitVec.setWidth_eq]
  rw [addition, hvalue]

/-- A sum without carry in (R131, R132). -/
theorem addition_false (a b : BitVec w) :
    addition a b false = ⟨a + b, decide (2 ^ w ≤ a.toNat + b.toNat), signedOut w (a.toInt + b.toInt)⟩ := by
  simp [addition_eq]

/-- A difference with its borrow in, by the operations on bit vectors; the carry is the borrow (R130, C2, log 27). -/
theorem subtraction_eq (a b : BitVec w) (cin : Bool) :
    subtraction a b cin = ⟨a - b - BitVec.ofNat w cin.toNat, decide (a.toNat < b.toNat + cin.toNat),
      signedOut w (a.toInt - b.toInt - (cin.toNat : Int))⟩ := by
  have hvalue : BitVec.ofInt w ((a.toNat : Int) - b.toNat - cin.toNat) = a - b - BitVec.ofNat w cin.toNat := by
    simp only [Int.sub_eq_add_neg, BitVec.ofInt_add, BitVec.ofInt_neg, BitVec.ofInt_natCast, BitVec.ofNat_toNat,
      BitVec.setWidth_eq, BitVec.sub_eq_add_neg]
  have hborrow : ((a.toNat : Int) - b.toNat - cin.toNat < 0) ↔ a.toNat < b.toNat + cin.toNat := by omega
  simp only [subtraction, hvalue, hborrow]

/-- A difference without borrow in (R135). -/
theorem subtraction_false (a b : BitVec w) :
    subtraction a b false = ⟨a - b, decide (a.toNat < b.toNat), signedOut w (a.toInt - b.toInt)⟩ := by
  simp [subtraction_eq]

/-- The signed values that do not fit a byte (R130). -/
theorem signedOut_byte (x : Int) : signedOut 8 x = decide (x < -128 ∨ 127 < x) := by
  simp [signedOut]

/-- The signed values that do not fit a word (R130). -/
theorem signedOut_word (x : Int) : signedOut 16 x = decide (x < -32768 ∨ 32767 < x) := by
  simp [signedOut]

/-! ## What the instructions leave (R131 to R136) -/

/-- A word operand in a register is the register (R12). -/
theorem low_word (s : State) (r : Reg) : s.low r .word = s.reg r := BitVec.setWidth_eq _

/-- A byte addition adds to the low byte of its destination (R131, R133). -/
theorem addOp_byte (cin : Bool) (src : Src) (rd : Reg) (s : State) :
    addOp .byte cin src rd s =
      s.writeSum rd .byte (addition (lowByte (s.reg rd)) (s.srcVal .byte src : Byte) cin) src.len := by
  rw [← low_byte]
  rfl

/-- A word addition adds to its destination (R131, R133). -/
theorem addOp_word (cin : Bool) (src : Src) (rd : Reg) (s : State) :
    addOp .word cin src rd s = s.writeSum rd .word (addition (s.reg rd) (s.srcVal .word src : Word) cin) src.len := by
  rw [← low_word]
  rfl

/-- A byte subtraction subtracts from the low byte of its destination (R135, R136). -/
theorem subOp_byte (cin : Bool) (src : Src) (rd : Reg) (s : State) :
    subOp .byte cin src rd s =
      s.writeSum rd .byte (subtraction (lowByte (s.reg rd)) (s.srcVal .byte src : Byte) cin) src.len := by
  rw [← low_byte]
  rfl

/-- A word subtraction subtracts from its destination (R135, R136). -/
theorem subOp_word (cin : Bool) (src : Src) (rd : Reg) (s : State) :
    subOp .word cin src rd s =
      s.writeSum rd .word (subtraction (s.reg rd) (s.srcVal .word src : Word) cin) src.len := by
  rw [← low_word]
  rfl

/-- Settles O3: the sum without carry in. -/
theorem addResults : Obligations.AddResults := by
  intro s src rd
  refine ⟨congrArg Host.Outcome.next ?byte, congrArg Host.Outcome.next ?word⟩
  case byte =>
    rw [addOp_byte, addition_false, signedOut_byte]
    rfl
  case word =>
    rw [addOp_word, addition_false, signedOut_word]
    rfl

/-- Settles O5: the carry in is the old C. -/
theorem addCarryResults : Obligations.AddCarryResults := by
  intro s src rd
  refine ⟨congrArg Host.Outcome.next ?byte, congrArg Host.Outcome.next ?word⟩
  case byte =>
    rw [addOp_byte, addition_eq, signedOut_byte]
    rfl
  case word =>
    rw [addOp_word, addition_eq, signedOut_word]
    rfl

/-- Settles O6: the difference without borrow in; C is the borrow (C2, log 27). -/
theorem subtractResults : Obligations.SubtractResults := by
  intro s src rd
  refine ⟨congrArg Host.Outcome.next ?byte, congrArg Host.Outcome.next ?word⟩
  case byte =>
    rw [subOp_byte, subtraction_false, signedOut_byte]
    rfl
  case word =>
    rw [subOp_word, subtraction_false, signedOut_word]
    rfl

/-- Settles O7: the borrow in is the old C. -/
theorem subtractCarryResults : Obligations.SubtractCarryResults := by
  intro s src rd
  refine ⟨congrArg Host.Outcome.next ?byte, congrArg Host.Outcome.next ?word⟩
  case byte =>
    rw [subOp_byte, subtraction_eq, signedOut_byte]
    rfl
  case word =>
    rw [subOp_word, subtraction_eq, signedOut_word]
    rfl

/-- The signed product cut to a width is the product of the bit vectors (R134). -/
theorem ofInt_toInt_mul_toInt (a b : BitVec w) : BitVec.ofInt w (a.toInt * b.toInt) = a * b := by
  rw [BitVec.ofInt_mul, BitVec.ofInt_toInt, BitVec.ofInt_toInt]

/-- Settles O4: the register write is all they do, so no flag moves. -/
theorem flaglessSumAndProductResults : Obligations.FlaglessSumAndProductResults := by
  intro s src rd
  refine ⟨congrArg Host.Outcome.next ?addub, congrArg Host.Outcome.next ?adduw, congrArg Host.Outcome.next ?mulb,
    congrArg Host.Outcome.next ?mulw⟩
  case addub => rw [adduOp, low_byte, addition_false, writeLow_byte_advance]
  case adduw => rw [adduOp, low_word, addition_false, writeLow_word_advance]
  case mulb => rw [mulOp, low_byte, ofInt_toInt_mul_toInt, writeLow_byte_advance]
  case mulw => rw [mulOp, low_word, ofInt_toInt_mul_toInt, writeLow_word_advance]

/-! ## Sums and differences over two registers (R136) -/

/-- `x` and the carry `c` are together the exact unsigned sum of `a`, `b` and the carry `cin` (R130). -/
def IsSum (a b : BitVec w) (cin : Bool) (x : BitVec w) (c : Bool) : Prop :=
  c.toNat * 2 ^ w + x.toNat = a.toNat + b.toNat + cin.toNat

variable {a b x : BitVec w} {cin c : Bool}

/-- An addition answers the exact sum, cut into value and carry. -/
theorem isSum_iff_addition : IsSum a b cin x c ↔ (addition a b cin).value = x ∧ (addition a b cin).carry = c := by
  have hx := x.isLt
  constructor
  · intro h
    rw [addition, ← h]
    constructor
    · apply BitVec.eq_of_toNat_eq
      rw [BitVec.toNat_ofNat, Nat.mul_add_mod', Nat.mod_eq_of_lt hx]
    · cases c <;> simp [hx]
  · rintro ⟨rfl, rfl⟩
    have ha := a.isLt
    have hb := b.isLt
    have hcin := cin.toNat_le
    simp only [IsSum, addition, BitVec.toNat_ofNat]
    by_cases hle : 2 ^ w ≤ a.toNat + b.toNat + cin.toNat
    · rw [Nat.mod_eq_sub_mod hle, Nat.mod_eq_of_lt (by omega)]
      simp only [hle, decide_true, Bool.toNat_true]
      omega
    · rw [Nat.mod_eq_of_lt (by omega)]
      simp [hle]

/-- Where `x` is what must be added to `b` to give `a`, the carry is the borrow of `a - b` (C2, log 27). -/
theorem IsSum.borrow (h : IsSum b x cin a c) : c = decide (a.toNat < b.toNat + cin.toNat) := by
  have hx := x.isLt
  rw [IsSum] at h
  cases c <;> simp at h ⊢ <;> omega

/-- A subtraction answers what must be added to `b` to give `a`, and its borrow is the carry of that sum. -/
theorem isSum_iff_subtraction :
    IsSum b x cin a c ↔ (subtraction a b cin).value = x ∧ (subtraction a b cin).carry = c := by
  rw [subtraction_eq]
  constructor
  · intro h
    obtain ⟨hvalue, -⟩ := isSum_iff_addition.1 h
    refine ⟨?_, h.borrow.symm⟩
    rw [← hvalue, addition_eq]
    grind
  · rintro ⟨hvalue, rfl⟩
    have hsum : (addition b x cin).value = a := by
      rw [addition_eq, ← hvalue]
      grind
    have h : IsSum b x cin a (addition b x cin).carry := isSum_iff_addition.2 ⟨hsum, rfl⟩
    rwa [← h.borrow]

/-- The value of two bit vectors side by side. -/
theorem toNat_append_eq_add (hi : BitVec v) (lo : BitVec w) : (hi ++ lo).toNat = hi.toNat * 2 ^ w + lo.toNat := by
  rw [BitVec.toNat_append, ← Nat.shiftLeft_add_eq_or_of_lt lo.isLt, Nat.shiftLeft_eq]

/-- A sum of the low parts and one of the high parts with its carry are the sum of the whole. -/
theorem IsSum.append {a' b' x' : BitVec v} {c' : Bool} (hlo : IsSum a b cin x c) (hhi : IsSum a' b' c x' c') :
    IsSum (a' ++ a) (b' ++ b) cin (x' ++ x) c' := by
  simp only [IsSum, toNat_append_eq_add] at hlo hhi ⊢
  calc c'.toNat * 2 ^ (v + w) + (x'.toNat * 2 ^ w + x.toNat)
      = (c'.toNat * 2 ^ v + x'.toNat) * 2 ^ w + x.toNat := by ring
    _ = (a'.toNat + b'.toNat) * 2 ^ w + (c.toNat * 2 ^ w + x.toNat) := by rw [hhi]; ring
    _ = a'.toNat * 2 ^ w + a.toNat + (b'.toNat * 2 ^ w + b.toNat) + cin.toNat := by rw [hlo]; ring

/-- Additions of the low and of the high part, the carry in between, add the whole (R133). -/
theorem addition_append (a b : BitVec w) (a' b' : BitVec v) (cin : Bool) :
    (addition (a' ++ a) (b' ++ b) cin).value =
        (addition a' b' (addition a b cin).carry).value ++ (addition a b cin).value ∧
      (addition (a' ++ a) (b' ++ b) cin).carry = (addition a' b' (addition a b cin).carry).carry :=
  isSum_iff_addition.1 (.append (isSum_iff_addition.2 ⟨rfl, rfl⟩) (isSum_iff_addition.2 ⟨rfl, rfl⟩))

/-- Subtractions of the low and of the high part, the borrow in between, subtract the whole (R136). -/
theorem subtraction_append (a b : BitVec w) (a' b' : BitVec v) (cin : Bool) :
    (subtraction (a' ++ a) (b' ++ b) cin).value =
        (subtraction a' b' (subtraction a b cin).carry).value ++ (subtraction a b cin).value ∧
      (subtraction (a' ++ a) (b' ++ b) cin).carry = (subtraction a' b' (subtraction a b cin).carry).carry :=
  isSum_iff_subtraction.1 (.append (isSum_iff_subtraction.2 ⟨rfl, rfl⟩) (isSum_iff_subtraction.2 ⟨rfl, rfl⟩))

/-- A word sum or difference is read back from its register (R12). -/
@[simp] theorem reg_writeSum_word (s : State) (r : Reg) (x : Sum 16) (len : Nat) :
    (s.writeSum r .word x len).reg r = x.value := reg_writeLow_word s r x.value

/-- A sum or difference leaves every other register alone. -/
theorem reg_writeSum_other (s : State) {r r' : Reg} (h : r ≠ r') (w : Width) (x : Sum w.bits) (len : Nat) :
    (s.writeSum r w x len).reg r' = s.reg r' := reg_writeLow_other s h w x.value

/-- A sum or difference sets C to its carry (R130). -/
@[simp] theorem writeSum_c (s : State) (r : Reg) (w : Width) (x : Sum w.bits) (len : Nat) :
    (s.writeSum r w x len).psr.c = x.carry := rfl

/-- Settles O8: the second instruction reads the C the first has set and registers it has left alone, so both together are
one addition or subtraction of the registers side by side. -/
theorem multiWordAdditionAndSubtraction : Obligations.MultiWordAdditionAndSubtraction := by
  intro s ra rb rc rd hab had
  have hsrc (t : State) (r : Reg) : (t.srcVal .word (.reg r) : Word) = t.reg r := low_word t r
  refine ⟨⟨_, _, rfl, rfl, ?sum⟩, ⟨_, _, rfl, rfl, ?difference⟩⟩
  case sum =>
    obtain ⟨hvalue, hcarry⟩ := addition_append (s.reg ra) (s.reg rc) (s.reg rb) (s.reg rd) false
    rw [addition_false (s.reg rb ++ s.reg ra)] at hvalue hcarry
    simp only [addOp_word, hsrc, reg_writeSum_word, writeSum_c, reg_writeSum_other _ hab, reg_writeSum_other _ had,
      reg_writeSum_other _ hab.symm]
    exact ⟨hvalue.symm, hcarry.symm⟩
  case difference =>
    obtain ⟨hvalue, hcarry⟩ := subtraction_append (s.reg ra) (s.reg rc) (s.reg rb) (s.reg rd) false
    rw [subtraction_false (s.reg rb ++ s.reg ra)] at hvalue hcarry
    simp only [subOp_word, hsrc, reg_writeSum_word, writeSum_c, reg_writeSum_other _ hab, reg_writeSum_other _ had,
      reg_writeSum_other _ hab.symm]
    exact ⟨hvalue.symm, hcarry.symm⟩

end Sys2Proof.Machine
end

section
/-! Integer comparison (spec/42_integer_comparison.md R140, R141): what CMPi leaves, and which instructions write Z, N and L. -/

namespace Sys2Proof.Machine

open Sys2Proof

variable {s t : State} {i : Instr}

/-! ## What CMPi leaves (R140) -/

/-- A byte comparison compares with the low byte of its second operand (R140, R12). -/
theorem compareOp_byte (src : Src) (rd : Reg) (s : State) :
    compareOp .byte src rd s =
      { s.past src.len with psr := s.psr.withCompare (s.srcVal .byte src : Byte) (lowByte (s.reg rd)) } := by
  rw [← low_byte]
  rfl

/-- A word comparison compares with the whole of its second operand (R140, R12). -/
theorem compareOp_word (src : Src) (rd : Reg) (s : State) :
    compareOp .word src rd s =
      { s.past src.len with psr := s.psr.withCompare (s.srcVal .word src : Word) (s.reg rd) } := by
  rw [← low_word]
  rfl

/-- Settles O9: the operands of the comparison, in the order of R140. -/
theorem compareFlags : Obligations.CompareFlags := by
  intro s src rd
  exact ⟨congrArg Host.Outcome.next (compareOp_byte src rd s), congrArg Host.Outcome.next (compareOp_word src rd s)⟩

/-! ## The other writers of Z, N and L (R141) -/

/-- Of the effects on the PSR only a comparison, LPR to the PSR and RETX write Z, N or L (R141). -/
theorem PsrEffect.zero_negative_low {r q : Psr} (h : PsrEffect r i q) (hretx : i ≠ .retx) (hlpr : ∀ rs, i ≠ .lpr rs .psr)
    (hcmp : ∀ src rd, i ≠ .cmpb src rd ∧ i ≠ .cmpw src rd) : q.z = r.z ∧ q.n = r.n ∧ q.l = r.l := by
  cases h with
  | keeps | sums | tests | enables | traps => exact ⟨rfl, rfl, rfl⟩
  | compares z n l hi =>
    obtain ⟨src, rd, hi⟩ := hi
    exact absurd hi (not_or.2 (hcmp src rd))
  | @loadsPsr rs => exact absurd rfl (hlpr rs)
  | returns => exact absurd rfl hretx

/-- LPR to the PSR writes every named bit from the register (R165). -/
theorem exec_lpr_psr {rs : Reg} (h : exec (.lpr rs .psr) s = .next t) : t.psr = psrOfWord (s.reg rs) := by
  obtain rfl := Host.Outcome.next.inj h
  rfl

/-- A read of a word that lies in memory, where it answers, answers the word there and changes nothing (R55). -/
theorem loadWord_eq_of_inMemory {a : Addr} {p : Word × State} (h : loadWord s a = .ok p) (hmem : inMemory s a.toNat 2) :
    p = (s.mem.readWord a, s) := by
  obtain ⟨⟨htop, -⟩, -⟩ := loadWord_ok.1 h
  rw [loadWord_inMemory hmem (wordPermitted_iff.2 htop)] at h
  exact (Except.ok.inj h).symm

/-- The return from an exception writes every named bit of the PSR from the word it reads at ISP + 2, the one in memory if
that word lies in memory: the read of the return address before it leaves memory as it is (R178). -/
theorem returnFromException_psr (h : returnFromException s = .ok t) :
    ∃ v, t.psr = psrOfWord v ∧ (inMemory s (s.isp + 2).toNat 2 → v = s.mem.readWord (s.isp + 2)) := by
  obtain ⟨home, hhome, h⟩ := bind_eq_ok.1 h
  obtain ⟨status, hstatus, h⟩ := bind_eq_ok.1 h
  obtain ⟨isp, -, h⟩ := bind_eq_ok.1 h
  obtain ⟨k, hk⟩ := loadWord_state hhome
  obtain rfl := Except.ok.inj h
  rw [hk] at hstatus
  exact ⟨status.1, rfl, fun hmem => congrArg Prod.fst (loadWord_eq_of_inMemory hstatus hmem)⟩

/-- Settles O47: the effects on the PSR (`exec_effect`, `Effect.psr`) for the instructions that keep Z, N and L, `compareFlags`
for CMPi, and the PSR that LPR and RETX load. -/
theorem onlyCompareWritesZeroNegativeLow : Obligations.OnlyCompareWritesZeroNegativeLow := by
  intro i s t h
  refine ⟨(exec_effect h).psr.zero_negative_low, fun src rd => ⟨?cmpb, ?cmpw⟩, ?lpr, ?retx⟩
  case cmpb =>
    rintro rfl
    obtain rfl := Host.Outcome.next.inj ((compareFlags s src rd).1.symm.trans h)
    exact ⟨rfl, rfl, rfl⟩
  case cmpw =>
    rintro rfl
    obtain rfl := Host.Outcome.next.inj ((compareFlags s src rd).2.symm.trans h)
    exact ⟨rfl, rfl, rfl⟩
  case lpr =>
    rintro rs rfl
    exact exec_lpr_psr h
  case retx =>
    rintro rfl
    exact returnFromException_psr (finish_eq_next.1 h)

end Sys2Proof.Machine
end

section
/-! Logical and boolean instructions (spec/43_logical_boolean.md R145 to R148): what ANDi, ORi, XORi and Scond leave. -/

namespace Sys2Proof.Machine

open Sys2Proof

/-! ## Bitwise operations (R145 to R147) -/

/-- A byte operation works on the low byte of its destination and keeps the high byte (R145, R12). -/
theorem logicOp_byte (f : Byte → Byte → Byte) (src : Src) (rd : Reg) (s : State) :
    logicOp .byte f src rd s =
      s.result rd (byteInto (s.reg rd) (f (lowByte (s.reg rd)) (s.srcVal .byte src))) src.len := by
  rw [← low_byte]
  exact writeLow_byte_advance s rd _ src.len

/-- A word operation works on the whole of its destination (R145, R12). -/
theorem logicOp_word (f : Word → Word → Word) (src : Src) (rd : Reg) (s : State) :
    logicOp .word f src rd s = s.result rd (f (s.reg rd) (s.srcVal .word src)) src.len := by
  rw [← low_word]
  exact writeLow_word_advance s rd _ src.len

/-- Settles O10: the three operations in either width; the register write is all they do, so no flag moves. -/
theorem logicResults : Obligations.LogicResults := by
  intro s src rd
  have byteResult (f : Byte → Byte → Byte) := congrArg (Host.Outcome.next : State → Result) (logicOp_byte f src rd s)
  have wordResult (f : Word → Word → Word) := congrArg (Host.Outcome.next : State → Result) (logicOp_word f src rd s)
  exact ⟨byteResult (· &&& ·), wordResult (· &&& ·), byteResult (· ||| ·), wordResult (· ||| ·), byteResult (· ^^^ ·),
    wordResult (· ^^^ ·)⟩

/-! ## Scond (R148) -/

/-- The Scond of a condition writes the word 1 or 0 by that condition and no flag (R148). -/
theorem exec_scondOf (s : State) (rd : Reg) (c : Cond) :
    exec (scondOf rd c) s = .next (s.result rd (if condTrue s.psr c then 1 else 0) 2) := by
  rw [← setReg_advance]
  cases c <;> rfl

/-- Settles O11: each Scond is that of its condition (`exec_scondOf`), and each condition is read off the flags as the table
says (R30). -/
theorem saveConditionResults : Obligations.SaveConditionResults := by
  intro s rd
  have saved := exec_scondOf s rd
  exact ⟨saved .eq, saved .ne, saved .cs, saved .cc, saved .hi, saved .ls, saved .gt, saved .le, saved .fs, saved .fc,
    saved .lo, saved .hs, saved .lt, saved .ge⟩

end Sys2Proof.Machine
end

section
/-! Shifts (spec/44_shifts.md R155, R156): what ASHUi and LSHi leave for a count in range and for one out of range. -/

namespace Sys2Proof.Machine

open Sys2Proof

/-! ## The shifted operand -/

section
variable {w : Nat} {c : Int}

/-- A count that is not negative multiplies by a power of two, whatever the right shift is (R155, R156). -/
theorem toNat_shifted_of_nonneg (right : BitVec w → Nat → BitVec w) (a : BitVec w) (hc : 0 ≤ c) :
    (shifted right a c).toNat = a.toNat * 2 ^ c.toNat % 2 ^ w := by
  rw [shifted, if_pos hc, BitVec.toNat_shiftLeft, Nat.shiftLeft_eq]

/-- A negative count shifts right by its distance (R155, R156). -/
theorem shifted_of_neg (right : BitVec w → Nat → BitVec w) (a : BitVec w) (hc : c < 0) :
    shifted right a c = right a (-c).toNat := if_neg (Int.not_le.2 hc)

/-- A negative count of an arithmetic shift divides the signed value, rounding down (R155). -/
theorem toInt_shifted_sshiftRight (a : BitVec w) (hc : c < 0) :
    (shifted BitVec.sshiftRight a c).toInt = Int.fdiv a.toInt (2 ^ (-c).toNat) := by
  rw [shifted_of_neg _ _ hc, BitVec.toInt_sshiftRight, Int.shiftRight_eq_div_pow,
    Int.fdiv_eq_ediv_of_nonneg _ (by positivity), Nat.cast_pow, Nat.cast_ofNat]

/-- A negative count of a logical shift divides the unsigned value, rounding down (R156). -/
theorem toNat_shifted_ushiftRight (a : BitVec w) (hc : c < 0) :
    (shifted BitVec.ushiftRight a c).toNat = a.toNat / 2 ^ (-c).toNat := by
  rw [shifted_of_neg _ _ hc, BitVec.ushiftRight_eq, BitVec.toNat_ushiftRight, Nat.shiftRight_eq_div_pow]

end

/-! ## Counts in range -/

section
variable {s : State} {count : Src}

/-- A count in range writes the shifted operand (R155, R156). -/
theorem shiftOp_inRange (w : Width) (right : BitVec w.bits → Nat → BitVec w.bits) (rd : Reg)
    (hlo : -shiftLimit w ≤ (s.srcVal .byte count).toInt) (hhi : (s.srcVal .byte count).toInt ≤ shiftLimit w) :
    shiftOp w right count rd s =
      (s.writeLow rd w (shifted right (s.low rd w) (s.srcVal .byte count).toInt)).advance count.len :=
  if_neg (not_or.2 ⟨Int.not_lt.2 hlo, Int.not_lt.2 hhi⟩)

/-- A byte shift works on the low byte of its destination and keeps the high byte (R155, R156, R12). -/
theorem shiftOp_byte_inRange (right : Byte → Nat → Byte) (rd : Reg) (hlo : -7 ≤ (s.srcVal .byte count).toInt)
    (hhi : (s.srcVal .byte count).toInt ≤ 7) :
    shiftOp .byte right count rd s =
      s.result rd (byteInto (s.reg rd) (shifted right (lowByte (s.reg rd)) (s.srcVal .byte count).toInt)) count.len := by
  rw [shiftOp_inRange .byte right rd hlo hhi, low_byte, writeLow_byte_advance]

/-- A word shift works on the whole of its destination (R155, R156, R12). -/
theorem shiftOp_word_inRange (right : Word → Nat → Word) (rd : Reg) (hlo : -15 ≤ (s.srcVal .byte count).toInt)
    (hhi : (s.srcVal .byte count).toInt ≤ 15) :
    shiftOp .word right count rd s =
      s.result rd (shifted right (s.reg rd) (s.srcVal .byte count).toInt) count.len := by
  rw [shiftOp_inRange .word right rd hlo hhi, low_word, writeLow_word_advance]

/-! ## Counts out of range (D21, log 6) -/

/-- A count out of range draws one free value for the destination operand, whichever right shift it is (D21, log 6). -/
theorem shiftOp_outOfRange (w : Width) (right : BitVec w.bits → Nat → BitVec w.bits) (rd : Reg)
    (hout : (s.srcVal .byte count).toInt < -shiftLimit w ∨ shiftLimit w < (s.srcVal .byte count).toInt) :
    shiftOp w right count rd s =
      { (s.writeLow rd w (s.unspecified.setWidth w.bits)).advance count.len with draws := s.draws + 1 } := by
  rw [← writeLow_draws s rd w (s.unspecified.setWidth w.bits)]
  exact if_pos hout

/-- Of a byte shift with a count out of range only the low byte of the destination is open (D21, R12). -/
theorem shiftOp_byte_outOfRange (right : Byte → Nat → Byte) (rd : Reg)
    (hout : (s.srcVal .byte count).toInt < -7 ∨ 7 < (s.srcVal .byte count).toInt) :
    shiftOp .byte right count rd s =
      { s.result rd (byteInto (s.reg rd) (s.unspecified.setWidth 8)) count.len with draws := s.draws + 1 } := by
  rw [shiftOp_outOfRange .byte right rd hout, writeLow_byte_advance]

/-- Of a word shift with a count out of range only the destination is open (D21, R12). -/
theorem shiftOp_word_outOfRange (right : Word → Nat → Word) (rd : Reg)
    (hout : (s.srcVal .byte count).toInt < -15 ∨ 15 < (s.srcVal .byte count).toInt) :
    shiftOp .word right count rd s =
      { s.result rd (s.unspecified.setWidth 16) count.len with draws := s.draws + 1 } := by
  rw [shiftOp_outOfRange .word right rd hout, writeLow_word_advance]

end

/-! ## The statements -/

/-- Settles O13: the value of `shifted` with the arithmetic right shift, for either sign of the count. -/
theorem arithmeticShiftResults : Obligations.ArithmeticShiftResults := by
  intro s count rd c
  constructor
  · intro hlo hhi
    exact ⟨_, congrArg Host.Outcome.next (shiftOp_byte_inRange BitVec.sshiftRight rd hlo hhi), toNat_shifted_of_nonneg _ _,
      toInt_shifted_sshiftRight _⟩
  · intro hlo hhi
    exact ⟨_, congrArg Host.Outcome.next (shiftOp_word_inRange BitVec.sshiftRight rd hlo hhi), toNat_shifted_of_nonneg _ _,
      toInt_shifted_sshiftRight _⟩

/-- Settles O14: the value of `shifted` with the logical right shift, for either sign of the count. -/
theorem logicalShiftResults : Obligations.LogicalShiftResults := by
  intro s count rd c
  constructor
  · intro hlo hhi
    exact ⟨_, congrArg Host.Outcome.next (shiftOp_byte_inRange BitVec.ushiftRight rd hlo hhi), toNat_shifted_of_nonneg _ _,
      toNat_shifted_ushiftRight _⟩
  · intro hlo hhi
    exact ⟨_, congrArg Host.Outcome.next (shiftOp_word_inRange BitVec.ushiftRight rd hlo hhi), toNat_shifted_of_nonneg _ _,
      toNat_shifted_ushiftRight _⟩

/-- Settles O15: the free value is the only thing drawn, and the right shift does not matter to it. -/
theorem shiftOutOfRangeFrame : Obligations.ShiftOutOfRangeFrame := by
  intro s count rd c
  constructor
  · intro hout
    have drawn (right : Byte → Nat → Byte) := congrArg (Host.Outcome.next : State → Result)
      (shiftOp_byte_outOfRange right rd hout)
    exact ⟨⟨_, drawn BitVec.sshiftRight⟩, ⟨_, drawn BitVec.ushiftRight⟩⟩
  · intro hout
    have drawn (right : Word → Nat → Word) := congrArg (Host.Outcome.next : State → Result)
      (shiftOp_word_outOfRange right rd hout)
    exact ⟨⟨_, drawn BitVec.sshiftRight⟩, ⟨_, drawn BitVec.ushiftRight⟩⟩

end Sys2Proof.Machine
end

section
/-! Bits (spec/45_bits.md R160): what TBIT leaves for an offset in range and for one out of range. -/

namespace Sys2Proof.Machine

open Sys2Proof

variable {s : State} {offset : Src}

/-- The bit of a word at place `k`: whether its quotient by `2 ^ k` is odd. -/
theorem getLsbD_eq_div_mod {w : Nat} (v : BitVec w) (k : Nat) : v.getLsbD k = (v.toNat / 2 ^ k % 2 == 1) :=
  Nat.testBit_eq_decide_div_mod_eq

/-- An offset in range copies that bit of the register to F (R160). -/
theorem exec_tbit_inRange (rs : Reg) (h : (s.srcVal .word offset).toNat ≤ 15) :
    exec (.tbit offset rs) s = .next { s.past offset.len with
      psr := { s.psr with f := (s.reg rs).getLsbD (s.srcVal .word offset).toNat } } :=
  if_pos h

/-- An offset out of range draws one free value for F (R160, D21, log 6). -/
theorem exec_tbit_outOfRange (rs : Reg) (h : 15 < (s.srcVal .word offset).toNat) :
    exec (.tbit offset rs) s = .next { s.past offset.len with
      psr := { s.psr with f := s.unspecified.getLsbD 0 }, draws := s.draws + 1 } :=
  if_neg (Nat.not_le.2 h)

/-- Settles O16: the two ranges of the offset, with the tested bit read in arithmetic. -/
theorem testBitFlag : Obligations.TestBitFlag := by
  intro s offset rs off
  constructor
  · intro hin
    rw [exec_tbit_inRange rs hin, getLsbD_eq_div_mod]
  · intro hout
    exact ⟨s.unspecified.getLsbD 0, exec_tbit_outOfRange rs hout⟩

end Sys2Proof.Machine
end

section
/-! Processor register manipulation (spec/46_processor_register.md R165 to R167): what LPR and SPR leave, that SPR followed by LPR
gives a processor register back, and which instructions write the dedicated registers. -/

namespace Sys2Proof.Machine

open Sys2Proof

variable {s t : State} {i : Instr}

/-! ## Table addresses as 16 bits (spec/10_state.md R20, R21) -/

/-- The bits of the value ISP or INTBASE takes from a word: bits 15 to 1 of the word, and zeros (R20, R21). -/
theorem getLsbD_tableAddr (v : Word) (k : Nat) :
    (tableAddr v).getLsbD k = (decide (0 < k ∧ k < 16) && v.getLsbD k) := by
  simp only [tableAddr, BitVec.getLsbD_append, BitVec.getLsbD_extractLsb']
  rcases (by omega : k = 0 ∨ (0 < k ∧ k < 16) ∨ 16 ≤ k) with rfl | ⟨hlo, hhi⟩ | hout
  · rfl
  · simp [show k ≠ 0 by omega, show k - 1 < 15 by omega, show 1 + (k - 1) = k by omega, hlo, hhi]
  · simp [show k ≠ 0 by omega, show ¬ k - 1 < 15 by omega, show ¬ k < 16 by omega]

/-- The mask of R165 keeps bits 15 to 1. -/
theorem getLsbD_addrMask (k : Nat) (hk : k < 18) : (0xFFFE#16).getLsbD k = decide (0 < k ∧ k < 16) := by
  revert k
  decide

/-- The value ISP or INTBASE takes from a word is the word with bit 0 cleared, extended by zeros (R20, R21). -/
theorem tableAddr_eq_setWidth (v : Word) : tableAddr v = (v &&& 0xFFFE#16).setWidth 18 := by
  apply BitVec.eq_of_getLsbD_eq
  intro k hk
  rw [getLsbD_tableAddr, BitVec.getLsbD_setWidth, BitVec.getLsbD_and, getLsbD_addrMask k hk, decide_eq_true hk,
    Bool.true_and, Bool.and_comm]

/-- A legal table address is the one its low 16 bits make (R20, R21). -/
theorem tableAddr_setWidth {a : Addr} (h : tableLegal a) : tableAddr (a.setWidth 16) = a := by
  obtain ⟨h17, h16, h0⟩ := h
  apply BitVec.eq_of_getLsbD_eq
  intro k hk
  rw [getLsbD_tableAddr, BitVec.getLsbD_setWidth]
  rcases (by omega : k = 0 ∨ (0 < k ∧ k < 16) ∨ k = 16 ∨ k = 17) with rfl | ⟨hlo, hhi⟩ | rfl | rfl
  · exact h0.symm
  · simp [hlo, hhi]
  · exact h16.symm
  · exact h17.symm

/-! ## LPR (R165) -/

/-- LPR writes its processor register from the general register and serializes (R165, spec/20_memory.md R67). -/
theorem exec_lpr (s : State) (rs : Reg) (dest : ProcReg) :
    exec (.lpr rs dest) s = .next { (s.loadProc dest (s.reg rs)).past 2 with stale := [] } := rfl

/-- Settles O17: the write of each processor register, with the table addresses as masked words. -/
theorem loadProcessorRegister : Obligations.LoadProcessorRegister := by
  intro s rs
  refine ⟨exec_lpr s rs .psr, ?_, ?_⟩
  · rw [exec_lpr, ← tableAddr_eq_setWidth]
    rfl
  · rw [exec_lpr, ← tableAddr_eq_setWidth]
    rfl

/-! ## SPR (R166) -/

/-- SPR of the PSR stores the word a read of the PSR yields and draws one free value for its reserved bits (R166, R31). -/
theorem exec_spr_psr (s : State) (rd : Reg) :
    exec (.spr .psr rd) s = .next { s.result rd s.psrWord 2 with draws := s.draws + 1 } := rfl

/-- Settles O18: a read of the PSR yields a word that shows it, and the low 16 bits of INTBASE and ISP are these registers cut
to a word. -/
theorem storeProcessorRegister : Obligations.StoreProcessorRegister := by
  intro s rd
  refine ⟨⟨s.psrWord, showsPsr_word s.psr _, exec_spr_psr s rd⟩, ?_, ?_⟩
  · rw [BitVec.setWidth_eq_extractLsb' (by decide)]
    rfl
  · rw [BitVec.setWidth_eq_extractLsb' (by decide)]
    rfl

/-! ## SPR followed by LPR (R166, R165) -/

/-- The register written holds the result. -/
theorem reg_result_same (s : State) (r : Reg) (v : Word) (len : Nat) : (s.result r v len).reg r = v :=
  reg_setReg_same s r v

/-- Settles O19: LPR (`exec_lpr`) in the state SPR leaves (`storeProcessorRegister`). The bits SPR does not store are the ones
the invariant fixes, and the free ones it stores are ones LPR ignores. -/
theorem storeThenLoadProcessorRegister : Obligations.StoreThenLoadProcessorRegister := by
  intro s p r h
  obtain ⟨-, hisp, hbase, -, -⟩ := h
  obtain ⟨⟨v, ⟨hv, -⟩, sprPsr⟩, sprIntbase, sprIsp⟩ := storeProcessorRegister s r
  cases p with
  | psr =>
    have reloaded := congrArg psrOfWord (reg_result_same s r v 2)
    exact ⟨_, _, sprPsr, exec_lpr _ r .psr, reloaded.trans hv, rfl, rfl⟩
  | intbase =>
    have reloaded := congrArg tableAddr (reg_result_same s r (s.intbase.setWidth 16) 2)
    exact ⟨_, _, sprIntbase, exec_lpr _ r .intbase, rfl, reloaded.trans (tableAddr_setWidth hbase), rfl⟩
  | isp =>
    have reloaded := congrArg tableAddr (reg_result_same s r (s.isp.setWidth 16) 2)
    exact ⟨_, _, sprIsp, exec_lpr _ r .isp, rfl, rfl, reloaded.trans (tableAddr_setWidth hisp)⟩

/-! ## Which instructions write the dedicated registers (R167, spec/10_state.md R20, R21, R33) -/

/-- What the instruction `i`, executed in `s` and leaving `t`, can have done to ISP, INTBASE and CFG, and that the parameters and
the coming boundaries are no instruction's to write. That every effect is of this kind is `Effect.dedicated`. -/
structure DedicatedEffect (s : State) (i : Instr) (t : State) : Prop where
  isp : t.isp = s.isp ∨ (∃ rs, i = .lpr rs .isp) ∨ i = .retx ∨ isTrap i
  intbase : t.intbase = s.intbase ∨ ∃ rs, i = .lpr rs .intbase
  cfg : t.cfg = s.cfg
  params : t.params = s.params
  inputs : t.inputs = s.inputs

/-- Every effect of an instruction is on the dedicated registers one that R20, R21 and R33 allow. -/
theorem Effect.dedicated (h : Effect s i t) : DedicatedEffect s i t := by
  cases h with
  | advances | jumps | links | compares | tests | enables | waits | stores =>
    exact ⟨.inl rfl, .inl rfl, rfl, rfl, rfl⟩
  | writes w v k =>
    exact ⟨.inl (writeLow_isp s _ w v), .inl (writeLow_intbase s _ w v), writeLow_cfg s _ w v, writeLow_params s _ w v,
      writeLow_inputs s _ w v⟩
  | sums w x =>
    exact ⟨.inl (writeLow_isp s _ w x.value), .inl (writeLow_intbase s _ w x.value), writeLow_cfg s _ w x.value,
      writeLow_params s _ w x.value, writeLow_inputs s _ w x.value⟩
  | @loadsProc rs dest =>
    cases dest with
    | psr => exact ⟨.inl rfl, .inl rfl, rfl, rfl, rfl⟩
    | intbase => exact ⟨.inl rfl, .inr ⟨rs, rfl⟩, rfl, rfl, rfl⟩
    | isp => exact ⟨.inr (.inl ⟨rs, rfl⟩), .inl rfl, rfl, rfl, rfl⟩
  | traps hi hint he =>
    rw [(enterException_ok he).1]
    exact ⟨.inr (.inr (.inr hi)), .inl rfl, rfl, rfl, rfl⟩
  | returns hr =>
    rw [(returnFromException_ok hr).1]
    exact ⟨.inr (.inr (.inl rfl)), .inl rfl, rfl, rfl, rfl⟩

/-- Settles O51: the writers of ISP and of INTBASE are the ones `Effect.dedicated` lists. -/
theorem dedicatedRegisterWriters : Obligations.DedicatedRegisterWriters := by
  intro i s t h
  obtain ⟨isp, intbase, cfg, params, inputs⟩ := (exec_effect h).dedicated
  refine ⟨fun hlpr hretx hexcp hund => isp.resolve_right ?_, fun hlpr => intbase.resolve_right ?_, cfg, params, inputs⟩
  · rintro (⟨rs, hi⟩ | hi | ⟨v, hi⟩ | ⟨p, hi⟩)
    · exact hlpr rs hi
    · exact hretx hi
    · exact hexcp v hi
    · exact hund p hi
  · rintro ⟨rs, hi⟩
    exact hlpr rs hi

end Sys2Proof.Machine
end

section
/-! Jumps and linkage (spec/47_jumps_linkage.md R170 to R178): what the branches, the jumps, the trap instructions and RETX
leave, and branch targets as sums modulo 2^17. -/

namespace Sys2Proof.Machine

open Sys2Proof

variable {s : State} {i : Instr} {e : Exc}

/-! ## Branch targets (R171) -/

/-- The value of a code address's 16 bits: half the address, without bit 17 (spec/10_state.md R15). -/
theorem toHalf_toNat (a : Addr) : (toHalf a).toNat = a.toNat / 2 % 2 ^ 16 := by
  rw [toHalf, BitVec.extractLsb'_toNat, Nat.shiftRight_eq_div_pow]

/-- The mask of R170 keeps bits 16 to 1. -/
theorem getLsbD_codeMask (k : Nat) (hk : k < 18) : (0x1FFFE#18).getLsbD k = decide (0 < k ∧ k < 17) := by
  revert k
  decide

/-- Bits 17 and 0 cleared leave the code address of bits 16 to 1 (spec/10_state.md R15). -/
theorem fromHalf_toHalf_eq_codeAddr (a : Addr) : fromHalf (toHalf a) = codeAddr a := by
  apply BitVec.eq_of_getLsbD_eq
  intro k hk
  rw [codeAddr, BitVec.getLsbD_and, getLsbD_codeMask k hk]
  simp only [fromHalf, toHalf, BitVec.getLsbD_append, BitVec.getLsbD_extractLsb']
  rcases (by omega : k = 0 ∨ (0 < k ∧ k < 17) ∨ k = 17) with rfl | ⟨hlo, hhi⟩ | rfl
  · simp
  · simp [show k ≠ 0 by omega, show k - 1 < 16 by omega, show 1 + (k - 1) = k by omega, hlo, hhi]
  · simp

/-- The target of a branch is the sum of PC and displacement with bits 17 and 0 cleared (R171). -/
theorem branchTarget_eq_codeAddr (s : State) (disp : Addr) : s.branchTarget disp = codeAddr (s.pc + disp) :=
  fromHalf_toHalf_eq_codeAddr _

/-- An address whose bit 0 is clear is even. -/
theorem toNat_even {a : Addr} (h : a.getLsbD 0 = false) : a.toNat % 2 = 0 := by
  rw [BitVec.getLsbD, Nat.testBit_zero] at h
  simpa using h

/-- From an even PC with an even displacement the target of a branch is the sum modulo 2^17 (R171). -/
theorem branchTarget_toNat (hpc : s.pc.getLsbD 0 = false) {disp : Addr} (hdisp : disp.getLsbD 0 = false) :
    ((s.branchTarget disp).toNat : Int) = ((s.pc.toNat : Int) + disp.toInt) % 2 ^ 17 := by
  have pcEven := toNat_even hpc
  have dispEven := toNat_even hdisp
  rw [State.branchTarget, fromHalf_toNat, toHalf_toNat, BitVec.toNat_add, BitVec.toInt_eq_toNat_cond]
  split <;> omega

/-- A well-formed displacement is even (spec/30_encoding.md R94 to R96). -/
theorem dispValue_even {d : Disp} (h : d.wf = true) : (dispValue d).getLsbD 0 = false := by
  cases d with
  | short x | medium x =>
    rw [dispValue, BitVec.getLsbD_signExtend]
    simpa [Disp.wf] using h

/-- Settles O22: PC and displacement are even, so clearing bit 0 of their sum changes nothing (`branchTarget_toNat`). -/
theorem branchTargetIsModular : Obligations.BranchTargetIsModular := by
  intro s d hpc hd
  obtain ⟨-, pcEven⟩ := hpc
  rw [branchTarget_toNat pcEven (dispValue_even hd)]
  cases d with
  | short x | medium x => rw [dispValue, BitVec.toInt_signExtend_of_le (by decide)]

/-! ## EXCP and the undefined op codes (R174, spec/60_exceptions.md R213, R220) -/

/-- Every exception but the trace trap pushes the PSR as it is (spec/60_exceptions.md R220, D24). -/
theorem pushed_of_ne_trc (r : Psr) (h : e ≠ .trc) : r.pushed e = r := by
  cases e with
  | trc => exact absurd rfl h
  | nmi | svc | dvz | flg | bpt | und | ise | int icu => rfl

/-- No vector of EXCP selects the trace trap (R174). -/
theorem trapOf_ne_trc (v : BitVec 4) : trapOf v ≠ .trc := by
  revert v
  decide

/-- The exception number of a named vector is the vector (R174, spec/60_exceptions.md R211). -/
theorem vectorOf_trapOf (params : Config.Params) {v : BitVec 4} (h : v = 5 ∨ v = 6 ∨ v = 7 ∨ v = 8 ∨ v = 10) :
    vectorOf params (trapOf v) = v.toNat := by
  rcases h with rfl | rfl | rfl | rfl | rfl <;> rfl

/-- An instruction that takes a trap other than the trace trap, with frame and table entry in memory, leaves the state after
the acknowledge sequence: the PSR is pushed as it is and I is kept (spec/60_exceptions.md R220, D24). -/
theorem exec_trap_entered (hexec : exec i s = finish (enterException e s)) (htrap : e.isInterrupt = false)
    (htrc : e ≠ .trc) (hwf : s.mem.wf = true) (hent : entersInMemory s (vectorOf s.params e)) :
    ∃ t, exec i s = .next t ∧ entered s t s.psr s.psr.i (vectorOf s.params e) := by
  obtain ⟨t, ht, hentered⟩ := enterException_entered hwf hent
  rw [pushed_of_ne_trc _ htrc, htrap, Bool.not_false, Bool.and_true] at hentered
  exact ⟨t, hexec.trans (finish_eq_next.2 ht), hentered⟩

/-- EXCP leaves the state after the acknowledge sequence of the trap its vector selects (R174). -/
theorem exec_excp_entered (v : BitVec 4) (hwf : s.mem.wf = true)
    (hent : entersInMemory s (vectorOf s.params (trapOf v))) :
    ∃ t, exec (.excp v) s = .next t ∧ entered s t s.psr s.psr.i (vectorOf s.params (trapOf v)) :=
  exec_trap_entered (exec_excp v s) (trapOf_isInterrupt v) (trapOf_ne_trc v) hwf hent

/-- Settles O31: a named vector is its trap's exception number, and the others raise UND as the undefined op codes do. -/
theorem trapInstructionEntry : Obligations.TrapInstructionEntry := by
  intro s hwf
  refine ⟨fun v hv hent => ?named, fun hent => ⟨fun v hv => ?reserved, fun p => ?undefined⟩⟩
  case named =>
    rw [← vectorOf_trapOf s.params hv] at hent ⊢
    exact exec_excp_entered v hwf hent
  case reserved =>
    have hund : vectorOf s.params (trapOf v) = 10 := by rw [trapOf_reserved hv]; rfl
    rw [← hund] at hent ⊢
    exact exec_excp_entered v hwf hent
  case undefined => exact exec_trap_entered (e := .und) (exec_und p s) rfl nofun hwf hent

/-! ## The branches (R170 to R173) -/

/-- The Bcond of a condition goes to the branch target if the condition holds, else to the next instruction (R170). -/
theorem exec_branchOf (s : State) (d : Disp) (c : Cond) :
    exec (branchOf d c) s =
      .next (if condTrue s.psr c then { s with pc := codeAddr (s.pc + dispValue d) } else s.past d.len) := by
  rw [← branchTarget_eq_codeAddr]
  cases c <;> rfl

/-- Settles O20: each Bcond is that of its condition (`exec_branchOf`), and each condition is read off the flags as the table
says (R30). -/
theorem conditionalBranchResults : Obligations.ConditionalBranchResults := by
  intro s d
  have branched := exec_branchOf s d
  exact ⟨branched .eq, branched .ne, branched .cs, branched .cc, branched .hi, branched .ls, branched .gt, branched .le,
    branched .fs, branched .fc, branched .lo, branched .hs, branched .lt, branched .ge⟩

/-- BR goes to the branch target (R172). -/
theorem exec_br (s : State) (d : Disp) : exec (.br d) s = .next { s with pc := codeAddr (s.pc + dispValue d) } := by
  rw [← branchTarget_eq_codeAddr]
  rfl

/-- BAL goes to the branch target and keeps the return address in the link register (R173). -/
theorem exec_bal (s : State) (link : Reg) (d : BitVec 17) :
    exec (.bal link d) s =
      .next { s.result link (wordOfCode (s.past 4).pc) 4 with pc := codeAddr (s.pc + d.signExtend 18) } := by
  rw [← branchTarget_eq_codeAddr, wordOfCode_eq_toHalf]
  rfl

/-- Settles O21. -/
theorem branchAndLinkResults : Obligations.BranchAndLinkResults := by
  intro s d link d17
  exact ⟨exec_br s d, exec_bal s link d17⟩

/-! ## The jumps (R175 to R177) -/

/-- The Jcond of a condition goes to the address in its register if the condition holds, else to the next instruction (R175). -/
theorem exec_jumpOf (s : State) (target : Reg) (c : Cond) :
    exec (jumpOf target c) s =
      .next (if condTrue s.psr c then { s with pc := codeOfWord (s.reg target) } else s.past 2) := by
  rw [codeOfWord_eq_fromHalf]
  cases c <;> rfl

/-- Settles O23: each Jcond is that of its condition (`exec_jumpOf`), and each condition is read off the flags as the table
says (R30). -/
theorem conditionalJumpResults : Obligations.ConditionalJumpResults := by
  intro s r
  have jumped := exec_jumpOf s r
  exact ⟨jumped .eq, jumped .ne, jumped .cs, jumped .cc, jumped .hi, jumped .ls, jumped .gt, jumped .le, jumped .fs,
    jumped .fc, jumped .lo, jumped .hs, jumped .lt, jumped .ge⟩

/-- JUMP goes to the address in its register (R176). -/
theorem exec_jump (s : State) (target : Reg) :
    exec (.jump target) s = .next { s with pc := codeOfWord (s.reg target) } := by
  rw [codeOfWord_eq_fromHalf]
  rfl

/-- JAL goes to the address its register held before and keeps the return address in the link register (R177, D15). -/
theorem exec_jal (s : State) (link target : Reg) :
    exec (.jal link target) s =
      .next { s.result link (wordOfCode (s.past 2).pc) 2 with pc := codeOfWord (s.reg target) } := by
  rw [codeOfWord_eq_fromHalf, wordOfCode_eq_toHalf]
  rfl

/-- Settles O24. -/
theorem jumpAndLinkResults : Obligations.JumpAndLinkResults := by
  intro s r link
  exact ⟨exec_jump s r, exec_jal s link r⟩

/-! ## RETX (R178, spec/60_exceptions.md R225) -/

/-- A legal table address is below 2^16 (spec/10_state.md R20, R21). -/
theorem tableLegal_lt {a : Addr} (h : tableLegal a) : a.toNat < 0x10000 := by
  rw [← tableAddr_setWidth h, tableAddr_eq_setWidth, BitVec.toNat_setWidth]
  omega

/-- ISP after a pop (R178, D11). -/
theorem movedIsp_up_eq (isp : Addr) : movedIsp isp 4#16 = BitVec.ofNat 18 ((isp.toNat + 4) % 0x10000) := by
  apply BitVec.eq_of_toNat_eq
  have summed : (movedIsp isp 4#16).toNat = (isp.toNat + 4) % 0x10000 := by
    rw [movedIsp, BitVec.toNat_append]
    simp
  rw [summed, BitVec.toNat_ofNat]
  omega

/-- A word of memory that does not end past the top is its two bytes (spec/20_memory.md R54, R55). -/
theorem readWord_eq_wordAt (m : Memory) {a : Addr} (h : a ≠ 0x3FFFF#18) : m.readWord a = wordAt m a.toNat := by
  rw [Memory.readWord, succ_toNat h, wordAt]

/-- A read of a word that lies in memory below the top (spec/20_memory.md R54, R55). -/
theorem loadWord_wordAt {a : Addr} (h : a.toNat < 0x3FFFF) (hmem : inMemory s a.toNat 2) :
    loadWord s a = .ok (wordAt s.mem a.toNat, s) := by
  have below : a ≠ 0x3FFFF#18 := fun htop => absurd h (by rw [htop]; decide)
  rw [loadWord_inMemory hmem (.inl below), readWord_eq_wordAt _ below]

/-- A part of an access that lies in memory lies in memory. -/
theorem inMemory_part {a b n k : Nat} (h : inMemory s a n) (hstart : a ≤ b) (hend : b + k ≤ a + n) : inMemory s b k := by
  rcases h with below | above | decoded
  · exact .inl (by omega)
  · exact .inr (.inl (by omega))
  · exact .inr (.inr decoded)

/-- The pop of a frame that lies in memory (R178). -/
theorem returnFromException_memory (hisp : tableLegal s.isp) (hmem : inMemory s s.isp.toNat 4) (hpop : popPermitted s) :
    returnFromException s = .ok
      { s with
        pc := fromHalf (wordAt s.mem s.isp.toNat)
        psr := Psr.ofWord (wordAt s.mem (s.isp.toNat + 2))
        isp := movedIsp s.isp 4#16
        stale := [] } := by
  have hlt := tableLegal_lt hisp
  have hstatus : (s.isp + 2).toNat = s.isp.toNat + 2 := by bv_omega
  have home := loadWord_wordAt (by omega) (inMemory_part hmem (Nat.le_refl _) (by omega))
  have status := loadWord_wordAt (a := s.isp + 2) (by omega) (inMemory_part hmem (by omega) (by omega))
  rw [hstatus] at status
  exact bind_eq_ok.2 ⟨_, home, bind_eq_ok.2 ⟨_, status, bind_eq_ok.2 ⟨_, poppedIsp_ok.2 ⟨hpop, rfl⟩, rfl⟩⟩⟩

/-- Settles O33: the two reads and the move of ISP of `returnFromException_memory`, in the words of the statement. -/
theorem returnFromExceptionResult : Obligations.ReturnFromExceptionResult := by
  intro s hisp hmem hpop
  rw [codeOfWord_eq_fromHalf, ← movedIsp_up_eq]
  exact finish_eq_next.2 (returnFromException_memory hisp hmem hpop)

end Sys2Proof.Machine
end

section
/-! Effective addresses, and what loads and stores leave (spec/48_load_store.md R190 to R195, spec/20_memory.md R52 to R58). -/

namespace Sys2Proof.Machine

open Sys2Proof

variable {s : State} {m : MemOp} {a : Addr} {r : Reg}

/-! ## Effective addresses (R192 to R195) -/

/-- The effective address is the exact sum modulo 2^18 (spec/20_memory.md R60, D2). -/
theorem effectiveAddr_toNat (s : State) (m : MemOp) : (s.effectiveAddr m).toNat = s.effectiveSum m % 2 ^ 18 :=
  BitVec.toNat_ofNat _ _

/-- The base of a far-relative operand: the two low bits of the next register stand above the pair register (R194, D17). -/
theorem farBase_toNat (hi lo : Word) : (hi.extractLsb' 0 2 ++ lo).toNat = hi.toNat % 4 * 65536 + lo.toNat := by
  rw [toNat_append_eq_add, BitVec.extractLsb'_toNat, Nat.shiftRight_zero]
  rfl

/-- Settles O25: each form's sum modulo 2^18; that of a short displacement does not reach 2^18. -/
theorem effectiveAddresses : Obligations.EffectiveAddresses := by
  intro s b d5 d18
  refine ⟨?short, effectiveAddr_toNat s (.relMedium d18 b), fun _ => ?far, ?absolute, rfl, rfl, rfl, rfl⟩
  case short =>
    have hbase := (s.reg b).isLt
    have hdisp := d5.isLt
    rw [effectiveAddr_toNat, State.effectiveSum]
    omega
  case far => rw [effectiveAddr_toNat, State.effectiveSum, farBase_toNat]
  case absolute => rw [State.effectiveAddr, State.effectiveSum, BitVec.ofNat_toNat, BitVec.setWidth_eq]

/-! ## Where an access has a meaning (spec/20_memory.md R52, D20) -/

/-- An access that lies in memory has a meaning. -/
theorem permitted_of_inMemory {x n : Nat} (h : inMemory s x n) : permitted s x n := by
  rcases h with below | above | decoded
  · exact .inl below
  · exact .inr (.inl above)
  · exact .inr (.inr (by rw [decoded]; decide))

/-- Where a device answers in the reserved range every access has a meaning. -/
theorem permitted_of_device (hd : s.params.reservedRegionAccess = .device) (x n : Nat) : permitted s x n :=
  .inr (.inr (by rw [hd]; decide))

/-- Where a device answers in the reserved range it answers nowhere else. -/
theorem onDevice_eq_decide (hd : s.params.reservedRegionAccess = .device) (a : Addr) :
    s.onDevice a = decide (0xFC00 ≤ a.toNat ∧ a.toNat ≤ 0xFFFF) := by
  simp [State.onDevice, isReserved, hd]

/-- In the reserved range the device answers. -/
theorem onDevice_of_reserved (hd : s.params.reservedRegionAccess = .device) (hlo : 0xFC00 ≤ a.toNat)
    (hhi : a.toNat ≤ 0xFFFF) : s.onDevice a = true := by
  rw [onDevice_eq_decide hd, decide_eq_true ⟨hlo, hhi⟩]

/-- A word operand inside the address space does not begin at its last byte. -/
theorem ne_top_of_accessible (h : accessible s m 2) : s.effectiveAddr m ≠ 0x3FFFF#18 := by
  obtain ⟨-, -, hend⟩ := h
  intro htop
  rw [htop] at hend
  exact absurd hend (by decide)

/-! ## Loads (R190) -/

/-- LOADB where its access has a meaning: what the access reads, to the register. -/
theorem exec_loadb_permitted (hs : sumPermitted s m) (hp : permitted s (s.effectiveAddr m).toNat 1) (r : Reg) :
    exec (.loadb m r) s =
      .next (((s.readAt (s.effectiveAddr m)).2.writeLow r .byte (s.readAt (s.effectiveAddr m)).1).advance m.len) := by
  rw [exec_loadb_eq, checkSum_permitted hs, checkByte_permitted hp]
  rfl

/-- LOADB of a byte in memory. -/
theorem exec_loadb_inMemory (hs : sumPermitted s m) (hm : inMemory s (s.effectiveAddr m).toNat 1) (r : Reg) :
    exec (.loadb m r) s =
      .next (s.result r (byteInto (s.reg r) (s.mem.read (s.effectiveAddr m).toNat)) m.len) := by
  rw [exec_loadb_permitted hs (permitted_of_inMemory hm), readAt_memory (onDevice_of_inMemory hm), writeLow_byte_advance]

/-- LOADB of a byte a device answers: a free value (R52, log 12). -/
theorem exec_loadb_device (hs : sumPermitted s m) (hp : permitted s (s.effectiveAddr m).toNat 1)
    (hd : s.onDevice (s.effectiveAddr m) = true) (r : Reg) :
    exec (.loadb m r) s = .next
      { s.result r (byteInto (s.reg r) (s.unspecified.extractLsb' 0 8)) m.len with draws := s.draws + 1 } := by
  rw [exec_loadb_permitted hs hp, State.readAt, if_pos hd]
  rfl

/-- LOADW of a word in memory. -/
theorem exec_loadw_inMemory (hs : sumPermitted s m) (hw : wordPermitted s (s.effectiveAddr m))
    (hm : inMemory s (s.effectiveAddr m).toNat 2) (r : Reg) :
    exec (.loadw m r) s = .next (s.result r (s.mem.readWord (s.effectiveAddr m)) m.len) := by
  simp only [exec, execLoadw, checkSum_permitted hs, loadWord_inMemory hm hw]
  rfl

/-- LOADW where its access has a meaning: some word to the register, and nothing else but free values drawn. -/
theorem exec_loadw_permitted (hs : sumPermitted s m) (hw : wordPermitted s (s.effectiveAddr m))
    (hp : permitted s (s.effectiveAddr m).toNat 2) (r : Reg) :
    ∃ v k, exec (.loadw m r) s = .next { s.result r v m.len with draws := s.draws + k } := by
  obtain ⟨p, hload⟩ : ∃ p, loadWord s (s.effectiveAddr m) = .ok p :=
    ⟨_, loadWord_ok.2 ⟨allowsWord_of_permitted hp hw, rfl⟩⟩
  obtain ⟨k, hk⟩ := loadWord_state hload
  refine ⟨p.1, k, ?_⟩
  simp only [exec, execLoadw, checkSum_permitted hs, hload, bind, Except.bind, hk]
  rfl

/-- The last word of the address space is the byte there and the one at address 0 (spec/20_memory.md R55, D3). -/
theorem readWord_top (mem : Memory) : mem.readWord 0x3FFFF#18 = mem.read 0 ++ mem.read 0x3FFFF := rfl

/-- The two bytes of the last word of the address space lie outside the reserved range (spec/20_memory.md R51). -/
theorem inMemory_top : inMemory s (0x3FFFF#18).toNat 2 := .inr (.inl (by decide))

/-- Where a device answers, a word with a byte in the reserved range does not end past the top of the address space. -/
theorem wordPermitted_of_reserved (h : a.toNat ≤ 0xFFFF) : wordPermitted s a := wordPermitted_of_code (by omega)

/-- Settles O26: each load is what its access reads, put into the register. -/
theorem loadResults : Obligations.LoadResults := by
  intro s m rd a
  refine ⟨fun hacc => ?byte, fun hacc => ?word, fun hs htop hwrap => ?top,
    fun hs hd => ⟨fun hlo hhi => ?deviceByte, fun _ hhi => ?deviceWord⟩⟩
  case byte =>
    obtain ⟨hs, hm, -⟩ := hacc
    exact exec_loadb_inMemory hs hm rd
  case word =>
    have below := ne_top_of_accessible hacc
    obtain ⟨hs, hm, -⟩ := hacc
    rw [exec_loadw_inMemory hs (.inl below) hm, readWord_eq_wordAt _ below]
  case top =>
    have ha : s.effectiveAddr m = 0x3FFFF#18 := BitVec.eq_of_toNat_eq htop
    rw [exec_loadw_inMemory hs (.inr hwrap) (ha ▸ inMemory_top), ha, readWord_top]
  case deviceByte =>
    exact ⟨_, exec_loadb_device hs (permitted_of_device hd _ _) (onDevice_of_reserved hd hlo hhi) rd⟩
  case deviceWord => exact exec_loadw_permitted hs (wordPermitted_of_reserved hhi) (permitted_of_device hd _ _) rd

/-! ## Stores (R191) -/

/-- A byte read after the write of a byte: the byte written, unless a device took it (spec/20_memory.md R52, R56). -/
theorem read_writeAt (a : Addr) (v : Byte) (hwf : s.mem.wf = true) (x : Nat) :
    (s.writeAt a v).mem.read x = if s.onDevice a = false ∧ x = a.toNat then v else s.mem.read x := by
  cases hd : s.onDevice a with
  | true => simp [writeAt_device v hd]
  | false =>
    rw [writeAt_memory v hd, Memory.read_write v hwf]
    simp

/-- The write of both bytes of a word that lies in memory: the word there, and the old values of both bytes noted
(spec/20_memory.md R56, R66). -/
theorem writeAt_word (hwf : s.mem.wf = true) (hm : inMemory s a.toNat 2) (v : Word) :
    (s.writeAt a (v.extractLsb' 0 8)).writeAt (a + 1) (v.extractLsb' 8 8) =
      { s with
        mem := s.mem.writeWord a v
        stale := ((a + 1).toNat, s.mem.read (a + 1).toNat) :: (a.toNat, s.mem.read a.toNat) :: s.stale } := by
  obtain ⟨h0, h1⟩ := inMemory_bytes hm
  have hother := read_writeAt_other (v.extractLsb' 0 8) hwf (addr_succ_ne a)
  have hsecond := (onDevice_congr (writeAt_params s a (v.extractLsb' 0 8)) _).trans (onDevice_of_inMemory h1)
  rw [writeAt_memory _ hsecond, State.noteStored, hother, writeAt_memory _ (onDevice_of_inMemory h0)]
  rfl

/-- STORB where its access has a meaning: the write of its byte. -/
theorem exec_storb_permitted (hs : sumPermitted s m) (hp : permitted s (s.effectiveAddr m).toNat 1) (r : Reg) :
    exec (.storb r m) s = .next ((s.writeAt (s.effectiveAddr m) (lowByte (s.reg r))).advance m.len) := by
  rw [exec_storb_eq, checkSum_permitted hs, checkByte_permitted hp, low_byte]
  rfl

/-- STORW where its access has a meaning: the write of its two bytes. -/
theorem exec_storw_permitted (hs : sumPermitted s m) (hw : wordPermitted s (s.effectiveAddr m))
    (hp : permitted s (s.effectiveAddr m).toNat 2) (r : Reg) :
    exec (.storw r m) s =
      .next (((s.writeAt (s.effectiveAddr m) (lowByte (s.reg r))).writeAt (s.effectiveAddr m + 1)
        ((s.reg r).extractLsb' 8 8)).advance m.len) := by
  rw [exec_storw_eq, checkSum_permitted hs, checkWord_permitted hw hp]
  rfl

/-- STORW of a word in memory. -/
theorem exec_storw_inMemory (hwf : s.mem.wf = true) (hs : sumPermitted s m) (hw : wordPermitted s (s.effectiveAddr m))
    (hm : inMemory s (s.effectiveAddr m).toNat 2) (r : Reg) :
    exec (.storw r m) s = .next { s.past m.len with
      mem := s.mem.writeWord (s.effectiveAddr m) (s.reg r)
      stale := ((s.effectiveAddr m + 1).toNat, s.mem.read (s.effectiveAddr m + 1).toNat) ::
        ((s.effectiveAddr m).toNat, s.mem.read (s.effectiveAddr m).toNat) :: s.stale } := by
  rw [exec_storw_permitted hs hw (permitted_of_inMemory hm), lowByte, writeAt_word hwf hm]
  rfl

/-- Memory after a word with a byte in the reserved range is written where a device answers: only a byte of it outside the
range is in memory (spec/20_memory.md R52, D20). -/
theorem read_writeAt_word_device (hwf : s.mem.wf = true) (hd : s.params.reservedRegionAccess = .device)
    (hlo : 0xFBFF ≤ a.toNat) (hhi : a.toNat ≤ 0xFFFF) (lo hi : Byte) (x : Nat) :
    ((s.writeAt a lo).writeAt (a + 1) hi).mem.read x =
      if x = 0xFBFF ∧ a.toNat = 0xFBFF then lo
      else if x = 0x10000 ∧ a.toNat = 0xFFFF then hi else s.mem.read x := by
  have hsucc : (a + 1).toNat = a.toNat + 1 := succ_toNat_of_code (by omega)
  rw [read_writeAt _ _ (wf_writeAt a lo hwf), read_writeAt a lo hwf, onDevice_congr (writeAt_params s a lo),
    onDevice_eq_decide hd, onDevice_eq_decide hd, hsucc]
  rcases (by omega : a.toNat = 0xFBFF ∨ a.toNat = 0xFFFF ∨ (0xFC00 ≤ a.toNat ∧ a.toNat < 0xFFFF)) with
    first | last | ⟨inside, before⟩
  · simp [first]
  · simp [last]
  · simp [show a.toNat ≠ 0xFBFF by omega, show a.toNat ≠ 0xFFFF by omega, inside, hhi,
      show 0xFC00 ≤ a.toNat + 1 by omega, show a.toNat + 1 ≤ 0xFFFF by omega]

/-- Settles O27: each store is the write of its bytes (`exec_storb_permitted`, `exec_storw_permitted`), read back byte by
byte. -/
theorem storeResults : Obligations.StoreResults := by
  intro s m rs hwf a hi
  refine ⟨fun hacc => ?byte, fun hacc => ?word, fun hs htop hwrap => ?top,
    fun hs hd => ⟨fun hlo hhi => ?deviceByte, fun hlo hhi => ?deviceWord⟩⟩
  case byte =>
    obtain ⟨hs, hm, -⟩ := hacc
    have hexec := exec_storb_permitted hs (permitted_of_inMemory hm) rs
    rw [writeAt_memory _ (onDevice_of_inMemory hm)] at hexec
    exact ⟨_, hexec, Memory.read_write _ hwf, rfl⟩
  case word =>
    have below := ne_top_of_accessible hacc
    have hsucc : (a + 1).toNat = a.toNat + 1 := succ_toNat below
    obtain ⟨hs, hm, -⟩ := hacc
    have hread := Memory.read_writeWord a (s.reg rs) hwf
    rw [hsucc] at hread
    refine ⟨_, exec_storw_inMemory hwf hs (.inl below) hm rs, ?_, ?_, fun x hx => ?_, by rw [hsucc]⟩
    · exact (hread _).trans (by simp [lowByte])
    · exact (hread _).trans (by simp [hi])
    · exact (hread x).trans (by rw [if_neg (by omega), if_neg (by omega)])
  case top =>
    have ha : s.effectiveAddr m = 0x3FFFF#18 := BitVec.eq_of_toNat_eq htop
    have hread := Memory.read_writeWord (0x3FFFF#18) (s.reg rs) hwf
    have hexec := exec_storw_inMemory hwf hs (.inr hwrap) (ha ▸ inMemory_top) rs
    rw [ha] at hexec
    rw [succ_top] at hread hexec
    refine ⟨_, hexec, ?_, ?_, fun x hx0 hx => ?_, rfl⟩
    · exact hread 0x3FFFF
    · exact hread 0
    · exact (hread x).trans (by rw [if_neg hx0]; exact if_neg hx)
  case deviceByte =>
    rw [exec_storb_permitted hs (permitted_of_device hd _ _), writeAt_device _ (onDevice_of_reserved hd hlo hhi)]
    rfl
  case deviceWord =>
    refine ⟨_, exec_storw_permitted hs (wordPermitted_of_reserved hhi) (permitted_of_device hd _ _) rs,
      read_writeAt_word_device hwf hd hlo hhi _ _, ?_⟩
    rw [writeAt_frame, writeAt_frame]
    rfl

end Sys2Proof.Machine
end

section
/-! What a step does at a boundary: which interrupt is accepted, the waiting state, the reset, and the instruction the bytes
at the PC decode to (spec/60_exceptions.md R214 to R218, spec/49_miscellaneous.md R200 to R203,
spec/70_reset_and_hazards.md R260). -/

namespace Sys2Proof

variable {w v : Word} {ins : Instr}

/-! ## The length of a decoded instruction (spec/30_encoding.md R81, R100) -/

/-- Two bytes for each word of an encoding are the length of the instruction (R100). -/
theorem encodeWords_length (ins : Instr) : 2 * (encodeWords ins).length = ins.len := by
  cases ins with
  | nop | retx | excp | di | ei | wait | lpr | spr | bal | jal | jump | und => rfl
  | movxb | movzb => rfl
  | addb src | addw src | addub src | adduw src | mulb src | mulw src | ashub src | ashuw src | lshb src | lshw src
  | xorb src | xorw src | cmpb src | cmpw src | andb src | andw src | addcb src | addcw src | movb src | movw src
  | subcb src | subcw src | orb src | orw src | subb src | subw src | tbit src => exact Laws.EncodedLength.basic _ _ src _
  | seq | sne | scs | scc | shi | sls | sgt | sle | sfs | sfc | slo | shs | slt | sge => rfl
  | beq d | bne d | bcs d | bcc d | bhi d | bls d | bgt d | ble d | bfs d | bfc d | blo d | bhs d | blt d | bge d | br d =>
    exact Laws.EncodedLength.branch _ d
  | jeq | jne | jcs | jcc | jhi | jls | jgt | jle | jfs | jfc | jlo | jhs | jlt | jge => rfl
  | loadb m rd | loadw m rd | storb rd m | storw rd m => exact Laws.EncodedLength.mem _ _ rd m

/-- A decoded instruction has two bytes for each word the decoder looks at (R100). -/
theorem len_of_decodeWords (h : decodeWords w v = .ok ins) : ins.len = 2 * (instrWords w v).length := by
  rw [← encodeWords_length, (listed_of_decodeWords h).encodeWords_eq.2]

/-- A decoded instruction with a second word has 4 bytes (R100). -/
theorem len_of_long (hl : isLong w = true) (h : decodeWords w v = .ok ins) : ins.len = 4 := by
  rw [len_of_decodeWords h, instrWords_long hl]
  rfl

/-- A decoded instruction has at least its first word (R100). -/
theorem two_le_len (h : decodeWords w v = .ok ins) : 2 ≤ ins.len := by
  rw [len_of_decodeWords h, instrWords]
  split <;> simp

/-- What four bytes decode to is what their two words decode to (R81). -/
theorem decodeWords_of_decode {a b c d : Byte} {rest : List Byte} (h : decode [a, b, c, d] = .ok (ins, rest)) :
    decodeWords (wordOfBytes a b) (wordOfBytes c d) = .ok ins := by
  cases hl : isLong (wordOfBytes a b) with
  | true =>
    simp only [decode, hl, if_true] at h
    obtain ⟨j, hj, he⟩ := map_eq_ok.1 h
    cases he
    exact hj
  | false =>
    simp only [decode, hl, Bool.false_eq_true, if_false] at h
    obtain ⟨j, hj, he⟩ := map_eq_ok.1 h
    cases he
    exact (decodeWords_short hl _ _).trans hj

end Sys2Proof

namespace Sys2Proof.Machine

open Sys2Proof

variable {s t u : State} {i : Instr} {e : Exc} {b : Boundary}

/-! ## The instruction at the PC (spec/60_exceptions.md R218, spec/20_memory.md R57) -/

/-- The word at a legal PC is that of the first two instruction bytes (R57, D1). -/
theorem wordAt_pc (hpc : s.pcLegal) :
    wordAt s.mem s.pc.toNat = wordOfBytes (s.mem.read (codeByte s 0)) (s.mem.read (codeByte s 1)) := by
  obtain ⟨hlt, heven⟩ := pcLegal_toNat hpc
  rw [codeByte, codeByte, Nat.add_zero, Nat.mod_eq_of_lt hlt, Nat.mod_eq_of_lt (by omega)]
  rfl

/-- Settles O35: the bytes at the PC are the words that are fetched, and words that decode to an instruction are that
instruction whatever UNLISTED_ENCODING is. -/
theorem stepRunsDecodedInstruction : Obligations.StepRunsDecodedInstruction := by
  intro s i rest hrun hpc hmem hend h
  have hd := decodeWords_of_decode h
  rw [← wordAt_pc hpc] at hd
  have first : fetchesMemory s 2 := fun k hk => hmem k (Nat.lt_of_lt_of_le hk (two_le_len hd))
  obtain ⟨v, hsecond, hv, -⟩ := fetchSecond_started (w := wordAt s.mem s.pc.toNat) hpc fun hl => by
    rw [len_of_long hl hd] at hmem hend
    exact ⟨hend, hmem, rfl⟩
  have hd' := hv.trans hd
  have hfirst : s.started.firstWord (wordAt s.mem s.pc.toNat) = wordAt s.mem s.pc.toNat := firstWord_of_decoded hd'
  refine step_of_fetched hrun (fetchInstr_ok_of_words (fetch16_started hpc first) (v := v) ?_ ?_)
  · rw [hfirst, hsecond]
  · rw [hfirst, decodeUnder_of_decoded _ hd']

/-! ## Accepted interrupts (spec/60_exceptions.md R214, R215, R217) -/

/-- Every request has its place in every order (R217). -/
theorem mem_priorityOrder (order : Config.IntPriority) (x : Config.Source) : x ∈ priorityOrder order := by
  cases order <;> cases x <;> decide

/-- No interrupt is accepted exactly where no request is (R217). -/
theorem acceptedInterrupt_eq_none : acceptedInterrupt b s = none ↔ ∀ x, accepts b s.psr x = false := by
  simp [acceptedInterrupt, mem_priorityOrder]

/-- An interrupt is accepted where a request is (R217). -/
theorem acceptedInterrupt_isSome {x : Config.Source} (h : accepts b s.psr x = true) :
    (acceptedInterrupt b s).isSome = true := by
  rw [Option.isSome_iff_ne_none, Ne, acceptedInterrupt_eq_none, not_forall]
  exact ⟨x, by simp [h]⟩

/-- A request accepted alone is the accepted interrupt, whatever the order (R217). -/
theorem acceptedInterrupt_of_only {x : Config.Source} (h : ∀ y, accepts b s.psr y = true ↔ y = x) :
    acceptedInterrupt b s = some (excOf b x) := by
  obtain ⟨e, he⟩ := Option.isSome_iff_exists.1 (acceptedInterrupt_isSome ((h x).2 rfl))
  obtain ⟨y, hy, rfl⟩ := Option.map_eq_some_iff.1 he
  rw [he, (h y).1 (List.find?_some hy)]

/-- Settles O37: of the requests only the maskable one stands, and it is accepted as I and E say. -/
theorem maskableAcceptedExactlyWhenEnabled : Obligations.MaskableAcceptedExactlyWhenEnabled := by
  intro s hint hise hnmi
  split
  · rename_i enabled
    refine acceptedInterrupt_of_only (x := .int) fun y => ?_
    cases y <;> simp [accepts, hint, hise, hnmi, enabled]
  · rename_i masked
    refine acceptedInterrupt_eq_none.2 fun y => ?_
    cases y with
    | ise => exact hise
    | nmi => exact hnmi
    | int => simpa [accepts, hint] using masked

/-- Settles O38: whether NMI and ISE are accepted does not look at the PSR. -/
theorem nonMaskableAlwaysAccepted : Obligations.NonMaskableAlwaysAccepted := by
  intro s r
  refine ⟨fun h => ?_, fun hnmi hise hint => ?_, fun hise hnmi hint => ?_⟩
  · rcases h with hnmi | hise
    · exact acceptedInterrupt_isSome (x := .nmi) hnmi
    · exact acceptedInterrupt_isSome (x := .ise) hise
  · refine acceptedInterrupt_of_only (x := .nmi) fun y => ?_
    cases y <;> simp [accepts, hint, hise, hnmi]
  · refine acceptedInterrupt_of_only (x := .ise) fun y => ?_
    cases y <;> simp [accepts, hint, hise, hnmi]

/-- The image of the first element that passes a test, by the first element. -/
theorem map_find?_cons {α β : Type} (p : α → Bool) (f : α → β) (x : α) (l : List α) :
    ((x :: l).find? p).map f = if p x then some (f x) else (l.find? p).map f := by
  rw [List.find?_cons]
  cases p x <;> rfl

/-- The image of the first of three that passes a test, as a chain of tests. -/
theorem map_find?_three {α β : Type} (p : α → Bool) (f : α → β) (x y z : α) :
    ([x, y, z].find? p).map f =
      if p x then some (f x) else if p y then some (f y) else if p z then some (f z) else none := by
  rw [map_find?_cons, map_find?_cons, map_find?_cons, List.find?_nil, Option.map_none]

/-- Settles O39: the first of the three requests in each order that is accepted (`map_find?_three`). -/
theorem interruptPriority : Obligations.InterruptPriority := by
  intro s
  simp only [acceptedInterrupt]
  cases s.params.intPriority <;> exact map_find?_three _ _ _ _ _

/-! ## The branches of the instruction cycle (spec/60_exceptions.md R218) -/

/-- The state in which an interrupt is taken at a boundary: the boundary is used up and the core is not waiting (R218). -/
def State.interrupted (s : State) : State := { s with inputs := s.inputs.tail, waiting := false }

/-- A core that does not wait is interrupted as it is. -/
theorem interrupted_of_running (h : s.waiting = false) : s.interrupted = { s with inputs := s.inputs.tail } := by
  rw [State.interrupted, ← h]

/-- At a boundary with a reset a step is the reset (R260). -/
theorem step_of_reset (hr : s.boundary.reset = true) : step s = .next (resetSequence s.nextBoundary) := by
  simp only [step, cycle, hr, if_true]

/-- At a boundary with an accepted interrupt a step takes it (R218). -/
theorem step_of_accepted (hr : s.boundary.reset = false) (h : acceptedInterrupt s.boundary s = some e) :
    step s = finish (acknowledge e s.interrupted) := by
  have h' : acceptedInterrupt s.boundary s.nextBoundary = some e := h
  simp only [step, cycle, hr, h', Bool.false_eq_true, if_false]
  rfl

/-- A core that goes on waiting idles (R203). -/
theorem step_of_idle (hr : s.boundary.reset = false) (hn : acceptedInterrupt s.boundary s = none)
    (hw : s.waiting = true) (hk : wakes s.boundary s = false) : step s = .next s.nextBoundary := by
  have hn' : acceptedInterrupt s.boundary s.nextBoundary = none := hn
  have hk' : wakes s.boundary s.nextBoundary = false := hk
  simp [step, cycle, hr, hn', hw, hk']

/-- A core that a masked request wakes does what it would do if it had not been waiting (R203). -/
theorem step_of_wake (hr : s.boundary.reset = false) (hn : acceptedInterrupt s.boundary s = none)
    (hk : wakes s.boundary s = true) : step s = step { s with waiting := false } := by
  have hn' : acceptedInterrupt s.boundary s.nextBoundary = none := hn
  have hn'' : acceptedInterrupt s.boundary { s with waiting := false }.nextBoundary = none := hn
  have hr' : ({ s with waiting := false } : State).boundary = s.boundary := rfl
  have hk' : wakes s.boundary s.nextBoundary = true := hk
  simp only [step, cycle, hr', hr, hn', hn'', hk', nextBoundary_waiting, Bool.not_true, Bool.and_false, Bool.false_and,
    Bool.false_eq_true, if_false]
  rfl

/-- A core with a trace trap pending takes it before the instruction (R231). -/
theorem step_of_trace (hr : s.boundary.reset = false) (hn : acceptedInterrupt s.boundary s = none)
    (hw : s.waiting = false) (hp : s.psr.p = true) : step s = finish (acknowledge .trc s.interrupted) := by
  have hn' : acceptedInterrupt s.boundary s.nextBoundary = none := hn
  simp only [step, cycle, hr, hn', nextBoundary_waiting, hw, nextBoundary_psr, hp, Bool.false_and, Bool.false_eq_true,
    if_false, if_true]
  rfl

/-! ## DI, EI, NOP and WAIT (spec/49_miscellaneous.md R200 to R203) -/

/-- Settles O30. -/
theorem miscellaneousResults : Obligations.MiscellaneousResults := fun _ => ⟨rfl, rfl, rfl, rfl⟩

/-! ## The waiting state (spec/49_miscellaneous.md R203, spec/10_state.md R36) -/

/-- A masked request wakes the core exactly where it stands and WAIT_WAKE says so (R203, D19). -/
theorem wakes_iff : wakes b s = true ↔ b.int = true ∧ s.params.waitWake = .anyRequest := by
  simp [wakes]

/-- Settles O42: the two ways in which `cycle` goes on in a waiting core. -/
theorem waitingIdles : Obligations.WaitingIdles := by
  intro s hw hr hn
  refine ⟨fun hidle => step_of_idle hr hn hw (Bool.eq_false_iff.2 fun hk => ?_),
    fun hint hany => step_of_wake hr hn (wakes_iff.2 ⟨hint, hany⟩)⟩
  obtain ⟨hint, hany⟩ := wakes_iff.1 hk
  rcases hidle with hquiet | honly
  · rw [hint] at hquiet
    cases hquiet
  · rw [hany] at honly
    cases honly

/-- An exception entry leaves the core waiting or not as it was. -/
theorem enterException_waiting (h : enterException e s = .ok t) : t.waiting = s.waiting := by
  rw [(enterException_ok h).1]

/-- Only WAIT writes the waiting state (R203, spec/10_state.md R36). -/
theorem Effect.waiting (h : Effect s i t) (hi : i ≠ .wait) : t.waiting = s.waiting := by
  cases h with
  | advances | jumps | links | compares | tests | enables | stores => rfl
  | writes w v => exact writeLow_waiting s _ w v
  | sums w x => exact writeLow_waiting s _ w x.value
  | waits => exact absurd rfl hi
  | @loadsProc rs dest => exact loadProc_waiting s dest _
  | traps hi he h => exact enterException_waiting h
  | returns h => rw [(returnFromException_ok h).1]

/-- The fetch of an instruction leaves the core waiting or not as it was. -/
theorem fetchInstr_waiting {j : Option Instr} (h : fetchInstr s = .ok (j, u)) : u.waiting = s.waiting := by
  obtain ⟨⟨k, rfl⟩, -⟩ := fetchInstr_ok h
  rfl

/-- Settles O43: of the cases of a step only a reset, an interrupt and a wake leave a waiting core not waiting, and only an
instruction can leave the core waiting that was not. -/
theorem waitingEndsOnlyByInterruptOrReset : Obligations.WaitingEndsOnlyByInterruptOrReset := by
  intro s t hstep
  have woken (hw : s.waiting = false ∨ wakes s.boundary s = true) (hs : s.waiting = true) :
      s.params.waitWake = .anyRequest ∧ s.boundary.int = true :=
    (wakes_iff.1 (hw.resolve_left (by simp [hs]))).symm
  have entered_running {r : State} {e : Exc} (hr : r.waiting = false) (h : enterException e r = .ok t) :
      ¬ t.waiting = true := by simp [enterException_waiting h, hr]
  rcases cycle_cases hstep with
    ⟨hr, rfl⟩ | ⟨-, e, he, -, hent⟩ | ⟨-, -, ⟨-, -, rfl⟩ | ⟨hw, ⟨-, hent⟩ | ⟨-, i, u, hf, ran⟩⟩⟩
  · exact ⟨fun _ _ => .inl hr, fun _ => nofun⟩
  · exact ⟨fun _ _ => .inr (.inl (by rw [he]; rfl)), fun _ ht => absurd ht (entered_running rfl hent)⟩
  · exact ⟨fun hs ht => absurd (hs.symm.trans ht) nofun, fun hs ht => absurd (hs.symm.trans ht) nofun⟩
  · exact ⟨fun hs _ => .inr (.inr (woken hw hs)), fun _ ht => absurd ht (entered_running rfl hent)⟩
  · refine ⟨fun hs _ => .inr (.inr (woken hw hs)), fun hs ht => ?_⟩
    have hu : u.waiting = false := fetchInstr_waiting hf
    have hstarted : { s.nextBoundary with waiting := false, psr := { s.psr with p := s.psr.t } } = s.started := by
      rw [← hs]
      rfl
    rw [hstarted] at hf
    rcases ran with ⟨j, rfl, hj⟩ | ⟨-, hent⟩
    · by_cases hwait : j = .wait
      · exact ⟨u, hwait ▸ hf⟩
      · rw [(exec_effect hj).waiting hwait, hu] at ht
        cases ht
    · exact absurd ht (entered_running hu hent)

/-! ## The reset of a running core (spec/70_reset_and_hazards.md R260) -/

/-- A reset captures the PC and the PSR in R0 and R1 (R260). -/
theorem resetSequence_captures (s : State) :
    (resetSequence s).reg 0 = wordOfCode s.pc ∧ (resetSequence s).reg 1 = s.psrWord := by
  rw [wordOfCode_eq_toHalf]
  constructor <;> simp [State.reg, resetSequence]

/-- Settles O44: what is captured by `resetSequence_captures`, a word that shows the PSR by `showsPsr_word`. -/
theorem resetSequenceResult : Obligations.ResetSequenceResult := by
  intro s hr
  obtain ⟨home, status⟩ := resetSequence_captures s.nextBoundary
  refine ⟨_, step_of_reset hr, home, ?_, rfl, rfl, rfl, rfl, tableAddr_legal _, tableAddr_legal _, rfl⟩
  rw [status]
  exact showsPsr_word _ _

end Sys2Proof.Machine
end

section
/-! Exceptions (spec/60_exceptions.md): where the acknowledge sequence and the return stop and where they answer, the entry
of an interrupt and of the trace trap, an entry followed by RETX, and which instructions complete. -/

namespace Sys2Proof.Machine

open Sys2Proof

variable {s t u : State} {a : Addr} {i : Instr} {e : Exc}

/-! ## The checks of a frame (R220, R237) -/

/-- The checks of the two words of a frame at `a` (R223, R237). -/
def checkFrame (s : State) (a : Addr) : Except Stop Unit := do
  checkWord s a
  checkWord s (a + 2)

/-- A frame of 4 bytes that begins below 2^16 is permitted where its two words are (spec/20_memory.md R52). -/
theorem permitted_frame_iff {x : Nat} (hx : x < 0x10000) : permitted s x 4 ↔ permitted s x 2 ∧ permitted s (x + 2) 2 := by
  by_cases hr : s.params.reservedRegionAccess = .refuse <;> simp [permitted, hr]
  omega

/-- The second word of a frame that begins below 2^16. -/
theorem frame_second_toNat (ha : a.toNat < 0x10000) : (a + 2).toNat = a.toNat + 2 := by bv_omega

/-- A permitted frame passes its checks (R237). -/
theorem checkFrame_permitted (ha : a.toNat < 0x10000) (h : permitted s a.toNat 4) : checkFrame s a = .ok () := by
  have hsecond := frame_second_toNat ha
  obtain ⟨h0, h2⟩ := (permitted_frame_iff ha).1 h
  rw [checkFrame, checkWord_permitted (wordPermitted_of_code (by omega)) h0]
  exact checkWord_permitted (wordPermitted_of_code (by omega)) (hsecond.symm ▸ h2)

/-- A frame that is not permitted is refused (R237, D22). -/
theorem checkFrame_refused (ha : a.toNat < 0x10000) (h : ¬ permitted s a.toNat 4) :
    checkFrame s a = .error (.refusal .reservedRegion) := by
  have hsecond := frame_second_toNat ha
  rw [permitted_frame_iff ha, not_and] at h
  rw [checkFrame]
  by_cases h0 : permitted s a.toNat 2
  · rw [checkWord_permitted (wordPermitted_of_code (by omega)) h0]
    exact checkWord_refused (wordPermitted_of_code (by omega)) (hsecond.symm ▸ h h0)
  · rw [checkWord_refused (wordPermitted_of_code (by omega)) h0]
    rfl

/-- A push that is not permitted is refused (D11). -/
theorem pushedIsp_refused (h : ¬ pushPermitted s) : pushedIsp s = .error (.refusal .ispPastEnd) := by
  cases hp : pushedIsp s with
  | ok isp => exact absurd (pushedIsp_ok.1 hp).1 h
  | error stop =>
    rw [pushedIsp] at hp
    split at hp <;> cases hp
    rfl

/-- A pop that is not permitted is refused (D11). -/
theorem poppedIsp_refused (h : ¬ popPermitted s) : poppedIsp s = .error (.refusal .ispPastEnd) := by
  cases hp : poppedIsp s with
  | ok isp => exact absurd (poppedIsp_ok.1 hp).1 h
  | error stop =>
    rw [poppedIsp] at hp
    split at hp <;> cases hp
    rfl

/-! ## Where the acknowledge sequence stops (R220, R229, R237) -/

/-- The check of a word depends on the parameters alone. -/
theorem checkWord_congr (h : t.params = s.params) (a : Addr) : checkWord t a = checkWord s a := by
  simp only [checkWord, h, refuses_congr h]

/-- The acknowledge sequence is the move of ISP, the checks of the frame and of the table entry, and an answer (R220). -/
theorem enterException_checks (e : Exc) (s : State) : ∃ t : Addr → State, enterException e s = (do
    let isp ← pushedIsp s
    checkFrame s isp
    checkWord s (entryAddr s (vectorOf s.params e))
    return t isp) := by
  have drawn (a : Addr) : checkWord (s.drawn 1) a = checkWord s a := checkWord_congr rfl a
  have written (t : State) (a b : Addr) (v : Byte) : checkWord (t.writeAt b v) a = checkWord t a :=
    checkWord_congr (writeAt_params t b v) a
  simp only [enterException, storeWord, loadWord, checkFrame, entryAddr, bind_assoc, pure_bind, drawn, written]
  exact ⟨_, rfl⟩

/-- The acknowledge sequence stops as past the end where ISP cannot move (D11). -/
theorem enterException_ispPastEnd (e : Exc) (h : ¬ pushPermitted s) :
    enterException e s = .error (.refusal .ispPastEnd) := by
  obtain ⟨t, ht⟩ := enterException_checks e s
  rw [ht, pushedIsp_refused h]
  rfl

/-- The frame that the acknowledge sequence pushes begins below 2^16 (R220). -/
theorem pushed_lt (s : State) : (movedIsp s.isp (-4#16)).toNat < 0x10000 := by
  rw [pushed_toNat]
  exact Nat.mod_lt _ (by decide)

/-- The acknowledge sequence stops in the reserved range where its frame does, or else its table entry (R237, D22). -/
theorem enterException_reserved (hp : pushPermitted s) (h : ¬ permitted s (frameAddr s) 4 ∨
      (wordPermitted s (entryAddr s (vectorOf s.params e)) ∧
        ¬ permitted s (entryAddr s (vectorOf s.params e)).toNat 2)) :
    enterException e s = .error (.refusal .reservedRegion) := by
  obtain ⟨t, ht⟩ := enterException_checks e s
  rw [ht, pushedIsp_ok.2 ⟨hp, rfl⟩]
  by_cases hf : permitted s (frameAddr s) 4
  · obtain ⟨hw, he⟩ := h.resolve_left (not_not.2 hf)
    simp only [bind, Except.bind, checkFrame_permitted (pushed_lt s) ((pushed_toNat s).symm ▸ hf), checkWord_refused hw he]
  · simp only [bind, Except.bind, checkFrame_refused (pushed_lt s) ((pushed_toNat s).symm ▸ hf)]

/-- The acknowledge sequence stops with a fault where its frame is permitted and its table entry is the last byte of the
address space (D3). -/
theorem enterException_wordAtTop (hp : pushPermitted s) (hf : permitted s (frameAddr s) 4)
    (hw : ¬ wordPermitted s (entryAddr s (vectorOf s.params e))) :
    enterException e s = .error (.fault .wordAtTop) := by
  obtain ⟨t, ht⟩ := enterException_checks e s
  rw [ht, pushedIsp_ok.2 ⟨hp, rfl⟩]
  simp only [bind, Except.bind, checkFrame_permitted (pushed_lt s) ((pushed_toNat s).symm ▸ hf), checkWord_fault hw]

/-- The acknowledge sequence answers where its accesses are permitted (R229, R237). -/
theorem enterException_permitted (h : entryPermitted s (vectorOf s.params e)) : ∃ t, enterException e s = .ok t := by
  obtain ⟨hp, hf, he, hw⟩ := h
  obtain ⟨t, ht⟩ := enterException_checks e s
  rw [ht, pushedIsp_ok.2 ⟨hp, rfl⟩]
  refine ⟨t (movedIsp s.isp (-4#16)), ?_⟩
  simp only [bind, Except.bind, checkFrame_permitted (pushed_lt s) ((pushed_toNat s).symm ▸ hf), checkWord_permitted hw he]
  rfl

/-! ## Where the return from an exception stops (spec/47_jumps_linkage.md R178) -/

/-- The return from an exception is the checks of the frame, the move of ISP, and an answer (R178). -/
theorem returnFromException_checks (s : State) : ∃ t : Addr → State, returnFromException s = (do
    checkFrame s s.isp
    let isp ← poppedIsp s
    return t isp) := by
  have read (t : State) (a b : Addr) : checkWord (t.readAt b).2 a = checkWord t a :=
    checkWord_congr (readAt_params t b) a
  simp only [returnFromException, loadWord, checkFrame, bind_assoc, pure_bind, read]
  exact ⟨_, rfl⟩

/-- RETX in the three cases of its frame and of the move of ISP (R178, R237, D11). -/
theorem exec_retx_completes (hisp : tableLegal s.isp) :
    (permitted s s.isp.toNat 4 → popPermitted s → ∃ t, exec .retx s = .next t) ∧
    (permitted s s.isp.toNat 4 → ¬ popPermitted s → exec .retx s = .refused .ispPastEnd) ∧
    (¬ permitted s s.isp.toNat 4 → exec .retx s = .refused .reservedRegion) := by
  have hlt := tableLegal_lt hisp
  obtain ⟨t, ht⟩ := returnFromException_checks s
  simp only [exec, execRetx, ht]
  refine ⟨fun hf hp => ?_, fun hf hp => ?_, fun hf => ?_⟩
  · rw [checkFrame_permitted hlt hf, poppedIsp_ok.2 ⟨hp, rfl⟩]
    exact ⟨_, rfl⟩
  · rw [checkFrame_permitted hlt hf, poppedIsp_refused hp]
    rfl
  · rw [checkFrame_refused hlt hf]
    rfl

/-! ## Which instructions complete (R210, R229) -/

/-- An instruction that is a trap answers or stops as the acknowledge sequence does (R229, R237). -/
theorem exec_trap_completes {n : Nat} (hexec : exec i s = finish (enterException e s)) (hn : vectorOf s.params e = n) :
    (entryPermitted s n → ∃ t, exec i s = .next t) ∧
    (¬ pushPermitted s → exec i s = .refused .ispPastEnd) ∧
    (pushPermitted s →
      ¬ permitted s (frameAddr s) 4 ∨ (wordPermitted s (entryAddr s n) ∧ ¬ permitted s (entryAddr s n).toNat 2) →
      exec i s = .refused .reservedRegion) ∧
    (pushPermitted s → permitted s (frameAddr s) 4 → ¬ wordPermitted s (entryAddr s n) →
      exec i s = .fault .wordAtTop) := by
  subst hn
  rw [hexec]
  refine ⟨fun h => ?_, fun hp => ?_, fun hp h => ?_, fun hp hf hw => ?_⟩
  · obtain ⟨t, ht⟩ := enterException_permitted h
    exact ⟨t, finish_eq_next.2 ht⟩
  · rw [enterException_ispPastEnd e hp]
    rfl
  · rw [enterException_reserved hp h]
    rfl
  · rw [enterException_wordAtTop hp hf hw]
    rfl

/-- The exception number of EXCP: a named vector is its own, every other one is that of UND (R102, R105, R211). -/
theorem vectorOf_trapOf_eq (params : Config.Params) (v : BitVec 4) :
    vectorOf params (trapOf v) = if v = 5 ∨ v = 6 ∨ v = 7 ∨ v = 8 then v.toNat else 10 := by
  split
  · rename_i named
    exact vectorOf_trapOf params (by tauto)
  · rename_i other
    by_cases hv : v = 10
    · subst hv
      rfl
    · rw [trapOf_reserved (by tauto)]
      rfl

/-- Every instruction but loads, stores, RETX and the traps answers a next state in every state. -/
theorem exec_completes (i : Instr) (s : State)
    (hmem : ∀ m r, i ≠ .loadb m r ∧ i ≠ .loadw m r ∧ i ≠ .storb r m ∧ i ≠ .storw r m)
    (hretx : i ≠ .retx) (htrap : ¬ isTrap i) : ∃ t, exec i s = .next t := by
  cases i with
  | nop | di | ei | wait | movxb | movzb | lpr => exact ⟨_, rfl⟩
  | addb | addw | addub | adduw | mulb | mulw | ashub | ashuw | lshb | lshw | xorb | xorw | cmpb | cmpw | andb | andw
  | addcb | addcw | movb | movw | subcb | subcw | orb | orw | subb | subw => exact ⟨_, rfl⟩
  | seq | sne | scs | scc | shi | sls | sgt | sle | sfs | sfc | slo | shs | slt | sge => exact ⟨_, rfl⟩
  | beq | bne | bcs | bcc | bhi | bls | bgt | ble | bfs | bfc | blo | bhs | blt | bge | br | bal => exact ⟨_, rfl⟩
  | jeq | jne | jcs | jcc | jhi | jls | jgt | jle | jfs | jfc | jlo | jhs | jlt | jge | jump | jal => exact ⟨_, rfl⟩
  | tbit offset rs =>
    by_cases inRange : (s.srcVal .word offset).toNat ≤ 15
    · exact ⟨_, exec_tbit_inRange rs inRange⟩
    · exact ⟨_, exec_tbit_outOfRange rs (Nat.lt_of_not_le inRange)⟩
  | spr src => cases src <;> exact ⟨_, rfl⟩
  | loadb m r => exact absurd rfl (hmem m r).1
  | loadw m r => exact absurd rfl (hmem m r).2.1
  | storb r m => exact absurd rfl (hmem m r).2.2.1
  | storw r m => exact absurd rfl (hmem m r).2.2.2
  | retx => exact absurd rfl hretx
  | excp v => exact absurd (.inl ⟨v, rfl⟩) htrap
  | und p => exact absurd (.inr ⟨p, rfl⟩) htrap

/-- Settles O53: `exec_completes` for the instructions without an access, `exec_trap_completes` and `exec_retx_completes` for
those with accesses to the interrupt stack. -/
theorem allButLoadsAndStoresComplete : Obligations.AllButLoadsAndStoresComplete := by
  intro i s hmem traps
  refine ⟨fun hretx hexcp hund => ?_, fun v hi => ?_, fun p hi => ?_, fun hi hisp => ?_⟩
  · refine exec_completes i s hmem hretx ?_
    rintro (⟨v, hi⟩ | ⟨p, hi⟩)
    · exact hexcp v hi
    · exact hund p hi
  · exact exec_trap_completes (hi ▸ exec_excp v s) (vectorOf_trapOf_eq s.params v)
  · exact exec_trap_completes (e := .und) (hi ▸ exec_und p s) rfl
  · exact hi ▸ exec_retx_completes hisp

/-! ## An exception entry and RETX (R225) -/

/-- What is kept of a legal code address in 16 bits is all of it (spec/10_state.md R15). -/
theorem codeOfWord_wordOfCode {a : Addr} (h : a.getLsbD 17 = false ∧ a.getLsbD 0 = false) :
    codeOfWord (wordOfCode a) = a := by
  rw [codeOfWord_eq_fromHalf, wordOfCode_eq_toHalf, fromHalf_toHalf h]

/-- After the push of a frame from a legal ISP its pop has a meaning (D11). -/
theorem popPermitted_of_pushed (hisp : tableLegal s.isp) (hp : pushPermitted s) (hparams : u.params = s.params)
    (hu : u.isp.toNat = frameAddr s) : popPermitted u := by
  have hlt := tableLegal_lt hisp
  rw [popPermitted, hparams, hu, frameAddr]
  exact hp.imp_right fun hroom => by omega

/-- The PSR an exception pushes (R220, R231, D6). -/
theorem pushed_eq_ite (r : Psr) (e : Exc) : r.pushed e = if e = .trc then { r with p := false } else r := by
  split
  · rename_i htrc
    rw [htrc]
    rfl
  · exact pushed_of_ne_trc r ‹_›

/-- Settles O34: RETX pops the two words that the entry pushed (`enterException_entered`), and ISP moves down and up again
(`movedIsp_back`). -/
theorem entryThenReturnRestores : Obligations.EntryThenReturnRestores := by
  intro s e hinv hent
  obtain ⟨hpc, hisp, -, -, hwf⟩ := hinv
  obtain ⟨u, hu, -, hhome, ⟨hstatus, -⟩, -, -, -, hframe⟩ := enterException_entered hwf hent
  obtain ⟨hp, hf, -, -⟩ := hent
  have hmoved : u.isp = movedIsp s.isp (-4#16) := by rw [(enterException_ok hu).1]
  have hparams : u.params = s.params := by rw [hframe]
  have hbelow : u.isp.toNat = frameAddr s := by rw [hmoved, pushed_toNat]
  have hret : exec .retx u = _ := finish_eq_next.2 (returnFromException_memory (s := u)
    (hmoved ▸ movedIsp_legal hisp (by decide)) (by rw [inMemory, hparams, hbelow]; exact hf)
    (popPermitted_of_pushed hisp hp hparams hbelow))
  refine ⟨u, _, hu, hret, ?pc, ?isp, ?intbase, ?regs, ?psr⟩
  case pc =>
    rw [hhome, ← codeOfWord_eq_fromHalf]
    exact codeOfWord_wordOfCode hpc
  case isp =>
    rw [hmoved]
    exact movedIsp_back hisp
  case intbase => rw [hframe]
  case regs => rw [hframe]
  case psr =>
    rw [← pushed_eq_ite]
    exact hstatus

/-! ## Exceptions taken at a boundary (R218 to R222, R231, R237) -/

/-- A table entry at a legal INTBASE is even, so the word there has both its bytes (R211, D3). -/
theorem wordPermitted_entryAddr (h : tableLegal s.intbase) (n : Nat) : wordPermitted s (entryAddr s n) := by
  obtain ⟨-, -, heven⟩ := h
  have hbase := toNat_even heven
  refine .inl fun htop => ?_
  have hentry : (entryAddr s n).toNat = 0x3FFFF := by rw [htop]; rfl
  rw [entryAddr, BitVec.toNat_add, BitVec.toNat_ofNat] at hentry
  omega

/-- Where the reserved range is refused an entry that touches it stops in its frame or at its table entry (R237, D22). -/
theorem not_permitted_of_entryReserved {n : Nat} (hrefuse : s.params.reservedRegionAccess = .refuse)
    (h : entryReserved s n) : ¬ permitted s (frameAddr s) 4 ∨ ¬ permitted s (entryAddr s n).toNat 2 := by
  have hframe : frameAddr s < 0x10000 := Nat.mod_lt _ (by decide)
  rcases h with hend | ⟨hlo, hhi⟩
  · refine .inl ?_
    rintro (below | above | answered)
    · omega
    · omega
    · exact answered hrefuse
  · refine .inr ?_
    rintro (below | above | answered)
    · omega
    · omega
    · exact answered hrefuse

/-- An exception taken at a boundary: the state after the acknowledge sequence where frame and table entry lie in memory, and
no partial sequence where they touch the reserved range and that is refused (R220, R237). -/
theorem finish_enterException {n : Nat} (hn : vectorOf s.params e = n) :
    (s.mem.wf = true → entersInMemory s n → ∃ t, finish (enterException e s) = .next t ∧
      entered s t (s.psr.pushed e) (s.psr.i && !e.isInterrupt) n) ∧
    (s.params.reservedRegionAccess = .refuse → s.params.ispWrap = .modulo → tableLegal s.intbase → entryReserved s n →
      finish (enterException e s) = .refused .reservedRegion) := by
  subst hn
  refine ⟨fun hwf hent => ?_, fun hrefuse hwrap hbase hres => ?_⟩
  · obtain ⟨t, ht, hentered⟩ := enterException_entered hwf hent
    exact ⟨t, finish_eq_next.2 ht, hentered⟩
  · have hstops := not_permitted_of_entryReserved hrefuse hres
    rw [enterException_reserved (.inl hwrap) (hstops.imp_right (.intro (wordPermitted_entryAddr hbase _)))]
    rfl

/-- An accepted interrupt whose vector has a meaning: P is pushed as it was and I is cleared (R220, R222). -/
theorem step_of_interrupt {n : Nat} (hr : s.boundary.reset = false) (h : acceptedInterrupt s.boundary s = some e)
    (hv : vectorStated s.params e = true) (he : e.isInterrupt = true) (hn : vectorOf s.params e = n) :
    (s.mem.wf = true → entersInMemory s n → ∃ t, step s = .next t ∧ entered s.interrupted t s.psr false n) ∧
    (s.params.reservedRegionAccess = .refuse → s.params.ispWrap = .modulo → tableLegal s.intbase → entryReserved s n →
      step s = .refused .reservedRegion) := by
  have hstep : step s = finish (enterException e s.interrupted) := by
    rw [step_of_accepted hr h, acknowledge]
    exact congrArg finish (if_pos hv)
  have htrc : e ≠ .trc := fun htrc => by rw [htrc] at he; cases he
  have taken := finish_enterException (s := s.interrupted) hn
  rw [← hstep, pushed_of_ne_trc _ htrc, he, Bool.not_true, Bool.and_false] at taken
  exact taken

/-- A vector byte of the ICU has a meaning exactly in 16 to 127 or where ICU_VECTOR_RANGE uses it as it is (R221, D12). -/
theorem vectorStated_int (params : Config.Params) (v : Byte) :
    vectorStated params (.int v) = true ↔ (16 ≤ v.toNat ∧ v.toNat ≤ 127) ∨ params.icuVectorRange = .asIs := by
  simp [vectorStated]

/-- An accepted maskable request whose vector byte has no meaning is refused (R221, D12). -/
theorem step_of_unstated (hr : s.boundary.reset = false) (h : acceptedInterrupt s.boundary s = some e)
    (hv : ¬ vectorStated s.params e = true) : step s = .refused .icuVectorRange := by
  rw [step_of_accepted hr h, acknowledge]
  exact congrArg finish (if_neg hv)

/-- Settles O40: each accepted interrupt by `step_of_interrupt`, at the number of its exception. -/
theorem interruptEntry : Obligations.InterruptEntry := by
  intro s hr s' takes
  refine ⟨fun h => ?nmi, fun h => ?ise, fun v h => ⟨fun hv => ?stated, fun hv hrefuse => ?unstated⟩⟩
  case nmi => exact step_of_interrupt hr h rfl rfl rfl
  case ise => exact step_of_interrupt hr h rfl rfl rfl
  case stated => exact step_of_interrupt hr h ((vectorStated_int _ v).2 hv) rfl rfl
  case unstated =>
    refine step_of_unstated hr h ?_
    rw [vectorStated_int, hrefuse]
    rintro (inRange | asIs)
    · omega
    · cases asIs

/-- Settles O41: the trap is taken by `step_of_trace`, pushes P cleared, and is no interrupt, so I is kept. -/
theorem traceTrapEntry : Obligations.TraceTrapEntry := by
  intro s hr hn hw hp n
  have hstep : step s = finish (enterException .trc s.interrupted) := step_of_trace hr hn hw hp
  have taken := finish_enterException (s := s.interrupted) (e := .trc) (n := n) rfl
  rw [← hstep, Exc.isInterrupt, Bool.not_false, Bool.and_true, interrupted_of_running hw] at taken
  exact taken

end Sys2Proof.Machine
end
